-- ==== Sys2Proof/Word.lean ====
section
/-! DEFINITION. The word types of the FKE: bytes, 32-bit and 64-bit words, and byte strings of a fixed
length (00_scope.md R9, R10). Every rule of the spec that builds a byte string reads
"for j in 0..n: out[j] = ..."; `Bytes.build` is that loop and `Bytes.byte` is `B[j]`. -/

namespace Sys2Proof

/-- A byte: an unsigned integer from 0 to 255 (00_scope.md R9). -/
abbrev Byte := BitVec 8

/-- A 32-bit word, bit 0 least significant (00_scope.md R10). -/
abbrev Word := BitVec 32

/-- The 64-bit value of COUNTER (10_state.md R31). -/
abbrev Word64 := BitVec 64

/-- A byte string of length `n` (00_scope.md R9). -/
abbrev Bytes (n : Nat) := Vector Byte n

/-- The byte string whose byte `j` is `f j`, for `j` in `0..n`. -/
def Bytes.build (n : Nat) (f : Nat → Byte) : Bytes n :=
  ⟨⟨(List.range n).map f⟩, by simp⟩

/-- `B[j]`; the rules only use `j < n`, and past the end this answers 0 (DESIGN CHOICE, log entry 15). -/
def Bytes.byte {n : Nat} (b : Bytes n) (j : Nat) : Byte := b.toList.getD j 0

/-- `zeros(n)` (00_scope.md R9). -/
def Bytes.zeros (n : Nat) : Bytes n := Bytes.build n fun _ => 0

/-- `A xor B`, the bytewise exclusive-or of two strings of equal length (00_scope.md R9). -/
def Bytes.xor {n : Nat} (a b : Bytes n) : Bytes n := Bytes.build n fun j => a.byte j ^^^ b.byte j

end Sys2Proof
end

