-- ==== Sys2Proof/Config.lean ====
section
/-! DEFINITION. What an FKE instance fixes (00_scope.md R8, 10_state.md R39): the two plain-data parameters
BLOCK_SIZE_MAX and FEISTEL_OUTPUT_ORDER, and the two values the spec leaves open, the hash H256 and the
entropy draw, as constants without a body, so that nothing can be proved of their values. -/

namespace Sys2Proof

/-- FEISTEL_OUTPUT_ORDER (40_feistel.md R118): how the two halves are assembled into the output. -/
inductive OutputOrder where
  /-- `OUT(L, R) = L ‖ R`, the spec's default -/
  | lr
  /-- `OUT(L, R) = R ‖ L` -/
  | rl
deriving DecidableEq, Repr

/-- The plain-data parameters of one instance. The range of BLOCK_SIZE_MAX is R8's, so that an instance
outside it cannot be written down. -/
structure Config where
  /-- BLOCK_SIZE_MAX, 1..3072 (00_scope.md R8) -/
  blockSizeMax : Nat
  /-- FEISTEL_OUTPUT_ORDER (40_feistel.md R118) -/
  outputOrder : OutputOrder
  one_le : 1 ≤ blockSizeMax
  le_3072 : blockSizeMax ≤ 3072
deriving DecidableEq, Repr

/-- The spec's default instance: BLOCK_SIZE_MAX = 1024 and the order LR (00_scope.md R8). -/
def Config.default : Config :=
  { blockSizeMax := 1024, outputOrder := .lr, one_le := by decide, le_3072 := by decide }

/-- `H256`, the hash inside MIX (40_feistel.md R116, D8: OPEN): a total function of its input bytes alone,
and nothing else is known of it. A free value
(DESIGN CHOICE, log entry 1). -/
opaque Config.h256 : Bytes 64 → Bytes 32

/-- The 120 bytes that the entropy source gives at its `n`-th free draw (41_counter_engine.md R160: "120 bytes
under no law"). A free value (DESIGN CHOICE, log entry 2). -/
opaque Config.entropy : Nat → Bytes 120

end Sys2Proof
end

