-- ==== Sys2Proof/Syntax.lean ====
section
/-! DEFINITION. The command set of the FKE, one constructor for each row of spec/opcode_table.json
(30_encoding.md R93), and what the HOST can send to the register block: accesses and the level of the reset
input (20_memory.md R62, R73; 70_reset_and_hazards.md R230). No command has an operand field (R90). -/

namespace Sys2Proof

/-- The six commands (30_encoding.md R93). -/
inductive Instr where
  /-- NOP, word 0x00000000 (42_control.md R190) -/
  | nop
  /-- NONCE_GEN, word 0x00000001 (41_counter_engine.md R160) -/
  | nonceGen
  /-- FEISTEL, word 0x00000002 (40_feistel.md R124) -/
  | feistel
  /-- KS_GEN, word 0x00000003 (41_counter_engine.md R161) -/
  | ksGen
  /-- CTR_XOR, word 0x00000004 (41_counter_engine.md R162) -/
  | ctrXor
  /-- SOFT_RESET, word 0x000000FF, acting at the CMD write (42_control.md R191) -/
  | softReset
deriving DecidableEq, Repr

/-- The width of a host access (20_memory.md R62 names these four). -/
inductive AccessWidth where
  | byte | half | word | dword
deriving DecidableEq, Repr

/-- A read, or a write of a value. Only 32-bit writes are admitted (20_memory.md R62), so the value of a
write of another width is never looked at and 32 bits are enough to name one (DESIGN CHOICE, log entry 13). -/
inductive AccessKind where
  | read
  | write (v : Word)
deriving DecidableEq, Repr

/-- One host access at a byte offset of the 4096-byte register block (20_memory.md R60, R62). -/
structure Access where
  width : AccessWidth
  offset : BitVec 12
  kind : AccessKind
deriving DecidableEq, Repr

/-- `MemRead(off, 4)` (00_scope.md R11; the transcript's `rd`, 30_encoding.md R95). -/
def Access.rd (off : BitVec 12) : Access := ⟨.word, off, .read⟩

/-- `MemWrite(off, 4, v)` (00_scope.md R11; the transcript's `wr`, 30_encoding.md R95). -/
def Access.wr (off : BitVec 12) (v : Word) : Access := ⟨.word, off, .write v⟩

/-- One move of the outside world or one turn given to the ENGINE, in the order in which they happen
(00_scope.md R6; 20_memory.md R68, R69). -/
inductive Event where
  /-- the HOST makes one access -/
  | host (a : Access)
  /-- the ENGINE has its turn -/
  | engineTurn
  /-- the reset input RST is driven to a level (70_reset_and_hazards.md R230) -/
  | rst (asserted : Bool)
deriving DecidableEq, Repr

/-- What the register block answers to one host access (20_memory.md R63, R73). -/
inductive Response where
  /-- a read that was admitted, with its value -/
  | data (v : Word)
  /-- a write that was admitted -/
  | completed
  /-- the access was refused: no value, no effect (20_memory.md R63) -/
  | busError
deriving DecidableEq, Repr

end Sys2Proof
end

