-- ==== Sys2Proof/WellFormed.lean ====
section
/-! DEFINITION. What is well formed: a command (no command has an operand that could be wrong, 30_encoding.md
R90), a command word (R91, R92) and a host access (20_memory.md R62). -/

namespace Sys2Proof

/-- Every command is well formed: it has no immediate, no register field and no mode field (30_encoding.md R90). -/
def Instr.wellFormed : Instr → Bool
  | .nop => true
  | .nonceGen => true
  | .feistel => true
  | .ksGen => true
  | .ctrXor => true
  | .softReset => true

/-- The reserved field RSVD, bits 31:8, is 0 (30_encoding.md R90). -/
def rsvdClear (w : Word) : Bool := w.toNat / 256 == 0

/-- The opcode field OPC, bits 7:0, is one of the six of the opcode map (30_encoding.md R93). -/
def opcodeAssigned (w : Word) : Bool := w.toNat % 256 ≤ 4 || w.toNat % 256 == 0xFF

/-- A command word that is no reserved encoding (30_encoding.md R92). -/
def wellFormedWord (w : Word) : Bool := rsvdClear w && opcodeAssigned w

/-- The width rule of 20_memory.md R62: 32 bits. -/
def Access.widthOk (a : Access) : Bool := a.width == .word

/-- The alignment rule of 20_memory.md R62: the offset is a multiple of 4. -/
def Access.aligned (a : Access) : Bool := a.offset.toNat % 4 == 0

/-- An access of the one admitted shape: a 32-bit read or write at a multiple of 4 (20_memory.md R62). -/
def Access.wellFormed (a : Access) : Bool := a.widthOk && a.aligned

end Sys2Proof
end

