-- ==== Sys2Proof/Decode.lean ====
section
/-! DEFINITION. The decoder of command words, total on any word and any bytes, rejecting by name, and the
encoder (30_encoding.md R90 to R93; byte order 20_memory.md R64). -/

namespace Sys2Proof

/-- Why a word or a byte string is no command. -/
inductive DecodeError where
  /-- fewer than the four bytes of a command word -/
  | truncated
  /-- bits 31:8 are not 0 (30_encoding.md R92) -/
  | reservedBits (w : Word)
  /-- the opcode is reserved, 0x05 to 0xFE (30_encoding.md R92) -/
  | reservedOpcode (opc : Byte)
deriving DecidableEq, Repr

/-- OPC, bits 7:0 (30_encoding.md R90). -/
def opcField (w : Word) : Byte := w.extractLsb' 0 8

/-- RSVD, bits 31:8 (30_encoding.md R90). -/
def rsvdField (w : Word) : BitVec 24 := w.extractLsb' 8 24

/-- Command words to commands (30_encoding.md R91 with R93's row for 0xFF): RSVD is looked at first. -/
def decode (w : Word) : Except DecodeError Instr :=
  if rsvdField w ≠ 0 then .error (.reservedBits w)
  else if opcField w = 0x00 then .ok .nop
  else if opcField w = 0x01 then .ok .nonceGen
  else if opcField w = 0x02 then .ok .feistel
  else if opcField w = 0x03 then .ok .ksGen
  else if opcField w = 0x04 then .ok .ctrXor
  else if opcField w = 0xFF then .ok .softReset
  else .error (.reservedOpcode (opcField w))

/-- The word whose four bytes, first byte first, are `b0 b1 b2 b3` (20_memory.md R64: little-endian). -/
def wordOfBytes (b0 b1 b2 b3 : Byte) : Word := b3 ++ b2 ++ b1 ++ b0

/-- Byte `k` of a word, k = 0..3: bits 8k+7:8k (20_memory.md R64). -/
def byteOfWord (v : Word) (k : Nat) : Byte := v.extractLsb' (8 * k) 8

/-- The four bytes of a word as they lie in the register block (20_memory.md R64). -/
def bytesOfWord (v : Word) : List Byte :=
  [byteOfWord v 0, byteOfWord v 1, byteOfWord v 2, byteOfWord v 3]

/-- Decodes the command word at the head of a byte string and gives the bytes after it. -/
def decodeBytes : List Byte → Except DecodeError (Instr × List Byte)
  | b0 :: b1 :: b2 :: b3 :: rest =>
    match decode (wordOfBytes b0 b1 b2 b3) with
    | .ok i => .ok (i, rest)
    | .error e => .error e
  | _ => .error .truncated

/-- The word of a command (30_encoding.md R93). -/
def encode : Instr → Word
  | .nop => 0x00000000
  | .nonceGen => 0x00000001
  | .feistel => 0x00000002
  | .ksGen => 0x00000003
  | .ctrXor => 0x00000004
  | .softReset => 0x000000FF

/-- The four bytes of a command, as the host would lay them at CMD. -/
def encodeBytes (i : Instr) : List Byte := bytesOfWord (encode i)

/-- The word that an opcode-table row of `nbits` bits and bits `w` stands for; bits from `nbits` up are 0. -/
def tableWord (nbits w : Nat) : Word := BitVec.ofNat 32 (w % 2 ^ nbits)

/-- The command this decoder reads from a table row's word, laid out in bytes as the register block lays it. -/
def decodeTableWord (nbits w : Nat) : Option Instr :=
  match decodeBytes (bytesOfWord (tableWord nbits w)) with
  | .ok (i, _) => some i
  | .error _ => none

end Sys2Proof
end

