-- ==== Sys2Proof/Machine/State.lean ====
section
/-! DEFINITION. The state of one FKE as plain data (10_state.md), the reasons a step could stop, and the state
after reset (70_reset_and_hazards.md R231). The device's own state is `Device`; around it `State` holds the level
of the reset input, the instance's configuration and the record of the outside world (log entries 3 to 6). -/

namespace Sys2Proof.Machine

/-- The sequencer STATE (10_state.md R22). -/
inductive Seq where
  /-- the FKE accepts a command -/
  | idle
  /-- a command is accepted and not yet performed -/
  | busy
  /-- a command failed; only a reset leaves this -/
  | fault
deriving DecidableEq, Repr

/-- The faults of a command (60_exceptions.md R200). A fault is no stop of the model: the ENGINE step that
raises one takes a next state, by fault entry (R201). -/
inductive FaultCode where
  /-- code 1: a reserved command word -/
  | badCmd
  /-- code 2: KEY_LEN = 0 in a command that uses the key -/
  | keyEmpty
  /-- code 3: BLOCK_SIZE outside 1..BLOCK_SIZE_MAX in CTR_XOR -/
  | blockSizeRange
  /-- code 4: CHUNK_LEN outside 1..BLOCK_SIZE in CTR_XOR -/
  | chunkLenRange
  /-- code 5: COUNTER = 2^64 - 1 in CTR_XOR -/
  | counterExhausted
  /-- code 7: never raised (40_feistel.md R115); kept so that the source's error kind has a code -/
  | mixLength
deriving DecidableEq, Repr

/-- The reasons a step could stop the machine. There is none: the spec gives every command, every reserved
word and every refused access an effect or the answer "no effect" (60_exceptions.md R201, R204, R213; DEDUCED, log
entry 12). -/
inductive Fault where
deriving DecidableEq, Repr

/-- The reasons a step could have no meaning. -/
inductive Refusal where
  /-- raised only by an arm of `exec` for a command without a meaning yet; no arm raises it now. Safe: the run stops. -/
  | notModelled (mnemonic : String)
deriving DecidableEq, Repr

/-- The bytes of the register block's windows, by offset: a list of (offset, byte) with offsets strictly
rising and no byte equal to what an unlisted offset reads as (20_memory.md R60, R61; DEDUCED, log entry 6). -/
abbrev Mem := List Host.Cell

/-- What an unlisted byte reads as: 0, the reset value of every window byte (10_state.md R32 to R36). -/
def unlistedByte : Byte := 0

/-- The canonical form of the window bytes: offsets strictly rising, no byte that an unlisted offset reads as. -/
abbrev Mem.wf (m : Mem) : Prop :=
  m.Pairwise (fun c c' => c.1 < c'.1) ∧ ∀ c ∈ m, c.2 ≠ unlistedByte

/-- The state elements of 10_state.md section 7. STATUS is not stored: its BUSY and FAULT bits are the
sequencer's (R24) and only DONE and ERRCODE are kept. ID and CONFIG are constants (R37, R38). -/
structure Device where
  /-- STATE (R22), internal, reset IDLE -/
  seq : Seq
  /-- PENDING (R23), internal, reset 0 -/
  pending : Word
  /-- STATUS.DONE (R25), reset 0 -/
  done : Bool
  /-- STATUS.ERRCODE (R26), reset 0 -/
  errcode : BitVec 4
  /-- ROUNDS (R27), reset 0 -/
  rounds : Word
  /-- BLOCK_SIZE (R28), reset 0 -/
  blockSize : Word
  /-- CHUNK_LEN (R29), reset 0 -/
  chunkLen : Word
  /-- KEY_LEN (R30), reset 0 -/
  keyLen : Word
  /-- COUNTER (R31), reset 0 -/
  counter : Word64
  /-- the windows KEY_RAW, NONCE, FBUF, KS and DATA (R32 to R36), reset zeros -/
  mem : Mem
deriving DecidableEq, Repr

/-- Every state element at its reset value (70_reset_and_hazards.md R231). -/
def Device.reset : Device :=
  { seq := .idle
    pending := 0
    done := false
    errcode := 0
    rounds := 0
    blockSize := 0
    chunkLen := 0
    keyLen := 0
    counter := 0
    mem := [] }

/-- One FKE and its surroundings. -/
structure State where
  /-- the state elements of the FKE (10_state.md) -/
  dev : Device
  /-- the reset input RST is asserted (70_reset_and_hazards.md R230) -/
  rst : Bool
  /-- the instance's fixed parameters, which no step changes (10_state.md R39; DESIGN CHOICE, log entry 3) -/
  cfg : Config
  /-- the model's own: how many free entropy draws have been taken (DESIGN CHOICE, log entry 2) -/
  draws : Nat
  /-- the model's own: the draws a test bench has fixed, next one first (20_memory.md R73; DESIGN CHOICE,
  log entry 2) -/
  bench : List (Bytes 120)
  /-- the model's own: what the outside world does next, first event first (DESIGN CHOICE, log entry 4) -/
  events : List Event
  /-- the model's own: the answers to the host's accesses, the latest first (DEDUCED, log entry 5) -/
  responses : List Response
  /-- the model's own: the faults raised during the run, the latest first (70_reset_and_hazards.md R241; DEDUCED,
  log entry 5) -/
  faults : List FaultCode
deriving DecidableEq, Repr

/-- The machine right after reset: the default instance, RST deasserted, every state element at its reset
value (70_reset_and_hazards.md R231), nothing drawn, nothing sent and nothing recorded. -/
def State.reset : State :=
  { dev := Device.reset
    rst := false
    cfg := Config.default
    draws := 0
    bench := []
    events := []
    responses := []
    faults := [] }

end Sys2Proof.Machine
end

