-- ==== Sys2Proof/Machine/Flags.lean ====
section
/-! DEFINITION. The STATUS register and the fault codes in it (10_state.md R24 to R26; 60_exceptions.md R200).
The FKE has no arithmetic flags (10_state.md R40). -/

namespace Sys2Proof.Machine

/-- The code of a fault in STATUS.ERRCODE (60_exceptions.md R200). -/
def FaultCode.code : FaultCode → BitVec 4
  | .badCmd => 1
  | .keyEmpty => 2
  | .blockSizeRange => 3
  | .chunkLenRange => 4
  | .counterExhausted => 5
  | .mixLength => 7

/-- STATUS.BUSY: 1 if and only if STATE = BUSY (10_state.md R24). -/
def Device.busyBit (d : Device) : Bool := d.seq == .busy

/-- STATUS.FAULT: 1 if and only if STATE = FAULT (10_state.md R24). -/
def Device.faultBit (d : Device) : Bool := d.seq == .fault

/-- STATUS as the host reads it (10_state.md R24): bits 31:12 and 7:3 read 0, 11:8 ERRCODE, 2 FAULT, 1 DONE, 0 BUSY. -/
def Device.statusWord (d : Device) : Word :=
  0#20 ++ d.errcode ++ 0#5 ++ BitVec.ofBool d.faultBit ++ BitVec.ofBool d.done ++ BitVec.ofBool d.busyBit

/-- STATE ← IDLE, DONE ← 1: a command completed without a fault (20_memory.md R68). -/
def Device.setCompleted (d : Device) : Device := { d with seq := .idle, done := true }

/-- STATE ← FAULT, ERRCODE ← code, and no other state (60_exceptions.md R201). -/
def Device.setFault (d : Device) (c : FaultCode) : Device := { d with seq := .fault, errcode := c.code }

/-- PENDING ← v, DONE ← 0, STATE ← BUSY: a command word is accepted (20_memory.md R67). -/
def Device.setAccepted (d : Device) (v : Word) : Device :=
  { d with seq := .busy, pending := v, done := false }

end Sys2Proof.Machine
end

