-- ==== Sys2Proof/Machine/Ops.lean ====
section
/-! DEFINITION. The named operations that every meaning is written over: window bytes, the windows' places in
the register block (20_memory.md R61), fault entry (60_exceptions.md R201) and the reset that alone leaves a
fault (R202), completion (20_memory.md R68), and the entropy draw (41_counter_engine.md R160). -/

namespace Sys2Proof.Machine

/-! ### Window bytes -/

/-- The byte at offset `x`. -/
def Mem.read : Mem → Nat → Byte
  | [], _ => unlistedByte
  | (a, b) :: m, x => if a = x then b else Mem.read m x

/-- The entries for the bytes of a list at `x`, `x + 1`, ...: none for a byte that is what an unlisted offset reads as. -/
def Mem.cells : Nat → List Byte → Mem
  | _, [] => []
  | x, b :: bs => if b = unlistedByte then Mem.cells (x + 1) bs else (x, b) :: Mem.cells (x + 1) bs

/-- `W[j] <- v` (00_scope.md R11) for the bytes of a list, at `x`, `x + 1`, ...: the entries below stay, then come
the bytes written, then the entries above; the canonical form stays. -/
def Mem.writeAll (m : Mem) (x : Nat) (bs : List Byte) : Mem :=
  m.filter (fun c => decide (c.1 < x)) ++ Mem.cells x bs ++ m.filter (fun c => decide (x + bs.length ≤ c.1))

/-- The `n` bytes at `x`, `x + 1`, ..., `x + n - 1`. -/
def Mem.readAll (m : Mem) (x n : Nat) : Bytes n := Bytes.build n fun j => m.read (x + j)

/-! ### Windows (10_state.md R32 to R36, 20_memory.md R61) -/

/-- The five byte windows. -/
inductive Window where
  | keyRaw | nonce | fbuf | ks | data
deriving DecidableEq, Repr

/-- The offset of byte 0 of a window (20_memory.md R61). -/
def Window.base : Window → Nat
  | .keyRaw => 0x040
  | .nonce => 0x080
  | .fbuf => 0x100
  | .ks => 0x180
  | .data => 0x400

/-- The number of bytes of a window (10_state.md R32 to R36). -/
def Window.size (cfg : Config) : Window → Nat
  | .keyRaw => 64
  | .nonce => 120
  | .fbuf => 128
  | .ks => 128
  | .data => cfg.blockSizeMax

/-- The number of 32-bit words the register block gives a window (20_memory.md R61: DATA has
ceil(BLOCK_SIZE_MAX/4) of them). -/
def Window.words (cfg : Config) (w : Window) : Nat := (w.size cfg + 3) / 4

/-- Byte `j` of a window sits at offset `base + j` (20_memory.md R61). -/
def Device.windowByte (d : Device) (w : Window) (j : Nat) : Byte := d.mem.read (w.base + j)

/-- The first `n` bytes of a window, in window order (30_encoding.md R94). -/
def Device.window (d : Device) (w : Window) (n : Nat) : Bytes n := d.mem.readAll w.base n

/-- Stores a byte string into a window from its byte 0 on. -/
def Device.storeWindow {n : Nat} (d : Device) (w : Window) (b : Bytes n) : Device :=
  { d with mem := d.mem.writeAll w.base b.toList }

/-! ### Fault entry, and the one way out of a fault -/

/-- FAULT_ENTRY(code) (60_exceptions.md R201): STATE ← FAULT, ERRCODE ← code, every register and window as
before. The fault is noted in the run's record (70_reset_and_hazards.md R241). -/
def State.faultEntry (s : State) (c : FaultCode) : State :=
  { s with dev := s.dev.setFault c, faults := c :: s.faults }

/-- Reset, by RST or SOFT_RESET (70_reset_and_hazards.md R231): every state element to its reset value. The
configuration is not state and stays, and so do the reset input and the outside world's record. -/
def State.resetDevice (s : State) : State := { s with dev := Device.reset }

/-! ### Completion of a command -/

/-- The end of an ENGINE step that raised no fault: STATE ← IDLE, DONE ← 1 (20_memory.md R68). -/
def State.complete (s : State) : State := { s with dev := s.dev.setCompleted }

/-- The ENGINE step around a command's rule (20_memory.md R68): where the rule raises Fault(code), fault entry from
the state before the rule, so that nothing of the rule is kept (60_exceptions.md R201); else completion. -/
def State.finish (s : State) : Except FaultCode State → Host.Outcome State Fault Refusal
  | .ok t => .next t.complete
  | .error c => .next (s.faultEntry c)

/-- A command word is accepted: PENDING ← v, DONE ← 0, STATE ← BUSY (20_memory.md R67). -/
def State.accept (s : State) (v : Word) : State := { s with dev := s.dev.setAccepted v }

/-! ### The entropy draw -/

/-- The 120 bytes of the next draw (41_counter_engine.md R160): the test bench's, where it has fixed one
(20_memory.md R73), else a free value. -/
def State.drawBytes (s : State) : Bytes 120 :=
  match s.bench with
  | d :: _ => d
  | [] => Config.entropy s.draws

/-- The state after the next draw has been taken, so that the draw after it is another one. -/
def State.drawTaken (s : State) : State :=
  match s.bench with
  | _ :: ds => { s with bench := ds }
  | [] => { s with draws := s.draws + 1 }

/-! ### The record of the host's accesses -/

/-- Notes the answer to a host access (20_memory.md R73). -/
def State.respond (s : State) (r : Response) : State := { s with responses := r :: s.responses }

end Sys2Proof.Machine
end

