-- ==== Sys2Proof/Machine/Operands.lean ====
section
/-! DEFINITION. The operands of the commands, read from the registers when the ENGINE step performs them
(30_encoding.md R94): ROUNDS, the key (40_feistel.md R110, R111), the nonce‖counter block
(41_counter_engine.md R150) and the padded chunk (R153). -/

namespace Sys2Proof.Machine

/-- `as_i32(w)`: a 32-bit word read in two's complement (00_scope.md R10; UNVERIFIED against the source, log entry 11). -/
def asI32 (w : Word) : Int := w.toInt

/-- The round count of a command: ROUNDS read as an i32 (30_encoding.md R94). -/
def Device.roundCount (d : Device) : Int := asI32 d.rounds

/-- `EXPAND_KEY(raw, L)` (40_feistel.md R110): `K64[j] = raw[j mod L]`, for a raw key of `L ≥ 1` bytes. -/
def expandKey (raw : List Byte) (len : Nat) : Bytes 64 := Bytes.build 64 fun j => raw.getD (j % len) 0

/-- `Leff = min(KEY_LEN, 64)` (10_state.md R30). -/
def Device.effectiveKeyLen (d : Device) : Nat := min d.keyLen.toNat 64

/-- `EXPAND_KEY(KEY_RAW[0..Leff), Leff)` (40_feistel.md R111). -/
def Device.expandedKey (d : Device) : Bytes 64 :=
  expandKey (d.window .keyRaw d.effectiveKeyLen).toList d.effectiveKeyLen

/-- KEY_OPERAND (40_feistel.md R111): Fault(KEY_EMPTY) where KEY_LEN = 0, else the expanded key. -/
def Device.keyOperand (d : Device) : Except FaultCode (Bytes 64) :=
  if d.keyLen = 0 then .error .keyEmpty else .ok d.expandedKey

/-- `LE64(c)`, byte `m`: `(c >> 8m) mod 256` (00_scope.md R10; UNVERIFIED against the source, log entry 11). -/
def le64Byte (c : Word64) (m : Nat) : Byte := BitVec.ofNat 8 (c.toNat >>> (8 * m))

/-- `NCB(N, c) = N ‖ LE64(c)` (41_counter_engine.md R150). -/
def nonceCounterBlock (n : Bytes 120) (c : Word64) : Bytes 128 :=
  Bytes.build 128 fun j => if j < 120 then n.byte j else le64Byte c (j - 120)

/-- `PAD(D, cl, bs)` (41_counter_engine.md R153), with the DATA window as `D`: bytes past CHUNK_LEN are taken
as 0 whatever they hold. -/
def padChunk {n : Nat} (d : Bytes n) (cl bs : Nat) : Bytes bs :=
  Bytes.build bs fun j => if j < cl then d.byte j else 0

/-- COUNTER_LO = COUNTER[31:0] (10_state.md R31). -/
def Device.counterLo (d : Device) : Word := d.counter.extractLsb' 0 32

/-- COUNTER_HI = COUNTER[63:32] (10_state.md R31). -/
def Device.counterHi (d : Device) : Word := d.counter.extractLsb' 32 32

/-- The 64-bit value `hi << 32 | lo` (30_encoding.md R94). -/
def counterOf (hi lo : Word) : Word64 := hi ++ lo

end Sys2Proof.Machine
end

