-- ==== Sys2Proof/Machine/Control.lean ====
section
/-! DEFINITION. The control commands NOP and SOFT_RESET (42_control.md). -/

namespace Sys2Proof.Machine

/-- NOP: no state change but the ENGINE step's own completion (42_control.md R190). -/
def execNop (s : State) : Host.Outcome State Fault Refusal := s.finish (.ok s)

/-- SOFT_RESET: every state element to its reset value, DONE included (42_control.md R191). The CMD write
performs it at once (20_memory.md R67), so no completion flag is set. -/
def execSoftReset (s : State) : Host.Outcome State Fault Refusal := .next s.resetDevice

end Sys2Proof.Machine
end

