-- ==== Sys2Proof/Machine/Feistel.lean ====
section
/-! DEFINITION. The Feistel keystream primitive and the FEISTEL command (40_feistel.md). The hash is an argument
of the pure functions, so that a statement about them can speak of every H256 (R116); the machine gives them
`Config.h256`. -/

namespace Sys2Proof.Machine

/-- `RK(K64, i)[b] = (K64[b] + (i mod 256)) mod 256` (40_feistel.md R112). -/
def roundKey (k64 : Bytes 64) (i : Nat) : Bytes 64 :=
  Bytes.build 64 fun b => k64.byte b + BitVec.ofNat 8 (i % 256)

/-- `HD(n)`: the ASCII code of a lowercase hexadecimal digit, for `n < 16` (40_feistel.md R113; UNVERIFIED
against the source, log entry 11). -/
def hexDigit (n : Byte) : Byte := if n < 10 then 0x30 + n else 0x61 + (n - 10)

/-- `HEX(d)`: `out[2m] = HD(d[m] >> 4)`, `out[2m+1] = HD(d[m] mod 16)` (40_feistel.md R113). -/
def hexText (d : Bytes 32) : Bytes 64 :=
  Bytes.build 64 fun j =>
    if j % 2 = 0 then hexDigit (d.byte (j / 2) >>> 4) else hexDigit (d.byte (j / 2) &&& 15)

/-- `MIX(v, k) = HEX(H256(v xor k))` (40_feistel.md R114). -/
def mix (h : Bytes 64 → Bytes 32) (v k : Bytes 64) : Bytes 64 := hexText (h (v.xor k))

/-- The left half, `X[0..64)` (40_feistel.md R117). -/
def leftHalf (x : Bytes 128) : Bytes 64 := Bytes.build 64 fun j => x.byte j

/-- The right half, `X[64..128)` (40_feistel.md R117). -/
def rightHalf (x : Bytes 128) : Bytes 64 := Bytes.build 64 fun j => x.byte (64 + j)

/-- `A ‖ B` for two halves (00_scope.md R9). -/
def joinHalves (a b : Bytes 64) : Bytes 128 :=
  Bytes.build 128 fun j => if j < 64 then a.byte j else b.byte (j - 64)

/-- One round (40_feistel.md R117): `f = MIX(R, RK(K64, i))`, `L = L xor f`, then the swap. -/
def feistelRound (h : Bytes 64 → Bytes 32) (k64 : Bytes 64) (i : Nat) (lr : Bytes 64 × Bytes 64) :
    Bytes 64 × Bytes 64 :=
  (lr.2, lr.1.xor (mix h lr.2 (roundKey k64 i)))

/-- `n` rounds from round index `i` on (40_feistel.md R117). -/
def feistelRounds (h : Bytes 64 → Bytes 32) (k64 : Bytes 64) :
    Nat → Nat → Bytes 64 × Bytes 64 → Bytes 64 × Bytes 64
  | 0, _, lr => lr
  | n + 1, i, lr => feistelRounds h k64 n (i + 1) (feistelRound h k64 i lr)

/-- `OUT(L, R)` (40_feistel.md R118). -/
def assembleOutput (o : OutputOrder) (lr : Bytes 64 × Bytes 64) : Bytes 128 :=
  match o with
  | .lr => joinHalves lr.1 lr.2
  | .rl => joinHalves lr.2 lr.1

/-- `FEISTEL_CORE(X, K64, r)` (40_feistel.md R117): the rounds `i = 0 .. r-1`, none where `r ≤ 0` (R119). -/
def feistelCore (h : Bytes 64 → Bytes 32) (o : OutputOrder) (x : Bytes 128) (k64 : Bytes 64) (r : Int) :
    Bytes 128 :=
  assembleOutput o (feistelRounds h k64 r.toNat 0 (leftHalf x, rightHalf x))

/-- The primitive applied to FBUF under a key, with the round count of ROUNDS (40_feistel.md R124). -/
def State.feistelOfFbuf (s : State) (k64 : Bytes 64) : Bytes 128 :=
  feistelCore Config.h256 s.cfg.outputOrder (s.dev.window .fbuf 128) k64 s.dev.roundCount

/-- The rule of FEISTEL (40_feistel.md R124). -/
def feistelRule (s : State) : Except FaultCode State :=
  match s.dev.keyOperand with
  | .error c => .error c
  | .ok k64 => .ok { s with dev := s.dev.storeWindow .ks (s.feistelOfFbuf k64) }

/-- FEISTEL: KS ← FEISTEL_CORE(FBUF, key, ROUNDS) (40_feistel.md R124). -/
def execFeistel (s : State) : Host.Outcome State Fault Refusal := s.finish (feistelRule s)

end Sys2Proof.Machine
end

