-- ==== Sys2Proof/Machine/CounterEngine.lean ====
section
/-! DEFINITION. The counter-mode XOR engine: one block of counter mode and the commands NONCE_GEN, KS_GEN and
CTR_XOR (41_counter_engine.md R150 to R163). -/

namespace Sys2Proof.Machine

/-- `KSB(N, c, K64, r) = FEISTEL_CORE(NCB(N, c), K64, r)` (41_counter_engine.md R151). -/
def keystreamBlock (h : Bytes 64 → Bytes 32) (o : OutputOrder) (n : Bytes 120) (c : Word64) (k64 : Bytes 64)
    (r : Int) : Bytes 128 :=
  feistelCore h o (nonceCounterBlock n c) k64 r

/-- `EXPAND_KS(ks, n)[j] = ks[j mod 128]` (41_counter_engine.md R152). -/
def expandKeystream (ks : Bytes 128) (n : Nat) : Bytes n := Bytes.build n fun j => ks.byte (j % 128)

/-- The output block `PAD(D, cl, bs) xor EXPAND_KS(ks, bs)` (41_counter_engine.md R154). -/
def outputBlock {n : Nat} (d : Bytes n) (cl bs : Nat) (ks : Bytes 128) : Bytes bs :=
  (padChunk d cl bs).xor (expandKeystream ks bs)

/-- The keystream block of the current NONCE, COUNTER and ROUNDS under a key (41_counter_engine.md R151, R161). -/
def State.currentKeystream (s : State) (k64 : Bytes 64) : Bytes 128 :=
  keystreamBlock Config.h256 s.cfg.outputOrder (s.dev.window .nonce 120) s.dev.counter k64 s.dev.roundCount

/-- The rule of NONCE_GEN (41_counter_engine.md R160): NONCE ← a draw, COUNTER ← 0. It checks no register. -/
def nonceGenRule (s : State) : Except FaultCode State :=
  .ok { s.drawTaken with dev := { s.dev.storeWindow .nonce s.drawBytes with counter := 0 } }

/-- NONCE_GEN: draw a fresh nonce and start a new message (41_counter_engine.md R160). -/
def execNonceGen (s : State) : Host.Outcome State Fault Refusal := s.finish (nonceGenRule s)

/-- The rule of KS_GEN (41_counter_engine.md R161). COUNTER stays, and any COUNTER will do. -/
def ksGenRule (s : State) : Except FaultCode State :=
  match s.dev.keyOperand with
  | .error c => .error c
  | .ok k64 => .ok { s with dev := s.dev.storeWindow .ks (s.currentKeystream k64) }

/-- KS_GEN: KS ← KSB(NONCE, COUNTER, key, ROUNDS) (41_counter_engine.md R161). -/
def execKsGen (s : State) : Host.Outcome State Fault Refusal := s.finish (ksGenRule s)

/-- The checks of CTR_XOR in the order in which R162 writes them, which is the order of R203; it gives the
expanded key. -/
def ctrXorChecks (s : State) : Except FaultCode (Bytes 64) :=
  match s.dev.keyOperand with
  | .error c => .error c
  | .ok k64 =>
    if s.dev.blockSize = 0 ∨ s.cfg.blockSizeMax < s.dev.blockSize.toNat then .error .blockSizeRange
    else if s.dev.chunkLen = 0 ∨ s.dev.blockSize.toNat < s.dev.chunkLen.toNat then .error .chunkLenRange
    else if s.dev.counter.toNat = 2 ^ 64 - 1 then .error .counterExhausted
    else .ok k64

/-- The output block of CTR_XOR for the current operands under a key (41_counter_engine.md R154, R162). -/
def State.currentOutput (s : State) (k64 : Bytes 64) : Bytes s.dev.blockSize.toNat :=
  outputBlock (s.dev.window .data s.dev.blockSize.toNat) s.dev.chunkLen.toNat s.dev.blockSize.toNat
    (s.currentKeystream k64)

/-- The rule of CTR_XOR (41_counter_engine.md R162): DATA[0..bs) ← the output block, KS ← the keystream block,
COUNTER ← c + 1. -/
def ctrXorRule (s : State) : Except FaultCode State :=
  match ctrXorChecks s with
  | .error c => .error c
  | .ok k64 =>
    .ok { s with dev := { (s.dev.storeWindow .data (s.currentOutput k64)).storeWindow .ks (s.currentKeystream k64) with
      counter := s.dev.counter + 1 } }

/-- CTR_XOR: one block of counter mode, then advance the counter (41_counter_engine.md R162). -/
def execCtrXor (s : State) : Host.Outcome State Fault Refusal := s.finish (ctrXorRule s)

end Sys2Proof.Machine
end

