-- ==== Sys2Proof/Machine/Dispatch.lean ====
section
/-! DEFINITION. Which meaning each command has. WHEN a command is performed (the ENGINE step for the first five,
the CMD write for SOFT_RESET) is said in Engine.lean and HostPort.lean. -/

namespace Sys2Proof.Machine

def exec (i : Instr) (s : State) : Host.Outcome State Fault Refusal :=
  match i with
  | .nop => Sys2Proof.Machine.execNop s
  | .nonceGen => Sys2Proof.Machine.execNonceGen s
  | .feistel => Sys2Proof.Machine.execFeistel s
  | .ksGen => Sys2Proof.Machine.execKsGen s
  | .ctrXor => Sys2Proof.Machine.execCtrXor s
  | .softReset => Sys2Proof.Machine.execSoftReset s

end Sys2Proof.Machine
end

