-- ==== Sys2Proof/Machine/Engine.lean ====
section
/-! DEFINITION. The ENGINE agent's step (20_memory.md R68; 30_encoding.md R91). -/

namespace Sys2Proof.Machine

/-- The ENGINE step is enabled while STATE = BUSY (20_memory.md R68) and RST is not asserted
(70_reset_and_hazards.md R230), and only then. -/
def State.engineEnabled (s : State) : Bool := s.dev.seq == .busy && !s.rst

/-- The command the ENGINE step finds in PENDING (30_encoding.md R91). The word of SOFT_RESET is none of its
five cases: it never reaches the ENGINE step, and R91's "other" takes it (DEDUCED, log entry 8). -/
def engineCommand (w : Word) : Option Instr :=
  match decode w with
  | .ok .softReset => none
  | .ok i => some i
  | .error _ => none

/-- ENGINE_STEP (20_memory.md R68): performs the command in PENDING as one atomic transition; a reserved word
raises Fault(BAD_CMD) (30_encoding.md R91, R92). -/
def engineStep (s : State) : Host.Outcome State Fault Refusal :=
  match engineCommand s.dev.pending with
  | some i => exec i s
  | none => .next (s.faultEntry .badCmd)

/-- A turn of the ENGINE: its step where it is enabled, and nothing where it is not. -/
def engineTurn (s : State) : Host.Outcome State Fault Refusal :=
  if s.engineEnabled then engineStep s else .next s

end Sys2Proof.Machine
end

