-- ==== Sys2Proof/Machine/HostPort.lean ====
section
/-! DEFINITION. The register block: its address map, the accesses it refuses, and what reads and writes do
(20_memory.md), and the reset input (70_reset_and_hazards.md R230). -/

namespace Sys2Proof.Machine

/-- The ten 32-bit registers of the address map (20_memory.md R61). -/
inductive Reg where
  | id | config | cmd | status | rounds | blockSize | chunkLen | keyLen | counterLo | counterHi
deriving DecidableEq, Repr

/-- The registers of the address map, in its order. -/
def Reg.all : List Reg :=
  [.id, .config, .cmd, .status, .rounds, .blockSize, .chunkLen, .keyLen, .counterLo, .counterHi]

/-- The offset of a register (20_memory.md R61). -/
def Reg.offset : Reg → Nat
  | .id => 0x000
  | .config => 0x004
  | .cmd => 0x008
  | .status => 0x00C
  | .rounds => 0x010
  | .blockSize => 0x014
  | .chunkLen => 0x018
  | .keyLen => 0x01C
  | .counterLo => 0x020
  | .counterHi => 0x024

/-- The windows of the address map, in its order. -/
def Window.all : List Window := [.keyRaw, .nonce, .fbuf, .ks, .data]

/-- What stands at an aligned offset. -/
inductive Target where
  /-- a 32-bit register -/
  | reg (r : Reg)
  /-- word `k` of a window: its bytes 4k..4k+3 -/
  | windowWord (w : Window) (k : Nat)
  /-- a reserved offset (20_memory.md R63 case 2) -/
  | reserved
deriving DecidableEq, Repr

/-- Offset `off` is one of the four bytes of register `r`. -/
def Reg.covers (r : Reg) (off : Nat) : Bool := decide (r.offset ≤ off ∧ off < r.offset + 4)

/-- Offset `off` lies in a word of window `w`. -/
def Window.covers (cfg : Config) (w : Window) (off : Nat) : Bool :=
  decide (w.base ≤ off ∧ off < w.base + 4 * w.words cfg)

/-- The address map of the register block (20_memory.md R61): the register that stands at the offset, else the word
of the window that lies there, else a reserved offset. -/
def target (cfg : Config) (off : Nat) : Target :=
  match Reg.all.find? fun r => r.covers off with
  | some r => .reg r
  | none =>
    match Window.all.find? fun w => w.covers cfg off with
    | some w => .windowWord w ((off - w.base) / 4)
    | none => .reserved

/-- What an access is aimed at. -/
def accessTarget (cfg : Config) (a : Access) : Target := target cfg a.offset.toNat

/-- The read-only elements: ID, CONFIG, STATUS and KS (20_memory.md R63 case 3). -/
def Target.readOnly : Target → Bool
  | .reg .id => true
  | .reg .config => true
  | .reg .status => true
  | .windowWord .ks _ => true
  | _ => false

/-- The reads that are admitted while BUSY: ID, CONFIG and STATUS (20_memory.md R65). -/
def Target.readableWhileBusy : Target → Bool
  | .reg .id => true
  | .reg .config => true
  | .reg .status => true
  | _ => false

/-- An access that writes. -/
def isWrite (a : Access) : Bool :=
  match a.kind with
  | .read => false
  | .write _ => true

/-- The five cases of a bus error, "and in no other" (20_memory.md R63). -/
def State.refusesAccess (s : State) (a : Access) : Bool :=
  !a.wellFormed
    || accessTarget s.cfg a == .reserved
    || (isWrite a && (accessTarget s.cfg a).readOnly)
    || (s.dev.seq == .busy && !(!isWrite a && (accessTarget s.cfg a).readableWhileBusy))
    || s.rst

/-! ### Reads (20_memory.md R61, R64, R66) -/

/-- ID (10_state.md R37). -/
def idWord : Word := 0x31534B46

/-- CONFIG (10_state.md R38): 31:24 KEY_BYTES, 23:16 NONCE_BYTES, 15:0 BLOCK_SIZE_MAX. -/
def configWord (cfg : Config) : Word := 0x40#8 ++ 0x78#8 ++ BitVec.ofNat 16 cfg.blockSizeMax

/-- The value of a register as the host reads it; CMD is write-only and reads 0 (20_memory.md R66). -/
def State.readReg (s : State) : Reg → Word
  | .id => idWord
  | .config => configWord s.cfg
  | .cmd => 0
  | .status => s.dev.statusWord
  | .rounds => s.dev.rounds
  | .blockSize => s.dev.blockSize
  | .chunkLen => s.dev.chunkLen
  | .keyLen => s.dev.keyLen
  | .counterLo => s.dev.counterLo
  | .counterHi => s.dev.counterHi

/-- Byte `j` of a window as a word read sees it: past the end of DATA it reads 0 (10_state.md R36). -/
def State.portByte (s : State) (w : Window) (j : Nat) : Byte :=
  if j < w.size s.cfg then s.dev.windowByte w j else 0

/-- Word `k` of a window, little-endian (20_memory.md R64); KEY_RAW reads 0 (10_state.md R32). -/
def State.readWindowWord (s : State) (w : Window) (k : Nat) : Word :=
  match w with
  | .keyRaw => 0
  | _ => wordOfBytes (s.portByte w (4 * k)) (s.portByte w (4 * k + 1)) (s.portByte w (4 * k + 2))
      (s.portByte w (4 * k + 3))

/-- The value of an admitted read. -/
def State.readTarget (s : State) : Target → Word
  | .reg r => s.readReg r
  | .windowWord w k => s.readWindowWord w k
  | .reserved => 0

/-! ### Writes (20_memory.md R64, R66, R67) -/

/-- Stores a word in a window: byte `4k + i` ← `v[8i+7:8i]`, leaving out the bytes past the end of DATA, which
ignore writes (20_memory.md R64, 10_state.md R36). -/
def Device.writeWindowWord (d : Device) (cfg : Config) (w : Window) (k : Nat) (v : Word) : Device :=
  { d with mem := d.mem.writeAll (w.base + 4 * k) ((bytesOfWord v).take (w.size cfg - 4 * k)) }

/-- Notes the answer to the access that led to this outcome. -/
def respondTo (r : Response) : Host.Outcome State Fault Refusal → Host.Outcome State Fault Refusal
  | .next s => .next (s.respond r)
  | .fault f => .fault f
  | .refused why => .refused why

/-- A write of word `v` to CMD (20_memory.md R67). Acceptance does not look at the opcode. -/
def commandWrite (s : State) (v : Word) : Host.Outcome State Fault Refusal :=
  match s.dev.seq with
  | .idle =>
    if v = encode .softReset then respondTo .completed (exec .softReset s)
    else .next ((s.accept v).respond .completed)
  | .fault =>
    if v = encode .softReset then respondTo .completed (exec .softReset s)
    else .next (s.respond .completed)
  | .busy => .next (s.respond .busError)

/-- What an admitted operand write stores, "and does nothing else" (20_memory.md R66). A write to either half of
COUNTER replaces that half only (10_state.md R31). -/
def Device.writeOperand (d : Device) (cfg : Config) (v : Word) : Target → Device
  | .reg .rounds => { d with rounds := v }
  | .reg .blockSize => { d with blockSize := v }
  | .reg .chunkLen => { d with chunkLen := v }
  | .reg .keyLen => { d with keyLen := v }
  | .reg .counterLo => { d with counter := counterOf d.counterHi v }
  | .reg .counterHi => { d with counter := counterOf v d.counterLo }
  | .windowWord .ks _ => d
  | .windowWord w k => d.writeWindowWord cfg w k v
  | .reg .id => d
  | .reg .config => d
  | .reg .status => d
  | .reg .cmd => d
  | .reserved => d

/-- An admitted write. -/
def writeTarget (s : State) (t : Target) (v : Word) : Host.Outcome State Fault Refusal :=
  if t = .reg .cmd then commandWrite s v
  else .next ({ s with dev := s.dev.writeOperand s.cfg v t }.respond .completed)

/-- One host access (20_memory.md R62 to R67): a refused one is answered by a bus error and changes nothing of
the FKE (R63; DEDUCED, log entry 5); an admitted read has no side effect (R66). -/
def hostAccess (s : State) (a : Access) : Host.Outcome State Fault Refusal :=
  if s.refusesAccess a then .next (s.respond .busError)
  else
    match a.kind with
    | .read => .next (s.respond (.data (s.readTarget (accessTarget s.cfg a))))
    | .write v => writeTarget s (accessTarget s.cfg a) v

/-! ### The reset input -/

/-- RST is driven to a level (70_reset_and_hazards.md R230): asserting it abandons any pending command, and when
it is deasserted the state is as R231 gives it. Driving it low while it is low changes nothing
(DESIGN CHOICE, log entry 7). -/
def State.driveReset (s : State) (asserted : Bool) : State :=
  if asserted || s.rst then { s.resetDevice with rst := asserted } else s

end Sys2Proof.Machine
end

