-- ==== Sys2Proof/Machine/Step.lean ====
section
/-! DEFINITION. One step of the whole machine: the next event of the outside world, or, where none is left, the
ENGINE's turn, which is the weak fairness of 20_memory.md R68 (DESIGN CHOICE, log entry 4). -/

namespace Sys2Proof.Machine

/-- The state with its first event taken off. -/
def State.popEvent (s : State) : State := { s with events := s.events.tail }

/-- One step (00_scope.md R6). -/
def step (s : State) : Host.Outcome State Fault Refusal :=
  match s.events with
  | [] => engineTurn s
  | .engineTurn :: _ => engineTurn s.popEvent
  | .host a :: _ => hostAccess s.popEvent a
  | .rst level :: _ => .next (s.popEvent.driveReset level)

/-- `s` with the command word of an opcode-table row where the very next step performs it: for SOFT_RESET, a host
write of it to CMD comes next (20_memory.md R67); for every other word, it has been accepted into PENDING (R67) and
the ENGINE moves next. RST is deasserted, since nothing runs while it is asserted (70_reset_and_hazards.md R230). -/
def State.withFetchWord (s : State) (nbits w : Nat) : State :=
  if tableWord nbits w = encode .softReset then
    { s with
      dev := { s.dev with seq := if s.dev.seq = .busy then .idle else s.dev.seq }
      rst := false
      events := .host (.wr 0x008 (tableWord nbits w)) :: s.events }
  else
    { s with
      dev := { s.dev.setAccepted (tableWord nbits w) with errcode := 0 }
      rst := false
      events := match s.events with
        | [] => []
        | e :: es => .engineTurn :: e :: es }

end Sys2Proof.Machine
end

