-- ==== Sys2Proof/Machine/Containers.lean ====
section
/-! DEFINITION. The host's container layout and windowed reads, in so far as they fix which block has which
counter (41_counter_engine.md R169 to R172). Pure host software: the FKE never sees a container. -/

namespace Sys2Proof.Machine

/-- An encrypted message (00_scope.md glossary, 41_counter_engine.md R169). `rounds` keeps the 32 bits of the
i32 field. -/
structure Container where
  blockSize : Nat
  rounds : Word
  nonce : List Byte
  blocks : List (List Byte)
deriving DecidableEq, Repr

/-- What the host refuses before any FKE command (41_counter_engine.md R165, R167, R168, R172). -/
inductive HostRefusal where
  /-- a key of no bytes (R167, R168) -/
  | emptyKey
  /-- a block size outside 1..BLOCK_SIZE_MAX (R167, R168, R172) -/
  | blockSizeRange
  /-- a nonce of another size than 120 bytes (R168, R172) -/
  | nonceSize
  /-- start_block < 0 (R165, R168) -/
  | negativeStart
  /-- start_block + the number of blocks above 2^64 - 1 (R168) -/
  | counterRange
  /-- a window of more blocks than the container has (R172) -/
  | outOfRange
  /-- "not encrypted or corrupted" (R169, R172) -/
  | notEncryptedOrCorrupted
deriving DecidableEq, Repr

/-- The container as a file (41_counter_engine.md R169): three LE32 fields, the nonce, the blocks. -/
def Container.serialize (c : Container) : List Byte :=
  bytesOfWord (BitVec.ofNat 32 c.blockSize) ++ bytesOfWord (BitVec.ofNat 32 c.nonce.length) ++
    bytesOfWord c.rounds ++ c.nonce ++ c.blocks.flatten

/-- The LE32 field at byte offset `off` of a file. -/
def fileWord (file : List Byte) (off : Nat) : Word :=
  wordOfBytes (file.getD off 0) (file.getD (off + 1) 0) (file.getD (off + 2) 0) (file.getD (off + 3) 0)

/-- The header fields of a file (41_counter_engine.md R169). -/
structure Header where
  blockSize : Nat
  nonceSize : Nat
  rounds : Word
  totalBlocks : Nat
deriving DecidableEq, Repr

/-- Reads and validates the header (41_counter_engine.md R169, R172; the order of the checks is a DESIGN CHOICE, log entry
9). A file shorter than the 12 header bytes is "not encrypted or corrupted" (the same entry). -/
def parseHeader (cfg : Config) (file : List Byte) : Except HostRefusal Header :=
  let bs := asI32 (fileWord file 0)
  let ns := asI32 (fileWord file 4)
  if file.length < 12 ∨ (file.length : Int) - 12 < ns then .error .notEncryptedOrCorrupted
  else if ns ≠ 120 then .error .nonceSize
  else if bs < 1 ∨ (cfg.blockSizeMax : Int) < bs then .error .blockSizeRange
  else if (file.length - 12 - ns.toNat) % bs.toNat ≠ 0 then .error .notEncryptedOrCorrupted
  else
    .ok { blockSize := bs.toNat
          nonceSize := ns.toNat
          rounds := fileWord file 8
          totalBlocks := (file.length - 12 - ns.toNat) / bs.toNat }

/-- The byte offset of block `k`: `12 + nonce_size + k * block_size` (41_counter_engine.md R169). -/
def Header.blockOffset (h : Header) (k : Nat) : Nat := 12 + h.nonceSize + k * h.blockSize

/-- `n` blocks of a file from block `k` on, with the file's nonce and rounds. -/
def Header.blocksFrom (h : Header) (file : List Byte) (k n : Nat) : Container :=
  { blockSize := h.blockSize
    rounds := h.rounds
    nonce := (file.drop 12).take h.nonceSize
    blocks := (List.range n).map fun j => (file.drop (h.blockOffset (k + j))).take h.blockSize }

/-- The whole file, `start_block = 0` (41_counter_engine.md R168, R169). -/
def parseContainer (cfg : Config) (file : List Byte) : Except HostRefusal Container :=
  match parseHeader cfg file with
  | .error e => .error e
  | .ok h => .ok (h.blocksFrom file 0 h.totalBlocks)

/-- A head window of `n` blocks and its start_block, 0 (41_counter_engine.md R170, R172). -/
def headWindow (cfg : Config) (file : List Byte) (n : Nat) : Except HostRefusal (Container × Nat) :=
  match parseHeader cfg file with
  | .error e => .error e
  | .ok h => if h.totalBlocks < n then .error .outOfRange else .ok (h.blocksFrom file 0 n, 0)

/-- A tail window of `n` blocks and its start_block, `total_blocks - n` (41_counter_engine.md R171, R172). -/
def tailWindow (cfg : Config) (file : List Byte) (n : Nat) : Except HostRefusal (Container × Nat) :=
  match parseHeader cfg file with
  | .error e => .error e
  | .ok h =>
    if h.totalBlocks < n then .error .outOfRange
    else .ok (h.blocksFrom file (h.totalBlocks - n) n, h.totalBlocks - n)

end Sys2Proof.Machine
end

