-- ==== Sys2Proof/Machine/HostProcedures.lean ====
section
/-! DEFINITION. The host's transcripts (30_encoding.md R95, R96) and its two procedures ENCRYPT and DECRYPT
(41_counter_engine.md R167, R168), as sequences of steps of the machine. They are obligations on the host and no
state of the FKE. The schedule of the ENGINE is an argument: for each wait of a procedure, how many of its STATUS reads
come before the ENGINE's turn (20_memory.md R68: any finite number, including none; log entry 10). -/

namespace Sys2Proof.Machine

/-! ### Transcript operations (30_encoding.md R95, R96) -/

/-- The state after one more event has come next. `step` answers a next state for every event, so the other two
arms are never taken. -/
def State.perform (s : State) (e : Event) : State :=
  match step { s with events := e :: s.events } with
  | .next t => t
  | .fault _ => s
  | .refused _ => s

/-- `wr OFF, VAL` (R95). The spec gives an offset of 0x1000 or more no meaning; here it stands for its low 12 bits (DESIGN
CHOICE, log entry 13). -/
def State.wr (s : State) (off : Nat) (v : Word) : State := s.perform (.host (.wr (BitVec.ofNat 12 off) v))

/-- `rd OFF` (R95). An offset of 0x1000 or more stands for its low 12 bits, as for `wr` (DESIGN CHOICE, log entry 13). -/
def State.rd (s : State) (off : Nat) : State := s.perform (.host (.rd (BitVec.ofNat 12 off)))

/-- The value of the latest read. A read that was refused (RST asserted, BUSY, a reserved offset) gave none, and the spec does
not say what a transcript does then: it goes on as if the value were 0 (DESIGN CHOICE, log entry 17). -/
def State.lastRead (s : State) : Word :=
  match s.responses with
  | .data v :: _ => v
  | _ => 0

/-- `cmd M` (R96): the write of a command's word to CMD. -/
def State.cmd (s : State) (i : Instr) : State := s.wr 0x008 (encode i)

/-- `wait` (R96): STATUS is read until its bit 0 is 0. `n` is the number of reads that come before the ENGINE's turn,
none among the values (20_memory.md R68: "any finite number of admitted STATUS reads between them, including none"): from
BUSY exactly `n` reads see BUSY, and the read after the turn does not. From IDLE or FAULT the first read ends the wait, and
so does a refused one, with RST asserted (DESIGN CHOICE, log entry 17). -/
def State.wait : Nat → State → State
  | 0, s => (s.perform .engineTurn).rd 0x00C
  | n + 1, s => if (s.rd 0x00C).lastRead.getLsbD 0 then State.wait n (s.rd 0x00C) else s.rd 0x00C

/-- `wrbytes BASE, HEX` (R96): the bytes, right-padded with 00 to a multiple of 4, as consecutive words. One that runs past
0xFFF goes on as `wr` does (DESIGN CHOICE, log entry 13). -/
def State.wrbytes (s : State) (off : Nat) : List Byte → State
  | [] => s
  | [b0] => s.wr off (wordOfBytes b0 0 0 0)
  | [b0, b1] => s.wr off (wordOfBytes b0 b1 0 0)
  | [b0, b1, b2] => s.wr off (wordOfBytes b0 b1 b2 0)
  | b0 :: b1 :: b2 :: b3 :: rest => State.wrbytes (s.wr off (wordOfBytes b0 b1 b2 b3)) (off + 4) rest

/-- `k` reads at `off`, `off + 4`, ..., and the bytes read. Reads that run past 0xFFF go on as `rd` does (DESIGN CHOICE, log
entry 13), and a refused read gives four bytes 0 (DESIGN CHOICE, log entry 17). -/
def State.rdwords (s : State) (off : Nat) : Nat → State × List Byte
  | 0 => (s, [])
  | k + 1 =>
    let p := State.rdwords (s.rd off) (off + 4) k
    (p.1, bytesOfWord (s.rd off).lastRead ++ p.2)

/-- `rdbytes BASE, N` (R96): ceil(N/4) reads, of whose bytes the first N are the result. -/
def State.rdbytes (s : State) (off n : Nat) : State × List Byte :=
  ((s.rdwords off ((n + 3) / 4)).1, (s.rdwords off ((n + 3) / 4)).2.take n)

/-- `setctr C` (R96): COUNTER_LO, then COUNTER_HI. Of a `C` of 2^64 or more, which no COUNTER has, the low 64 bits are written
(DESIGN CHOICE, log entry 13). -/
def State.setctr (s : State) (c : Nat) : State :=
  (s.wr 0x020 (BitVec.ofNat 32 c)).wr 0x024 (BitVec.ofNat 32 (c / 2 ^ 32))

/-! ### The procedures -/

/-- The schedule of the ENGINE in one run of a procedure: `polls n` is the number of STATUS reads that come before the
ENGINE's turn in the procedure's `n`-th wait, from 0 (20_memory.md R68 leaves each of them open; log entry 10). -/
abbrev Schedule : Type := Nat → Nat

/-- How a host procedure ends. -/
inductive ProcResult (α : Type) where
  /-- refused before any command -/
  | refused (why : HostRefusal)
  /-- a command faulted: no container, no plaintext (41_counter_engine.md R167) -/
  | failed (s : State)
  /-- a result, and the state in which the procedure left the FKE -/
  | ok (a : α) (s : State)
deriving DecidableEq, Repr

/-- The key, ROUNDS and BLOCK_SIZE written as R167 says, once STATUS shows BUSY = 0. -/
def State.loadParameters (s : State) (polls : Nat) (key : List Byte) (bs : Nat) (r : Word) : State :=
  ((((State.wait polls s).wrbytes 0x040 (key.take 64)).wr 0x01C (BitVec.ofNat 32 (min key.length 64))).wr
    0x010 r).wr 0x014 (BitVec.ofNat 32 bs)

/-- `cmd CTR_XOR; wait; if STATUS.FAULT = 1 then fail`, else the output block `DATA[0..bs)` (R167, R168). Where an access is
refused, RST being asserted, it goes on with the value 0 (DESIGN CHOICE, log entry 17). -/
def State.processBlock (s : State) (polls bs : Nat) : ProcResult (List Byte) :=
  let t := State.wait polls (s.cmd .ctrXor)
  if t.lastRead.getLsbD 2 then .failed t else .ok (t.rdbytes 0x400 bs).2 (t.rdbytes 0x400 bs).1

/-- The loop of R167 over the chunks: DATA and CHUNK_LEN are written, then the block is processed, the first one with the
schedule's `i`-th wait. -/
def encryptChunks (polls : Schedule) (bs : Nat) : Nat → List (List Byte) → State → ProcResult (List (List Byte))
  | _, [], s => .ok [] s
  | i, c :: cs, s =>
    match ((s.wrbytes 0x400 c).wr 0x018 (BitVec.ofNat 32 c.length)).processBlock (polls i) bs with
    | .refused why => .refused why
    | .failed t => .failed t
    | .ok b t =>
      match encryptChunks polls bs (i + 1) cs t with
      | .refused why => .refused why
      | .failed u => .failed u
      | .ok rest u => .ok (b :: rest) u

/-- The chunks of a message: `msg[i*bs .. min((i+1)*bs, len(msg)))` for `i` in `0..ceil(len(msg)/bs)` (R167). -/
def chunksOf (bs : Nat) (msg : List Byte) : List (List Byte) :=
  (List.range ((msg.length + (bs - 1)) / bs)).map fun i => (msg.drop (i * bs)).take bs

/-- Host ENCRYPT(msg, key, bs, r) (41_counter_engine.md R167). Its waits are: before the key is written, after NONCE_GEN, and
one for each block. With RST asserted every access of it is refused and it still answers a container, of bytes 0 (DESIGN CHOICE,
log entry 17). -/
def hostEncrypt (polls : Schedule) (s : State) (msg key : List Byte) (bs : Nat) (r : Word) : ProcResult Container :=
  if key = [] then .refused .emptyKey
  else if bs = 0 ∨ s.cfg.blockSizeMax < bs then .refused .blockSizeRange
  else
    let t := State.wait (polls 1) ((s.loadParameters (polls 0) key bs r).cmd .nonceGen)
    let nonce := t.rdbytes 0x080 120
    match encryptChunks polls bs 2 (chunksOf bs msg) nonce.1 with
    | .refused why => .refused why
    | .failed u => .failed u
    | .ok blocks u => .ok { blockSize := bs, rounds := r, nonce := nonce.2, blocks := blocks } u

/-- The loop of R168 over the blocks: DATA is written, the block is processed, the first one with the schedule's `i`-th
wait, and the outputs are joined. -/
def decryptBlocks (polls : Schedule) (bs : Nat) : Nat → List (List Byte) → State → ProcResult (List Byte)
  | _, [], s => .ok [] s
  | i, b :: rest, s =>
    match (s.wrbytes 0x400 b).processBlock (polls i) bs with
    | .refused why => .refused why
    | .failed t => .failed t
    | .ok out t =>
      match decryptBlocks polls bs (i + 1) rest t with
      | .refused why => .refused why
      | .failed u => .failed u
      | .ok more u => .ok (out ++ more) u

/-- Host DECRYPT(container, key, start_block) (41_counter_engine.md R168). Its waits are: before the key is written, and one
for each block. With RST asserted every access of it is refused and it still answers bytes, all 0 (DESIGN CHOICE, log entry 17). -/
def hostDecrypt (polls : Schedule) (s : State) (c : Container) (key : List Byte) (startBlock : Int) :
    ProcResult (List Byte) :=
  if key = [] then .refused .emptyKey
  else if startBlock < 0 then .refused .negativeStart
  else if c.nonce.length ≠ 120 then .refused .nonceSize
  else if c.blockSize = 0 ∨ s.cfg.blockSizeMax < c.blockSize then .refused .blockSizeRange
  else if 2 ^ 64 - 1 < startBlock + (c.blocks.length : Int) then .refused .counterRange
  else
    decryptBlocks polls c.blockSize 1 c.blocks
      ((((s.loadParameters (polls 0) key c.blockSize c.rounds).wrbytes 0x080 c.nonce).wr 0x018
        (BitVec.ofNat 32 c.blockSize)).setctr startBlock.toNat)

end Sys2Proof.Machine
end

