-- ==== Sys2Proof/Machine/HostDuties.lean ====
section
/-! DEFINITION. The moves of a host that keeps the duties of 20_memory.md R73: one NONCE_GEN per encryption and no encryption
under a nonce the host wrote (41_counter_engine.md R173); the refusal of a negative start_block (R165) and of a container that
fails the checks of R172; and both COUNTER halves written before the command that uses them (20_memory.md R72). A move that
breaks one is not given. The host's purposes and what it keeps in mind are the host's and no state of the FKE; `step` itself
takes every event. How the three duties are read is log entry 16. -/

namespace Sys2Proof.Machine

/-! ### What a move is for -/

/-- Where the blocks that the host decrypts come from. -/
inductive ContainerSource where
  /-- a container the host holds -/
  | held (c : Container)
  /-- a file read whole (41_counter_engine.md R169) -/
  | whole (file : List Byte)
  /-- the head window of `n` blocks of a file (41_counter_engine.md R170) -/
  | head (file : List Byte) (n : Nat)
  /-- the tail window of `n` blocks of a file (41_counter_engine.md R171) -/
  | tail (file : List Byte) (n : Nat)
deriving DecidableEq, Repr

/-- What the host makes a move for. An encryption is named by a number; the same message encrypted again is another
encryption. -/
inductive Purpose where
  /-- neither of the two others -/
  | other
  /-- one encryption -/
  | encrypt (encryption : Nat)
  /-- the decryption of blocks of a container, with this start_block for the first -/
  | decrypt (source : ContainerSource) (startBlock : Int)
deriving DecidableEq, Repr

/-- One event and what it is made for. -/
structure Move where
  purpose : Purpose
  event : Event
deriving DecidableEq, Repr

/-- A check that did not refuse. -/
def accepts {α : Type} : Except HostRefusal α → Bool
  | .ok _ => true
  | .error _ => false

/-- The checks of 41_counter_engine.md R172 let these blocks through. -/
def ContainerSource.validated (cfg : Config) : ContainerSource → Bool
  | .held c => decide (c.nonce.length = 120 ∧ 1 ≤ c.blockSize ∧ c.blockSize ≤ cfg.blockSizeMax)
  | .whole file => accepts (parseContainer cfg file)
  | .head file n => accepts (headWindow cfg file n)
  | .tail file n => accepts (tailWindow cfg file n)

/-- The host does not refuse what the move is made for: start_block is not negative (41_counter_engine.md R165) and the
container passes the checks of R172. These come "before any FKE command", so they bear on every move made for it. -/
def Purpose.validated (cfg : Config) : Purpose → Bool
  | .other => true
  | .encrypt _ => true
  | .decrypt source startBlock => decide (0 ≤ startBlock) && source.validated cfg

/-! ### What a move does to the registers that the duties speak of -/

/-- The element and the word of an admitted write. -/
def State.admittedWrite (s : State) : Event → Option (Target × Word)
  | .engineTurn => none
  | .rst _ => none
  | .host a =>
    match a.kind with
    | .read => none
    | .write v => if s.refusesAccess a then none else some (accessTarget s.cfg a, v)

/-- The command that a CMD write issues: it is accepted, in IDLE, and its word is a command's (20_memory.md R67). -/
def State.issues (s : State) (e : Event) : Option Instr :=
  match s.admittedWrite e with
  | some (.reg .cmd, v) => if s.dev.seq = .idle then engineCommand v else none
  | _ => none

/-- The event resets the FKE: a CMD write of SOFT_RESET (42_control.md R191), or RST (70_reset_and_hazards.md R230). -/
def State.resetsAt (s : State) (e : Event) : Bool :=
  match e with
  | .engineTurn => false
  | .rst level => level || s.rst
  | .host _ => s.admittedWrite e == some (.reg .cmd, encode .softReset)

/-! ### What a duty-keeping host keeps in mind -/

/-- Where the value of COUNTER comes from, halves the host has written since left aside. -/
inductive CounterOrigin where
  /-- from a reset: nobody has set it since -/
  | unset
  /-- from NONCE_GEN, which sets it to 0 (41_counter_engine.md R160) -/
  | nonceGen
  /-- from the host, which wrote both halves -/
  | host
  /-- from a CTR_XOR, made for this purpose, which advanced it (41_counter_engine.md R163) -/
  | advanced (p : Purpose)
deriving DecidableEq, Repr

/-- The host's own record of what its duties depend on. -/
structure Duties where
  /-- COUNTER_LO has been written since the last reset and the last command issued that sets or uses COUNTER -/
  loWritten : Bool
  /-- COUNTER_HI has been written since then -/
  hiWritten : Bool
  /-- what set COUNTER before those writes -/
  counter : CounterOrigin
  /-- how many NONCE_GEN commands have been issued -/
  generated : Nat
  /-- which of them, from 0, NONCE comes from; none where the host wrote it or nothing has been drawn since reset -/
  nonce : Option Nat
  /-- the encryptions begun, each with its NONCE_GEN -/
  encryptions : List (Nat × Nat)
deriving DecidableEq, Repr

/-- Nothing written, nothing drawn, nothing encrypted. -/
def Duties.start : Duties :=
  { loWritten := false
    hiWritten := false
    counter := .unset
    generated := 0
    nonce := none
    encryptions := [] }

/-- COUNTER may be used for a purpose although the host has written neither half since it got this value. Nothing uses a
COUNTER that nobody set. NONCE_GEN sets it for an encryption and not for a decryption, whose host writes COUNTER itself
(41_counter_engine.md R165, R166, R168). Both halves, once written, serve any purpose, and an advanced COUNTER serves on what
it was advanced for (R164); a KS_GEN made for neither may look at either. -/
def CounterOrigin.serves (o : CounterOrigin) (p : Purpose) : Bool :=
  match o with
  | .unset => false
  | .nonceGen =>
    match p with
    | .other => true
    | .encrypt _ => true
    | .decrypt _ _ => false
  | .host => true
  | .advanced q => p == .other || p == q

/-- Both halves of COUNTER have been written before the command that uses them (20_memory.md R72, R73): since COUNTER last got a
value the host has written both, or it has written neither and that value serves the purpose. One half alone never does. -/
def Duties.counterReady (d : Duties) (p : Purpose) : Bool :=
  match d.loWritten, d.hiWritten with
  | true, true => true
  | false, false => d.counter.serves p
  | true, false => false
  | false, true => false

/-- A NONCE_GEN may be issued for a purpose: where that is an encryption, it has had none yet (41_counter_engine.md R173:
"one NONCE_GEN per encryption"). -/
def Duties.mayDraw (d : Duties) : Purpose → Bool
  | .other => true
  | .encrypt n => d.encryptions.all fun p => p.1 != n
  | .decrypt _ _ => true

/-- NONCE may be used for a purpose: where that is an encryption, NONCE holds what that encryption's NONCE_GEN drew
(41_counter_engine.md R173). -/
def Duties.nonceServes (d : Duties) : Purpose → Bool
  | .other => true
  | .encrypt n =>
    match d.nonce with
    | none => false
    | some k => d.encryptions.contains (n, k)
  | .decrypt _ _ => true

/-- The duties let the host issue a command for a purpose. A CTR_XOR processes a block of an encryption or of a decryption, so
its move says of which (log entry 16). -/
def Duties.allows (d : Duties) (p : Purpose) : Instr → Bool
  | .nonceGen => d.mayDraw p
  | .ksGen => d.counterReady p && d.nonceServes p
  | .ctrXor => d.counterReady p && d.nonceServes p && p != .other
  | .nop => true
  | .feistel => true
  | .softReset => true

/-- The encryptions begun once a NONCE_GEN is issued for a purpose. -/
def Duties.begun (d : Duties) : Purpose → List (Nat × Nat)
  | .other => d.encryptions
  | .encrypt n => (n, d.generated) :: d.encryptions
  | .decrypt _ _ => d.encryptions

/-- What the host keeps in mind after an admitted write. -/
def Duties.noteWrite (d : Duties) : Target → Duties
  | .reg .counterLo => { d with loWritten := true }
  | .reg .counterHi => { d with hiWritten := true }
  | .windowWord .nonce _ => { d with nonce := none }
  | _ => d

/-- What the host keeps in mind after it issued a command. -/
def Duties.noteCommand (d : Duties) (p : Purpose) : Instr → Duties
  | .nonceGen => { d with
      loWritten := false
      hiWritten := false
      counter := .nonceGen
      generated := d.generated + 1
      nonce := some d.generated
      encryptions := d.begun p }
  | .ksGen => { d with
      loWritten := false
      hiWritten := false
      counter := if d.loWritten && d.hiWritten then .host else d.counter }
  | .ctrXor => { d with
      loWritten := false
      hiWritten := false
      counter := .advanced p }
  | .nop => d
  | .feistel => d
  | .softReset => d

/-- What the host keeps in mind after a reset: COUNTER and NONCE are zero again (70_reset_and_hazards.md R231). -/
def Duties.noteReset (d : Duties) : Duties :=
  { d with
    loWritten := false
    hiWritten := false
    counter := .unset
    nonce := none }

/-- What the host keeps in mind after a move made in state `s`. -/
def Duties.after (d : Duties) (s : State) (m : Move) : Duties :=
  if s.resetsAt m.event then d.noteReset
  else
    match s.issues m.event with
    | some i => d.noteCommand m.purpose i
    | none =>
      match s.admittedWrite m.event with
      | some (t, _) => d.noteWrite t
      | none => d

/-! ### The moves that are given -/

/-- One FKE and the host that keeps its duties towards it. -/
structure HostRun where
  duties : Duties
  state : State
deriving DecidableEq, Repr

/-- The move keeps the three duties of 20_memory.md R73. -/
def HostRun.keepsDuties (r : HostRun) (m : Move) : Bool :=
  m.purpose.validated r.state.cfg &&
    match r.state.issues m.event with
    | none => true
    | some i => r.duties.allows m.purpose i

/-- The move of a duty-keeping host: it is the event's step, and a move that breaks a duty is not given (20_memory.md R73). -/
def HostRun.move (r : HostRun) (m : Move) : Option HostRun :=
  if r.keepsDuties m then some { duties := r.duties.after r.state m, state := r.state.perform m.event } else none

/-- Moves one after another; none where one of them is not given. -/
def HostRun.moves (r : HostRun) : List Move → Option HostRun
  | [] => some r
  | m :: ms =>
    match r.move m with
    | some r' => r'.moves ms
    | none => none

/-- A host that begins at state `s`. -/
def HostRun.start (s : State) : HostRun := { duties := Duties.start, state := s }

/-- One of the moves, made on end from here, issues NONCE_GEN: it is a CMD write of its word in IDLE with RST deasserted. -/
def HostRun.drawsDuring (r : HostRun) (ms : List Move) : Prop :=
  ∃ (before after : List Move) (x : Move) (u : HostRun), ms = before ++ x :: after ∧ r.moves before = some u ∧
    x.event = .host (.wr 0x008 (encode .nonceGen)) ∧ u.state.dev.seq = .idle ∧ u.state.rst = false

end Sys2Proof.Machine
end

