-- ==== Sys2Proof/Safety.lean ====
section
/-! DEFINITION. What the claims speak of: the invariant of the machine, the end of a run (70_reset_and_hazards.md
R241), the record a run leaves, and repeated performance of one command (41_counter_engine.md R164). -/

namespace Sys2Proof.Machine

/-- The offset lies in one of the five windows (20_memory.md R61). -/
abbrev inSomeWindow (cfg : Config) (x : Nat) : Prop :=
  ∃ w ∈ [Window.keyRaw, .nonce, .fbuf, .ks, .data], w.base ≤ x ∧ x < w.base + w.size cfg

/-- What the sequencer's state says of DONE, ERRCODE and PENDING: ERRCODE is 0 whenever STATE is not FAULT
(10_state.md R26) and one of the five codes that can be raised while it is (60_exceptions.md R200); DONE is 0 while BUSY or
FAULT (10_state.md R25); and the word of SOFT_RESET is never latched (42_control.md R191). -/
abbrev Device.sequencerInv (d : Device) : Prop :=
  (d.seq = .idle → d.errcode = 0) ∧
  (d.seq = .busy → d.errcode = 0 ∧ d.done = false ∧ d.pending ≠ encode .softReset) ∧
  (d.seq = .fault → (d.errcode = 1 ∨ d.errcode = 2 ∨ d.errcode = 3 ∨ d.errcode = 4 ∨ d.errcode = 5) ∧ d.done = false)

/-- The invariant: the windows' bytes are in canonical form and lie in the windows, the sequencer's flags agree with its
state, and while RST is asserted the state elements are at their reset values (70_reset_and_hazards.md R230). -/
abbrev State.Inv (s : State) : Prop :=
  s.dev.mem.wf ∧ (∀ c ∈ s.dev.mem, inSomeWindow s.cfg c.1) ∧ s.dev.sequencerInv ∧ (s.rst = true → s.dev = Device.reset)

/-- The end of a run: the host's program has ended, STATE ≠ BUSY and RST is deasserted (70_reset_and_hazards.md R241). -/
abbrev State.ended (s : State) : Prop := s.events = [] ∧ s.dev.seq ≠ .busy ∧ s.rst = false

/-- A clean end: STATE = IDLE (70_reset_and_hazards.md R241). -/
abbrev State.cleanEnd (s : State) : Prop := s.ended ∧ s.dev.seq = .idle

/-- A faulted end: STATE = FAULT (70_reset_and_hazards.md R241). -/
abbrev State.faultedEnd (s : State) : Prop := s.ended ∧ s.dev.seq = .fault

/-- No fault was recorded during the run, even one that a reset cleared (70_reset_and_hazards.md R241). -/
abbrev State.noFaultRecorded (s : State) : Prop := s.faults = []

/-- No access of the run was refused (70_reset_and_hazards.md R241). -/
abbrev State.noAccessRefused (s : State) : Prop := Response.busError ∉ s.responses

/-- ROUNDS, BLOCK_SIZE, CHUNK_LEN and KEY_LEN are as before (10_state.md R27 to R30). -/
abbrev Device.sameOperands (d d' : Device) : Prop :=
  d'.rounds = d.rounds ∧ d'.blockSize = d.blockSize ∧ d'.chunkLen = d.chunkLen ∧ d'.keyLen = d.keyLen

/-- A command has completed: STATE = IDLE, DONE = 1 (20_memory.md R68), with PENDING and ERRCODE as before. -/
abbrev Device.completedFrom (d d' : Device) : Prop :=
  d'.seq = .idle ∧ d'.done = true ∧ d'.pending = d.pending ∧ d'.errcode = d.errcode

/-- The reset input, the configuration, the outside world's coming events, the answers given and the faults recorded are
as before. -/
abbrev State.sameSurroundings (s t : State) : Prop :=
  t.rst = s.rst ∧ t.cfg = s.cfg ∧ t.events = s.events ∧ t.responses = s.responses ∧ t.faults = s.faults

/-- No entropy draw has been taken. -/
abbrev State.sameDraws (s t : State) : Prop := t.draws = s.draws ∧ t.bench = s.bench

/-- One command performed `k` times on end, with nothing in between (41_counter_engine.md R164). -/
def performTimes (i : Instr) : Nat → State → Host.Outcome State Fault Refusal
  | 0, s => .next s
  | k + 1, s =>
    match exec i s with
    | .next t => performTimes i k t
    | .fault f => .fault f
    | .refused why => .refused why

end Sys2Proof.Machine
end

