-- ==== Sys2Proof/Certificates/Slice0/Obligations.lean ====
section
/-! DEFINITION. The statements for the provers. Offsets are written as numerals of the address map (20_memory.md R61)
where the rule writes them so. The lists `events`, `responses` and `faults` are how the model writes down the moves of the
outside world and the record of a run (log entries 4 and 5). -/

open Sys2Proof Sys2Proof.Machine

/-! ### Encoding (30_encoding.md) -/

/-- 30_encoding.md sections 1 and 2: a word decodes to a command exactly when it is that command's word, so no bit of the
32 is dropped and every other word is refused. -/
def Obligations.DecodeAcceptsExactlyTheCommandWords : Prop :=
  ∀ (w : Word) (i : Instr), decode w = .ok i ↔ w = encode i

/-- 30_encoding.md section 2: the six words of the opcode map, written out. -/
def Obligations.SixWordsOfTheOpcodeMapDecode : Prop :=
  decode 0x00000000 = .ok .nop ∧ decode 0x00000001 = .ok .nonceGen ∧ decode 0x00000002 = .ok .feistel ∧
    decode 0x00000003 = .ok .ksGen ∧ decode 0x00000004 = .ok .ctrXor ∧ decode 0x000000FF = .ok .softReset

/-- 30_encoding.md R92: opcodes 0x05 to 0xFE and every word with RSVD ≠ 0 are reserved; such a word is no command, the CMD
write accepts it, its ENGINE step raises BAD_CMD and changes nothing else; and there is no no-op alias. The ENGINE step is
taken at an `engineTurn` event or once no event is left (log entry 4). -/
def Obligations.ReservedWordsAreAcceptedAndFaultBadCmd : Prop :=
  (∀ w : Word, rsvdField w ≠ 0 ∨ (5 ≤ (opcField w).toNat ∧ (opcField w).toNat ≤ 0xFE) →
    (∀ i, decode w ≠ .ok i) ∧
    (∀ (s : State) (es : List Event), s.events = .host (.wr 0x008 w) :: es → s.rst = false → s.dev.seq = .idle →
      step s = .next { s with
        dev := { s.dev with seq := .busy, pending := w, done := false }
        events := es
        responses := .completed :: s.responses }) ∧
    (∀ s : State, s.rst = false → s.dev.seq = .busy → s.dev.pending = w →
      (s.events = [] → step s = .next { s with
        dev := { s.dev with seq := .fault, errcode := 1 }
        faults := .badCmd :: s.faults }) ∧
      (∀ es, s.events = .engineTurn :: es → step s = .next { s with
        dev := { s.dev with seq := .fault, errcode := 1 }
        events := es
        faults := .badCmd :: s.faults }))) ∧
  (∀ w : Word, decode w = .ok .nop ↔ w = 0)

/-! ### The step (20_memory.md section 6) -/

/-- 20_memory.md section 6, 30_encoding.md section 1: where the ENGINE's step is enabled and PENDING holds a command other
than SOFT_RESET, the step of the machine is that command's meaning; `step` adds only that an `engineTurn` event is taken
off (the list of events is the model's choice, log entry 4). -/
def Obligations.StepRunsTheDecodedCommand : Prop :=
  ∀ (s : State) (i : Instr), s.dev.seq = .busy → s.rst = false → decode s.dev.pending = .ok i → i.wellFormed = true →
    i ≠ .softReset →
    (s.events = [] → step s = exec i s) ∧
    (∀ es, s.events = .engineTurn :: es → step s = exec i { s with events := es })

/-- 20_memory.md section 5, 42_control.md: a CMD write of the word that decodes to SOFT_RESET, in IDLE or FAULT, is the
meaning of SOFT_RESET; `step` adds that the event is taken off and the write is answered. -/
def Obligations.StepRunsSoftResetAtTheCmdWrite : Prop :=
  ∀ (s : State) (es : List Event) (w : Word), s.events = .host (.wr 0x008 w) :: es → decode w = .ok .softReset →
    s.dev.seq ≠ .busy → s.rst = false →
    ∃ t, exec .softReset { s with events := es } = .next t ∧
      step s = .next { t with responses := .completed :: t.responses }

/-- 20_memory.md section 6, 70_reset_and_hazards.md section 1: the ENGINE step is enabled while STATE = BUSY and RST is not
asserted, and only then; elsewhere its turn changes nothing. -/
def Obligations.EngineMovesOnlyWhileBusyAndNotInReset : Prop :=
  ∀ s : State, s.dev.seq ≠ .busy ∨ s.rst = true →
    (s.events = [] → step s = .next s) ∧
    (∀ es, s.events = .engineTurn :: es → step s = .next { s with events := es })

/-- 60_exceptions.md sections 2 and 4: nothing stops the FKE: every step answers a next state, of the same configuration
(that the configuration is carried in the state is the model's choice, log entry 3, and that nothing stops its deduction,
log entry 12). -/
def Obligations.EveryStepAnswersANextState : Prop :=
  ∀ s : State, ∃ t, step s = .next t ∧ t.cfg = s.cfg

/-- 20_memory.md section 6, 30_encoding.md section 4: a wait ends: however many STATUS reads the host makes first, each is
admitted, and the ENGINE step then leaves BUSY. That it moves once no event is left is the model's form of weak fairness
(log entry 4). -/
def Obligations.WaitEndsAfterAnyNumberOfStatusReads : Prop :=
  ∀ (n : Nat) (s : State), s.events = List.replicate n (.host (.rd 0x00C)) → s.dev.seq = .busy → s.rst = false →
    ∃ t, core.run (n + 1) s = .next t ∧ t.dev.seq ≠ .busy ∧
      t.responses = List.replicate n (.data s.dev.statusWord) ++ s.responses

/-- 70_reset_and_hazards.md section 4: at the end of a run, clean or faulted, nothing more happens (that an empty list
of events ends the host's program is the model's choice, log entry 4). -/
def Obligations.EndedRunIsQuiescent : Prop :=
  ∀ s : State, s.ended → step s = .next s

/-! ### The commands -/

/-- 42_control.md section on NOP: it completes and changes no data. -/
def Obligations.NopChangesOnlyTheHandshake : Prop :=
  ∀ s : State, ∃ t, exec .nop s = .next t ∧ s.dev.completedFrom t.dev ∧ s.dev.sameOperands t.dev ∧
    t.dev.counter = s.dev.counter ∧ (∀ x, t.dev.mem.read x = s.dev.mem.read x) ∧ s.sameSurroundings t ∧ s.sameDraws t

/-- 41_counter_engine.md section 2, NONCE_GEN: NONCE holds the drawn bytes and COUNTER is 0; it checks no register and
raises no fault. The draw is the test bench's where one is fixed, else a free value, and each draw is taken
once (how a draw is named is the model's choice, log entry 2). -/
def Obligations.NonceGenLoadsTheDrawAndClearsCounter : Prop :=
  ∀ s : State, ∃ t, exec .nonceGen s = .next t ∧ t.dev.counter = 0 ∧
    (∀ d ds, s.bench = d :: ds →
      (∀ j < 120, t.dev.windowByte .nonce j = d.byte j) ∧ t.bench = ds ∧ t.draws = s.draws) ∧
    (s.bench = [] →
      (∀ j < 120, t.dev.windowByte .nonce j = (Config.entropy s.draws).byte j) ∧ t.bench = [] ∧ t.draws = s.draws + 1) ∧
    s.dev.completedFrom t.dev ∧ s.dev.sameOperands t.dev ∧
    (∀ x, x < Window.nonce.base ∨ Window.nonce.base + 120 ≤ x → t.dev.mem.read x = s.dev.mem.read x) ∧
    s.sameSurroundings t

/-- 40_feistel.md section 3, FEISTEL: with KEY_LEN ≠ 0, KS becomes the Feistel image of FBUF under the expanded key and
ROUNDS read as an i32, and nothing else but the handshake changes. -/
def Obligations.FeistelWritesTheImageOfFbufToKs : Prop :=
  ∀ s : State, s.dev.keyLen ≠ 0 → ∃ t, exec .feistel s = .next t ∧
    (∀ j < 128, t.dev.windowByte .ks j =
      (feistelCore Config.h256 s.cfg.outputOrder (s.dev.window .fbuf 128)
        (expandKey (s.dev.window .keyRaw 64).toList (min s.dev.keyLen.toNat 64)) s.dev.rounds.toInt).byte j) ∧
    s.dev.completedFrom t.dev ∧ s.dev.sameOperands t.dev ∧ t.dev.counter = s.dev.counter ∧
    (∀ x, x < Window.ks.base ∨ Window.ks.base + 128 ≤ x → t.dev.mem.read x = s.dev.mem.read x) ∧
    s.sameSurroundings t ∧ s.sameDraws t

/-- 41_counter_engine.md section 2, KS_GEN: with KEY_LEN ≠ 0 and ANY counter, KS becomes the Feistel image of
NONCE ‖ LE64(COUNTER), COUNTER stays, and nothing else but the handshake changes. -/
def Obligations.KsGenWritesTheKeystreamBlockToKs : Prop :=
  ∀ s : State, s.dev.keyLen ≠ 0 → ∃ t, exec .ksGen s = .next t ∧
    (∀ j < 128, t.dev.windowByte .ks j =
      (feistelCore Config.h256 s.cfg.outputOrder (nonceCounterBlock (s.dev.window .nonce 120) s.dev.counter)
        (expandKey (s.dev.window .keyRaw 64).toList (min s.dev.keyLen.toNat 64)) s.dev.rounds.toInt).byte j) ∧
    s.dev.completedFrom t.dev ∧ s.dev.sameOperands t.dev ∧ t.dev.counter = s.dev.counter ∧
    (∀ x, x < Window.ks.base ∨ Window.ks.base + 128 ≤ x → t.dev.mem.read x = s.dev.mem.read x) ∧
    s.sameSurroundings t ∧ s.sameDraws t

/-- 41_counter_engine.md section 2, CTR_XOR: when its four checks pass, DATA[0..BLOCK_SIZE) becomes the padded chunk XOR
the expanded keystream, KS the keystream block, COUNTER the next counter, and nothing else but the handshake changes. -/
def Obligations.CtrXorProcessesOneBlock : Prop :=
  ∀ s : State, s.dev.keyLen ≠ 0 → s.dev.blockSize ≠ 0 → s.dev.blockSize.toNat ≤ s.cfg.blockSizeMax →
    s.dev.chunkLen ≠ 0 → s.dev.chunkLen.toNat ≤ s.dev.blockSize.toNat → s.dev.counter.toNat < 2 ^ 64 - 1 →
    ∃ (t : State) (ks : Bytes 128), exec .ctrXor s = .next t ∧
      ks = feistelCore Config.h256 s.cfg.outputOrder (nonceCounterBlock (s.dev.window .nonce 120) s.dev.counter)
        (expandKey (s.dev.window .keyRaw 64).toList (min s.dev.keyLen.toNat 64)) s.dev.rounds.toInt ∧
      (∀ j < s.dev.blockSize.toNat, t.dev.windowByte .data j =
        (if j < s.dev.chunkLen.toNat then s.dev.windowByte .data j else 0) ^^^ ks.byte (j % 128)) ∧
      (∀ j < 128, t.dev.windowByte .ks j = ks.byte j) ∧
      t.dev.counter.toNat = s.dev.counter.toNat + 1 ∧
      s.dev.completedFrom t.dev ∧ s.dev.sameOperands t.dev ∧
      (∀ x, (x < Window.ks.base ∨ Window.ks.base + 128 ≤ x) →
        (x < Window.data.base ∨ Window.data.base + s.dev.blockSize.toNat ≤ x) → t.dev.mem.read x = s.dev.mem.read x) ∧
      s.sameSurroundings t ∧ s.sameDraws t

/-- 70_reset_and_hazards.md R231: SOFT_RESET, and RST when it is asserted and deasserted, set every state element to its
reset value; ID and CONFIG are as before and so is the configuration. -/
def Obligations.ResetSetsEveryStateElement : Prop :=
  (∀ s : State, ∃ t, exec .softReset s = .next t ∧ t.dev = Device.reset ∧ s.sameSurroundings t ∧ s.sameDraws t) ∧
  (∀ (s : State) (es : List Event), s.events = .rst true :: .rst false :: es →
    ∃ t, core.run 2 s = .next t ∧ t.dev = Device.reset ∧ t.rst = false ∧ t.cfg = s.cfg) ∧
  Device.reset.seq = .idle ∧ Device.reset.statusWord = 0 ∧ Device.reset.done = false ∧ Device.reset.errcode = 0 ∧
  Device.reset.pending = 0 ∧ Device.reset.rounds = 0 ∧ Device.reset.blockSize = 0 ∧ Device.reset.chunkLen = 0 ∧
  Device.reset.keyLen = 0 ∧ Device.reset.counter = 0 ∧
  (∀ (w : Window) (j : Nat), Device.reset.windowByte w j = 0) ∧
  (∀ s t : State, t.cfg = s.cfg → t.readReg .id = s.readReg .id ∧ t.readReg .config = s.readReg .config)

/-! ### Faults (60_exceptions.md) -/

/-- 60_exceptions.md R201: when the ENGINE step ends in FAULT, it changed STATE and ERRCODE and nothing else: every
register and window is as it was (KS, DATA, COUNTER and NONCE among them), and DONE stays as acceptance left it. The ENGINE
step is taken at an `engineTurn` event or once no event is left (log entry 4). -/
def Obligations.FaultEntryIsAllOrNothing : Prop :=
  ∀ (s t : State) (es : List Event), (s.events = [] ∧ es = []) ∨ s.events = .engineTurn :: es → s.dev.seq = .busy →
    s.rst = false → step s = .next t → t.dev.seq = .fault →
    t.dev = { s.dev with seq := .fault, errcode := t.dev.errcode } ∧
    t.dev.statusWord.getLsbD 0 = false ∧ t.dev.statusWord.getLsbD 2 = true ∧ t.dev.done = s.dev.done ∧
    (∃ c : FaultCode, c ≠ .mixLength ∧ t.dev.errcode = c.code ∧ t.faults = c :: s.faults) ∧
    t.rst = s.rst ∧ t.cfg = s.cfg ∧ t.events = es ∧ t.responses = s.responses ∧ s.sameDraws t

/-- 60_exceptions.md R203: which fault an ENGINE step reports: BAD_CMD, KEY_EMPTY, BLOCK_SIZE_RANGE, CHUNK_LEN_RANGE,
COUNTER_EXHAUSTED, the first that applies, and exactly one; where none applies the command completes. The ENGINE step is
taken at an `engineTurn` event or once no event is left (log entry 4). -/
def Obligations.FirstFaultInOrderIsReported : Prop :=
  ∀ (s : State) (es : List Event), (s.events = [] ∧ es = []) ∨ s.events = .engineTurn :: es → s.dev.seq = .busy →
    s.rst = false →
    ∃ t, step s = .next t ∧ t.events = es ∧
      (if 4 < s.dev.pending.toNat then
        t.dev.seq = .fault ∧ t.dev.errcode = 1 ∧ t.faults = .badCmd :: s.faults
      else if 2 ≤ s.dev.pending.toNat ∧ s.dev.keyLen = 0 then
        t.dev.seq = .fault ∧ t.dev.errcode = 2 ∧ t.faults = .keyEmpty :: s.faults
      else if s.dev.pending.toNat = 4 ∧ (s.dev.blockSize = 0 ∨ s.cfg.blockSizeMax < s.dev.blockSize.toNat) then
        t.dev.seq = .fault ∧ t.dev.errcode = 3 ∧ t.faults = .blockSizeRange :: s.faults
      else if s.dev.pending.toNat = 4 ∧ (s.dev.chunkLen = 0 ∨ s.dev.blockSize.toNat < s.dev.chunkLen.toNat) then
        t.dev.seq = .fault ∧ t.dev.errcode = 4 ∧ t.faults = .chunkLenRange :: s.faults
      else if s.dev.pending.toNat = 4 ∧ s.dev.counter.toNat = 2 ^ 64 - 1 then
        t.dev.seq = .fault ∧ t.dev.errcode = 5 ∧ t.faults = .counterExhausted :: s.faults
      else t.dev.seq = .idle ∧ t.dev.done = true ∧ t.faults = s.faults)

/-- 40_feistel.md section 1, 60_exceptions.md section 1: KEY_LEN = 0 makes the three commands that use the key trap: FAULT
with code 2, the fault recorded, and all else as before. -/
def Obligations.EmptyKeyFaultsEveryKeyCommand : Prop :=
  ∀ (i : Instr) (s : State), i = .feistel ∨ i = .ksGen ∨ i = .ctrXor → s.dev.keyLen = 0 →
    exec i s = .next { s with dev := { s.dev with seq := .fault, errcode := 2 }, faults := .keyEmpty :: s.faults }

/-- 60_exceptions.md R202: FAULT is sticky: a step leaves STATE, ERRCODE and the record of faults, or it is a reset; a CMD
write of any other word is admitted and ignored; and accesses are admitted as in IDLE. -/
def Obligations.FaultStateIsSticky : Prop :=
  (∀ s t : State, s.dev.seq = .fault → step s = .next t →
    (t.dev.seq = .fault ∧ t.dev.errcode = s.dev.errcode ∧ t.faults = s.faults) ∨
    (t.dev = Device.reset ∧ ∃ es, s.events = .host (.wr 0x008 0x000000FF) :: es ∨
      (∃ l, s.events = .rst l :: es ∧ (l = true ∨ s.rst = true)))) ∧
  (∀ (s : State) (es : List Event) (v : Word), s.dev.seq = .fault → s.rst = false →
    s.events = .host (.wr 0x008 v) :: es → v ≠ 0x000000FF →
    step s = .next { s with events := es, responses := .completed :: s.responses }) ∧
  (∀ (s : State) (a : Access), s.dev.seq = .fault →
    s.refusesAccess a = State.refusesAccess { s with dev := { s.dev with seq := .idle } } a)

/-- 40_feistel.md section 2, 60_exceptions.md section 1: no step puts a reserved code or MIX_LENGTH's code 7 into ERRCODE. -/
def Obligations.OnlyTheFiveCodesAreEverRaised : Prop :=
  ∀ s t : State, step s = .next t → t.dev.errcode = s.dev.errcode ∨ t.dev.errcode.toNat ≤ 5

/-! ### The register block (20_memory.md) -/

/-- 20_memory.md R63: a host access is answered by a bus error in exactly five cases, and then nothing of the FKE has
changed. The offsets of case 2 and case 3 are those of the address map. -/
def Obligations.BusErrorInExactlyFiveCases : Prop :=
  ∀ (s : State) (a : Access) (es : List Event), s.events = .host a :: es →
    ∃ t, step s = .next t ∧
      (t.responses.head? = some .busError ↔
        (a.width ≠ .word ∨ a.offset.toNat % 4 ≠ 0) ∨
        ((0x028 ≤ a.offset.toNat ∧ a.offset.toNat < 0x040) ∨ (0x0F8 ≤ a.offset.toNat ∧ a.offset.toNat < 0x100) ∨
          (0x200 ≤ a.offset.toNat ∧ a.offset.toNat < 0x400) ∨
          0x400 + 4 * ((s.cfg.blockSizeMax + 3) / 4) ≤ a.offset.toNat) ∨
        (a.kind ≠ .read ∧ (a.offset.toNat < 0x008 ∨ (0x00C ≤ a.offset.toNat ∧ a.offset.toNat < 0x010) ∨
          (0x180 ≤ a.offset.toNat ∧ a.offset.toNat < 0x200))) ∨
        (s.dev.seq = .busy ∧ ¬ (a.kind = .read ∧ (a.offset.toNat < 0x008 ∨
          (0x00C ≤ a.offset.toNat ∧ a.offset.toNat < 0x010)))) ∨
        s.rst = true) ∧
      (t.responses.head? = some .busError →
        t = { s with events := es, responses := .busError :: s.responses })

/-- 20_memory.md R67: what a write of a word to CMD does in IDLE, FAULT and BUSY. -/
def Obligations.CmdWriteActsByState : Prop :=
  ∀ (s : State) (es : List Event) (v : Word), s.events = .host (.wr 0x008 v) :: es → s.rst = false →
    (s.dev.seq = .idle → v ≠ 0x000000FF → step s = .next { s with
      dev := { s.dev with pending := v, done := false, seq := .busy }
      events := es
      responses := .completed :: s.responses }) ∧
    (s.dev.seq = .fault → v ≠ 0x000000FF → step s = .next { s with
      events := es
      responses := .completed :: s.responses }) ∧
    (s.dev.seq ≠ .busy → v = 0x000000FF → step s = .next { s with
      dev := Device.reset
      events := es
      responses := .completed :: s.responses }) ∧
    (s.dev.seq = .busy → step s = .next { s with
      events := es
      responses := .busError :: s.responses })

/-- 20_memory.md section 5: a read has no side effect but its answer, and CMD and every word of KEY_RAW read 0. -/
def Obligations.ReadsHaveNoSideEffect : Prop :=
  ∀ (s : State) (a : Access) (es : List Event), s.events = .host a :: es → a.kind = .read →
    ∃ r, step s = .next { s with events := es, responses := r :: s.responses } ∧
      ((a.offset = 0x008 ∨ (0x040 ≤ a.offset.toNat ∧ a.offset.toNat < 0x080)) → r = .data 0 ∨ r = .busError)

/-- 20_memory.md section 5, 10_state.md section 3: a write to ROUNDS, BLOCK_SIZE, CHUNK_LEN or KEY_LEN stores the word, does
nothing else, and the register reads back exactly. -/
def Obligations.OperandWritesStoreAndReadBack : Prop :=
  ∀ (s : State) (es : List Event) (v : Word), s.rst = false → s.dev.seq ≠ .busy →
    (s.events = .host (.wr 0x010 v) :: .host (.rd 0x010) :: es → core.run 2 s = .next { s with
      dev := { s.dev with rounds := v }, events := es, responses := .data v :: .completed :: s.responses }) ∧
    (s.events = .host (.wr 0x014 v) :: .host (.rd 0x014) :: es → core.run 2 s = .next { s with
      dev := { s.dev with blockSize := v }, events := es, responses := .data v :: .completed :: s.responses }) ∧
    (s.events = .host (.wr 0x018 v) :: .host (.rd 0x018) :: es → core.run 2 s = .next { s with
      dev := { s.dev with chunkLen := v }, events := es, responses := .data v :: .completed :: s.responses }) ∧
    (s.events = .host (.wr 0x01C v) :: .host (.rd 0x01C) :: es → core.run 2 s = .next { s with
      dev := { s.dev with keyLen := v }, events := es, responses := .data v :: .completed :: s.responses })

/-- 10_state.md section 3, 20_memory.md section 6: COUNTER_LO and COUNTER_HI are bits 31:0 and 63:32; a write to either half
replaces that half only. -/
def Obligations.CounterHalvesAreWrittenAlone : Prop :=
  ∀ (s : State) (es : List Event) (v : Word), s.rst = false → s.dev.seq ≠ .busy →
    (s.events = .host (.wr 0x020 v) :: .host (.rd 0x020) :: es →
      ∃ t, core.run 2 s = .next t ∧ t.responses = .data v :: .completed :: s.responses ∧
        t.dev.counter.toNat = s.dev.counter.toNat / 2 ^ 32 * 2 ^ 32 + v.toNat ∧
        t.dev = { s.dev with counter := t.dev.counter }) ∧
    (s.events = .host (.wr 0x024 v) :: .host (.rd 0x024) :: es →
      ∃ t, core.run 2 s = .next t ∧ t.responses = .data v :: .completed :: s.responses ∧
        t.dev.counter.toNat = v.toNat * 2 ^ 32 + s.dev.counter.toNat % 2 ^ 32 ∧
        t.dev = { s.dev with counter := t.dev.counter })

/-- 20_memory.md section 3, 10_state.md section 4: a write of word k of KEY_RAW, NONCE, FBUF or DATA stores its four bytes
little-endian at bytes 4k..4k+3, leaves out the bytes past the end of the window, and changes no other byte and no
register. -/
def Obligations.WindowWordWritesAreLittleEndian : Prop :=
  ∀ (s : State) (es : List Event) (w : Window) (k : Nat) (v : Word), s.rst = false → s.dev.seq ≠ .busy → w ≠ .ks →
    4 * k < w.size s.cfg → s.events = .host (.wr (BitVec.ofNat 12 (w.base + 4 * k)) v) :: es →
    ∃ t, step s = .next t ∧
      (∀ i < 4, 4 * k + i < w.size s.cfg → t.dev.windowByte w (4 * k + i) = v.extractLsb' (8 * i) 8) ∧
      (∀ x, (x < w.base + 4 * k ∨ w.base + 4 * k + 4 ≤ x ∨ w.base + w.size s.cfg ≤ x) →
        t.dev.mem.read x = s.dev.mem.read x) ∧
      t.dev = { s.dev with mem := t.dev.mem } ∧
      t = { s with dev := t.dev, events := es, responses := .completed :: s.responses }

/-- 20_memory.md section 3, 10_state.md section 4: a read of word k of NONCE, FBUF, KS or DATA gives its bytes little-endian;
bytes past the end of DATA read as 0. -/
def Obligations.WindowWordReadsAreLittleEndian : Prop :=
  ∀ (s : State) (es : List Event) (w : Window) (k : Nat), s.rst = false → s.dev.seq ≠ .busy → w ≠ .keyRaw →
    4 * k < w.size s.cfg → s.events = .host (.rd (BitVec.ofNat 12 (w.base + 4 * k))) :: es →
    ∃ v : Word, step s = .next { s with events := es, responses := .data v :: s.responses } ∧
      ∀ i < 4, v.extractLsb' (8 * i) 8 = if 4 * k + i < w.size s.cfg then s.dev.windowByte w (4 * k + i) else 0

/-- 10_state.md R24: the fields of STATUS; BUSY and FAULT are never both 1; a write to STATUS is a bus error; its reset
value is 0. -/
def Obligations.StatusWordFields : Prop :=
  (∀ d : Device, (d.statusWord.getLsbD 0 = true ↔ d.seq = .busy) ∧ d.statusWord.getLsbD 1 = d.done ∧
    (d.statusWord.getLsbD 2 = true ↔ d.seq = .fault) ∧ (∀ n, 3 ≤ n → n ≤ 7 → d.statusWord.getLsbD n = false) ∧
    d.statusWord.extractLsb' 8 4 = d.errcode ∧ (∀ n, 12 ≤ n → n ≤ 31 → d.statusWord.getLsbD n = false) ∧
    ¬ (d.statusWord.getLsbD 0 = true ∧ d.statusWord.getLsbD 2 = true)) ∧
  Device.reset.statusWord = 0 ∧
  (∀ (s : State) (es : List Event), s.rst = false → s.events = .host (.rd 0x00C) :: es →
    step s = .next { s with events := es, responses := .data s.dev.statusWord :: s.responses }) ∧
  (∀ (s : State) (es : List Event) (v : Word), s.events = .host (.wr 0x00C v) :: es →
    step s = .next { s with events := es, responses := .busError :: s.responses })

/-- 10_state.md R37, R38: what ID and CONFIG read, in every STATE, and that a write to either is a bus error. -/
def Obligations.IdAndConfigAreConstants : Prop :=
  (∀ (s : State) (es : List Event), s.rst = false → s.events = .host (.rd 0x000) :: es →
    step s = .next { s with events := es, responses := .data 0x31534B46 :: s.responses }) ∧
  bytesOfWord 0x31534B46 = [0x46, 0x4B, 0x53, 0x31] ∧
  (∀ (s : State) (es : List Event), s.rst = false → s.events = .host (.rd 0x004) :: es →
    ∃ c : Word, step s = .next { s with events := es, responses := .data c :: s.responses } ∧
      (c.extractLsb' 0 16).toNat = s.cfg.blockSizeMax ∧ c.extractLsb' 16 8 = 120 ∧ c.extractLsb' 24 8 = 64 ∧
      (s.cfg.blockSizeMax = 1024 → c = 0x40780400)) ∧
  (∀ (s : State) (es : List Event) (off : BitVec 12) (v : Word), off = 0x000 ∨ off = 0x004 →
    s.events = .host (.wr off v) :: es →
    step s = .next { s with events := es, responses := .busError :: s.responses })

/-- 10_state.md section 4 (KEY_RAW): the key cannot be read back: two states that differ only in the bytes of KEY_RAW
answer every access alike, reads and writes both. -/
def Obligations.KeyBytesAreNeverReadBack : Prop :=
  ∀ (s : State) (m : Mem) (a : Access) (es : List Event),
    (∀ x, x < 0x040 ∨ 0x080 ≤ x → m.read x = s.dev.mem.read x) → s.events = .host a :: es →
    ∃ t t', step s = .next t ∧ step { s with dev := { s.dev with mem := m } } = .next t' ∧ t.responses = t'.responses

/-- 70_reset_and_hazards.md R230: while RST is asserted every access is a bus error and the ENGINE step is disabled;
asserting RST in any STATE abandons the pending command; and deasserted, the state is the reset state. -/
def Obligations.ResetInputAbandonsThePendingCommand : Prop :=
  (∀ (s : State) (a : Access) (es : List Event), s.rst = true → s.events = .host a :: es →
    step s = .next { s with events := es, responses := .busError :: s.responses }) ∧
  (∀ (s : State) (es : List Event), s.rst = true → s.events = .engineTurn :: es →
    step s = .next { s with events := es }) ∧
  (∀ s : State, s.rst = true → s.events = [] → step s = .next s) ∧
  (∀ (s : State) (es : List Event), s.events = .rst true :: es →
    ∃ t, step s = .next t ∧ t.rst = true ∧ t.events = es ∧ t.faults = s.faults) ∧
  (∀ (s : State) (es : List Event), s.rst = true → s.events = .rst false :: es →
    step s = .next { s with dev := Device.reset, rst := false, events := es }) ∧
  (∀ (s : State) (a : Access), s.dev = Device.reset → s.rst = false → a.kind = .read →
    (a.wellFormed = true ∧ accessTarget s.cfg a ≠ .reserved ↔ s.refusesAccess a = false))

/-! ### The primitive (40_feistel.md) -/

/-- 40_feistel.md R112: byte b of round key i is the key's byte plus i mod 256, mod 256, from the original key; round key 0
is the key. With section 3's period: round keys i and i + 256 are the same. -/
def Obligations.RoundKeyAddsTheIndexToEveryByte : Prop :=
  ∀ (k : Bytes 64) (i : Nat),
    (∀ b < 64, ((roundKey k i).byte b).toNat = ((k.byte b).toNat + i % 256) % 256) ∧
    roundKey k 0 = k ∧ roundKey k (i + 256) = roundKey k i

/-- 40_feistel.md R113, R114: MIX is the hexadecimal text of H256 of the XOR, high nibble first, and all its bytes are ASCII
digits or lowercase a to f. It holds of every hash. -/
def Obligations.MixIsLowercaseHexOfTheHash : Prop :=
  ∀ (h : Bytes 64 → Bytes 32) (v k : Bytes 64),
    (∀ d : Bytes 32, ∀ m < 32,
      ((hexText d).byte (2 * m)).toNat =
        (if (d.byte m).toNat / 16 < 10 then 0x30 + (d.byte m).toNat / 16 else 0x61 + ((d.byte m).toNat / 16 - 10)) ∧
      ((hexText d).byte (2 * m + 1)).toNat =
        (if (d.byte m).toNat % 16 < 10 then 0x30 + (d.byte m).toNat % 16 else 0x61 + ((d.byte m).toNat % 16 - 10))) ∧
    mix h v k = hexText (h (v.xor k)) ∧
    ∀ j < 64, (0x30 ≤ ((mix h v k).byte j).toNat ∧ ((mix h v k).byte j).toNat ≤ 0x39) ∨
      (0x61 ≤ ((mix h v k).byte j).toNat ∧ ((mix h v k).byte j).toNat ≤ 0x66)

/-- 40_feistel.md R117, R118, R125: FEISTEL_CORE for every round count: no round leaves the input under LR, round n + 1 is
the loop body of R117 with round index n on the result of n rounds, RL gives the halves of LR exchanged, and LR is the
default. From it, the closed forms of one and two rounds, that the first half after round n is the second half after round
n - 1, and what follows for one round. It holds of every hash. -/
def Obligations.FeistelClosedForms : Prop :=
  Config.default.outputOrder = .lr ∧
  ∀ (h : Bytes 64 → Bytes 32) (x : Bytes 128) (k : Bytes 64),
    (∀ r : Int, r ≤ 0 → feistelCore h .lr x k r = x) ∧
    (∀ n : Nat, feistelCore h .lr x k (n + 1) =
      joinHalves (rightHalf (feistelCore h .lr x k n))
        ((leftHalf (feistelCore h .lr x k n)).xor
          (mix h (rightHalf (feistelCore h .lr x k n)) (roundKey k n)))) ∧
    (∀ r : Int, feistelCore h .rl x k r =
      joinHalves (rightHalf (feistelCore h .lr x k r)) (leftHalf (feistelCore h .lr x k r))) ∧
    feistelCore h .lr x k 1 =
      joinHalves (rightHalf x) ((leftHalf x).xor (mix h (rightHalf x) (roundKey k 0))) ∧
    (∀ f0 f1 : Bytes 64, f0 = mix h (rightHalf x) (roundKey k 0) → f1 = mix h ((leftHalf x).xor f0) (roundKey k 1) →
      feistelCore h .lr x k 2 = joinHalves ((leftHalf x).xor f0) ((rightHalf x).xor f1)) ∧
    (∀ n : Nat, leftHalf (feistelCore h .lr x k (n + 1)) = rightHalf (feistelCore h .lr x k n)) ∧
    leftHalf (feistelCore h .lr x k 1) = rightHalf x ∧
    (∀ j < 64, (0x30 ≤ (((rightHalf (feistelCore h .lr x k 1)).xor (leftHalf x)).byte j).toNat ∧
        (((rightHalf (feistelCore h .lr x k 1)).xor (leftHalf x)).byte j).toNat ≤ 0x39) ∨
      (0x61 ≤ (((rightHalf (feistelCore h .lr x k 1)).xor (leftHalf x)).byte j).toNat ∧
        (((rightHalf (feistelCore h .lr x k 1)).xor (leftHalf x)).byte j).toNat ≤ 0x66))

/-- 40_feistel.md section 3 (rounds ≤ 0): no round runs: the core gives its input under LR and the input with its halves
exchanged under RL; so under LR, FEISTEL copies FBUF to KS and KS_GEN copies NONCE ‖ LE64(COUNTER), with no fault. -/
def Obligations.NoRoundsGiveTheInputBack : Prop :=
  (∀ (h : Bytes 64 → Bytes 32) (x : Bytes 128) (k : Bytes 64) (r : Int), r ≤ 0 →
    feistelCore h .lr x k r = x ∧ feistelCore h .rl x k r = joinHalves (rightHalf x) (leftHalf x)) ∧
  (∀ s : State, s.dev.rounds.toInt ≤ 0 → s.cfg.outputOrder = .lr → s.dev.keyLen ≠ 0 →
    (∃ t, exec .feistel s = .next t ∧ t.dev.seq = .idle ∧
      ∀ j < 128, t.dev.windowByte .ks j = s.dev.windowByte .fbuf j) ∧
    (∃ t, exec .ksGen s = .next t ∧ t.dev.seq = .idle ∧
      (∀ j < 120, t.dev.windowByte .ks j = s.dev.windowByte .nonce j) ∧
      (∀ m < 8, (t.dev.windowByte .ks (120 + m)).toNat = s.dev.counter.toNat / 2 ^ (8 * m) % 256)))

/-- 40_feistel.md R111: KEY_LEN = 0 is the fault KEY_EMPTY; otherwise byte j of the key operand is KEY_RAW[j mod Leff] with
Leff = min(KEY_LEN, 64); and a user key of any length n ≥ 1, loaded as R111 says with n or min(n, 64) in KEY_LEN, gives the
expansion of that key. -/
def Obligations.KeyOperandRepeatsTheLoadedKey : Prop :=
  ∀ d : Device,
    (d.keyLen = 0 → d.keyOperand = .error .keyEmpty) ∧
    (d.keyLen ≠ 0 → ∃ k, d.keyOperand = .ok k ∧
      (∀ j < 64, k.byte j = d.windowByte .keyRaw (j % min d.keyLen.toNat 64)) ∧
      ∀ user : List Byte, user ≠ [] → (∀ j < min user.length 64, d.windowByte .keyRaw j = user.getD j 0) →
        d.keyLen.toNat = user.length ∨ d.keyLen.toNat = min user.length 64 → k = expandKey user user.length)

/-- 41_counter_engine.md R150: the nonce‖counter block, byte by byte; the counter lies in the right half, behind nonce bytes
64 to 119. -/
def Obligations.NonceCounterBlockBytes : Prop :=
  ∀ (n : Bytes 120) (c : Word64),
    (∀ j < 120, (nonceCounterBlock n c).byte j = n.byte j) ∧
    (∀ m < 8, ((nonceCounterBlock n c).byte (120 + m)).toNat = c.toNat / 2 ^ (8 * m) % 256) ∧
    (∀ j < 56, (rightHalf (nonceCounterBlock n c)).byte j = n.byte (64 + j)) ∧
    (∀ m < 8, ((rightHalf (nonceCounterBlock n c)).byte (56 + m)).toNat = c.toNat / 2 ^ (8 * m) % 256)

/-! ### The counter-mode engine (41_counter_engine.md) -/

/-- 41_counter_engine.md section 1 (encryption and decryption are one operation): CTR_XOR, then COUNTER written back and
CHUNK_LEN = BLOCK_SIZE, then CTR_XOR again: DATA[0..BLOCK_SIZE) is the chunk followed by zeros. -/
def Obligations.CtrXorTwiceReturnsThePaddedChunk : Prop :=
  ∀ s : State, s.dev.keyLen ≠ 0 → s.dev.blockSize ≠ 0 → s.dev.blockSize.toNat ≤ s.cfg.blockSizeMax →
    s.dev.chunkLen ≠ 0 → s.dev.chunkLen.toNat ≤ s.dev.blockSize.toNat → s.dev.counter.toNat < 2 ^ 64 - 1 →
    ∃ t u : State, exec .ctrXor s = .next t ∧
      exec .ctrXor { t with dev := { t.dev with counter := s.dev.counter, chunkLen := s.dev.blockSize } } = .next u ∧
      (∀ j < s.dev.blockSize.toNat, u.dev.windowByte .data j =
        if j < s.dev.chunkLen.toNat then s.dev.windowByte .data j else 0) ∧
      u.dev.counter = t.dev.counter ∧ u.dev.seq = .idle

/-- 41_counter_engine.md section 3: from COUNTER = c, k successful CTR_XOR commands on end leave COUNTER = c + k, the m-th of
them (from 0) having used counter c + m: KS holds the keystream block of the last counter used. -/
def Obligations.ConsecutiveBlocksUseConsecutiveCounters : Prop :=
  ∀ (k : Nat) (s : State), s.dev.keyLen ≠ 0 → s.dev.blockSize ≠ 0 → s.dev.blockSize.toNat ≤ s.cfg.blockSizeMax →
    s.dev.chunkLen ≠ 0 → s.dev.chunkLen.toNat ≤ s.dev.blockSize.toNat → s.dev.counter.toNat + k ≤ 2 ^ 64 - 1 →
    ∃ t, performTimes .ctrXor k s = .next t ∧ t.dev.counter.toNat = s.dev.counter.toNat + k ∧
      t.faults = s.faults ∧ s.dev.sameOperands t.dev ∧
      (∀ m, k = m + 1 → ∀ j < 128, t.dev.windowByte .ks j =
        (feistelCore Config.h256 s.cfg.outputOrder
          (nonceCounterBlock (s.dev.window .nonce 120) (s.dev.counter + BitVec.ofNat 64 m))
          (expandKey (s.dev.window .keyRaw 64).toList (min s.dev.keyLen.toNat 64)) s.dev.rounds.toInt).byte j)

/-- 41_counter_engine.md R163: a CTR_XOR that completes leaves COUNTER = c + 1 with no wrap, one that faults leaves COUNTER;
and with COUNTER = 2^64 - 1 it processes nothing. -/
def Obligations.CtrXorNeverWrapsTheCounter : Prop :=
  ∀ s : State, ∃ t, exec .ctrXor s = .next t ∧
    ((t.dev.seq = .idle ∧ t.dev.counter.toNat = s.dev.counter.toNat + 1) ∨
      (t.dev.seq = .fault ∧ t.dev.counter = s.dev.counter ∧ t.dev.mem = s.dev.mem)) ∧
    (s.dev.counter.toNat = 2 ^ 64 - 1 → t.dev.seq = .fault ∧
      (s.dev.keyLen ≠ 0 → s.dev.blockSize ≠ 0 → s.dev.blockSize.toNat ≤ s.cfg.blockSizeMax → s.dev.chunkLen ≠ 0 →
        s.dev.chunkLen.toNat ≤ s.dev.blockSize.toNat → t.dev.errcode = 5))

/-- 41_counter_engine.md section 1 (blocks are independent): two CTR_XOR commands whose NONCE, counter, expanded key, ROUNDS,
BLOCK_SIZE, CHUNK_LEN and chunk bytes agree give the same output block and keystream block, whatever else differs. -/
def Obligations.OutputBlockDependsOnlyOnItsOperands : Prop :=
  ∀ s s' t t' : State, s'.cfg.outputOrder = s.cfg.outputOrder →
    (∀ j < 120, s'.dev.windowByte .nonce j = s.dev.windowByte .nonce j) → s'.dev.counter = s.dev.counter →
    s'.dev.keyOperand = s.dev.keyOperand → s'.dev.rounds = s.dev.rounds → s'.dev.blockSize = s.dev.blockSize →
    s'.dev.chunkLen = s.dev.chunkLen →
    (∀ j < s.dev.chunkLen.toNat, s'.dev.windowByte .data j = s.dev.windowByte .data j) →
    exec .ctrXor s = .next t → exec .ctrXor s' = .next t' → t.dev.seq = .idle → t'.dev.seq = .idle →
    (∀ j < s.dev.blockSize.toNat, t'.dev.windowByte .data j = t.dev.windowByte .data j) ∧
    (∀ j < 128, t'.dev.windowByte .ks j = t.dev.windowByte .ks j)

/-! ### Rules of the whole machine -/

/-- 10_state.md section 3, 60_exceptions.md section 4: COUNTER changes only by a host write to one of its halves, by NONCE_GEN,
by CTR_XOR and by a reset. -/
def Obligations.CounterHasOnlyItsListedWriters : Prop :=
  ∀ s t : State, step s = .next t → t.dev.counter ≠ s.dev.counter →
    ((s.events = [] ∨ ∃ es, s.events = .engineTurn :: es) ∧ s.dev.seq = .busy ∧
      (s.dev.pending = encode .nonceGen ∨ s.dev.pending = encode .ctrXor)) ∨
    (∃ es v, s.events = .host (.wr 0x020 v) :: es ∨ s.events = .host (.wr 0x024 v) :: es) ∨
    (∃ es, s.events = .host (.wr 0x008 0x000000FF) :: es) ∨
    (∃ es l, s.events = .rst l :: es)

/-- 10_state.md sections 3 and 4: ROUNDS, BLOCK_SIZE, CHUNK_LEN, KEY_LEN, KEY_RAW and FBUF are written by the host alone: no
turn of the ENGINE changes them, whatever it performs; nor PENDING, which is kept at
completion (the model's deduction, log entry 8). -/
def Obligations.EngineNeverWritesTheHostsOperands : Prop :=
  ∀ s t : State, (s.events = [] ∨ ∃ es, s.events = .engineTurn :: es) → step s = .next t →
    s.dev.sameOperands t.dev ∧ t.dev.pending = s.dev.pending ∧
    (∀ j < 64, t.dev.windowByte .keyRaw j = s.dev.windowByte .keyRaw j) ∧
    (∀ j < 128, t.dev.windowByte .fbuf j = s.dev.windowByte .fbuf j)

/-- The invariant holds right after reset. -/
def Obligations.ResetMeetsTheInvariant : Prop := State.reset.Inv

/-- Every step keeps the invariant: the windows' bytes in canonical form and inside the windows of the address map
(20_memory.md R61), ERRCODE 0 outside FAULT and a code that can be raised in it (10_state.md R26, 60_exceptions.md R200), DONE 0
while BUSY or FAULT (10_state.md R25), SOFT_RESET's word never latched (42_control.md R191), and the state elements at their reset
values while RST is asserted (the last is the model's choice: log entry 7). -/
def Obligations.EveryStepKeepsTheInvariant : Prop :=
  ∀ s t : State, s.Inv → step s = .next t → t.Inv

/-! ### The host's procedures (41_counter_engine.md section 4) -/

/-- 41_counter_engine.md section 4 (container layout): parsing the file of a container gives the container. -/
def Obligations.SerializedContainerParsesBack : Prop :=
  ∀ (cfg : Config) (c : Container), c.nonce.length = 120 → 1 ≤ c.blockSize → c.blockSize ≤ cfg.blockSizeMax →
    (∀ b ∈ c.blocks, b.length = c.blockSize) → parseContainer cfg c.serialize = .ok c

/-- 41_counter_engine.md section 4 (head and tail windows): of the file of a container with N blocks, the head window of n
blocks is the first n with start_block 0, the tail window the last n with start_block N - n, and n > N is out of range. The
rule on tail windows has 1 ≤ n; that n = 0 gives the empty window, for a tail with start_block N, is the model's choice (log
entry 9). -/
def Obligations.WindowsOfASerializedContainer : Prop :=
  ∀ (cfg : Config) (c : Container) (n : Nat), c.nonce.length = 120 → 1 ≤ c.blockSize → c.blockSize ≤ cfg.blockSizeMax →
    (∀ b ∈ c.blocks, b.length = c.blockSize) →
    (n ≤ c.blocks.length →
      headWindow cfg c.serialize n = .ok ({ c with blocks := c.blocks.take n }, 0) ∧
      tailWindow cfg c.serialize n =
        .ok ({ c with blocks := c.blocks.drop (c.blocks.length - n) }, c.blocks.length - n)) ∧
    (c.blocks.length < n →
      headWindow cfg c.serialize n = .error .outOfRange ∧ tailWindow cfg c.serialize n = .error .outOfRange)

/-- 41_counter_engine.md section 4 (validation before any command): a window read of a file with a whole header is refused
for a nonce size above the remaining file, a nonce size other than 120, a block size out of range and a payload that is no
whole number of blocks. Where several apply, the order is the model's choice (log entry 9). -/
def Obligations.WindowReadsAreValidatedFirst : Prop :=
  ∀ (cfg : Config) (file : List Byte) (n : Nat) (bs ns : Int), 12 ≤ file.length →
    bs = (fileWord file 0).toInt → ns = (fileWord file 4).toInt →
    ((file.length : Int) - 12 < ns →
      headWindow cfg file n = .error .notEncryptedOrCorrupted ∧ tailWindow cfg file n = .error .notEncryptedOrCorrupted) ∧
    (ns ≤ (file.length : Int) - 12 → ns ≠ 120 →
      headWindow cfg file n = .error .nonceSize ∧ tailWindow cfg file n = .error .nonceSize) ∧
    (ns ≤ (file.length : Int) - 12 → ns = 120 → bs < 1 ∨ (cfg.blockSizeMax : Int) < bs →
      headWindow cfg file n = .error .blockSizeRange ∧ tailWindow cfg file n = .error .blockSizeRange) ∧
    (ns ≤ (file.length : Int) - 12 → ns = 120 → 1 ≤ bs → bs ≤ (cfg.blockSizeMax : Int) →
      ((file.length : Int) - 132) % bs ≠ 0 →
      headWindow cfg file n = .error .notEncryptedOrCorrupted ∧ tailWindow cfg file n = .error .notEncryptedOrCorrupted)

/-- 41_counter_engine.md section 4: ENCRYPT and DECRYPT are refused exactly where a requirement that comes before every
command fails. How the procedures run as steps is the model's choice (log entry 10). -/
def Obligations.HostProceduresRefuseExactlyTheirRequirements : Prop :=
  (∀ (polls : Schedule) (s : State) (msg key : List Byte) (bs : Nat) (r : Word),
    (∃ why, hostEncrypt polls s msg key bs r = .refused why) ↔ key = [] ∨ bs < 1 ∨ s.cfg.blockSizeMax < bs) ∧
  (∀ (polls : Schedule) (s : State) (c : Container) (key : List Byte) (startBlock : Int),
    (∃ why, hostDecrypt polls s c key startBlock = .refused why) ↔
      key = [] ∨ startBlock < 0 ∨ c.nonce.length ≠ 120 ∨ c.blockSize < 1 ∨ s.cfg.blockSizeMax < c.blockSize ∨
        2 ^ 64 - 1 < startBlock + (c.blocks.length : Int))

/-- 41_counter_engine.md section 4 (round trip): from any idle state, under any schedule and any draw, ENCRYPT of a message
gives a container, and DECRYPT of it with start_block 0, on any idle FKE of the same configuration, gives the message followed
by exactly (-len) mod bs zero bytes. The number of blocks is at most 2^64 - 1, as DECRYPT requires. A schedule gives each wait
its own number of STATUS reads before the ENGINE's turn, none among them. How the procedures run as steps is the model's choice
(log entry 10). -/
def Obligations.DecryptOfEncryptIsThePaddedMessage : Prop :=
  ∀ (polls polls' : Schedule) (s s' : State) (msg key : List Byte) (bs : Nat) (r : Word),
    s.dev.seq = .idle → s.rst = false → s'.dev.seq = .idle → s'.rst = false → s'.cfg = s.cfg → key ≠ [] → 1 ≤ bs →
    bs ≤ s.cfg.blockSizeMax → (msg.length + (bs - 1)) / bs ≤ 2 ^ 64 - 1 →
    ∃ c t t', hostEncrypt polls s msg key bs r = .ok c t ∧
      hostDecrypt polls' s' c key 0 = .ok (msg ++ List.replicate ((bs - msg.length % bs) % bs) 0) t'

/-- 41_counter_engine.md section 4 (windowed consistency): decrypting only the last n of N blocks with start_block = N - n
gives the last n * block_size bytes of decrypting all N with start_block = 0, under any two schedules of the ENGINE. How the
procedures run as steps is the model's choice (log entry 10). -/
def Obligations.TailWindowDecryptsToTheTail : Prop :=
  ∀ (polls polls' : Schedule) (s s' : State) (c : Container) (key : List Byte) (n : Nat),
    s.dev.seq = .idle → s.rst = false → s'.dev.seq = .idle → s'.rst = false → s'.cfg = s.cfg → key ≠ [] →
    c.nonce.length = 120 → 1 ≤ c.blockSize → c.blockSize ≤ s.cfg.blockSizeMax →
    (∀ b ∈ c.blocks, b.length = c.blockSize) → c.blocks.length ≤ 2 ^ 64 - 1 → 1 ≤ n → n ≤ c.blocks.length →
    ∃ out t t', hostDecrypt polls s c key 0 = .ok out t ∧ out.length = c.blocks.length * c.blockSize ∧
      hostDecrypt polls' s' { c with blocks := c.blocks.drop (c.blocks.length - n) } key
        ((c.blocks.length - n : Nat) : Int) = .ok (out.drop ((c.blocks.length - n) * c.blockSize)) t'

/-! ### The host's duties (20_memory.md section 7) -/

/-- 20_memory.md section 7, 41_counter_engine.md section 4: which moves are not given to the host: those made for a decryption
with a negative start_block or with a container that its checks refuse; a KS_GEN or CTR_XOR while one half of COUNTER alone
has been written, or while neither has been and COUNTER has nobody's value, NONCE_GEN's where the move is for a decryption, or
one advanced for another encryption or decryption; one made for an encryption while NONCE does not hold what that encryption's
NONCE_GEN drew; a CTR_XOR that says of neither; and a NONCE_GEN for an encryption that has had one. Every other move is given and
is the event's step. That a move names its purpose, how far one writing of COUNTER serves, and the CTR_XOR of no purpose are the
model's choice (log entry 16). -/
def Obligations.MovesThatBreakADutyAreNotGiven : Prop :=
  ∀ (r : HostRun) (m : Move),
    (r.move m = none ↔
      (∃ source startBlock, m.purpose = .decrypt source startBlock ∧
        (startBlock < 0 ∨
          (∃ c, source = .held c ∧
            (c.nonce.length ≠ 120 ∨ c.blockSize < 1 ∨ r.state.cfg.blockSizeMax < c.blockSize)) ∨
          (∃ file why, source = .whole file ∧ parseContainer r.state.cfg file = .error why) ∨
          (∃ file n why, source = .head file n ∧ headWindow r.state.cfg file n = .error why) ∨
          (∃ file n why, source = .tail file n ∧ tailWindow r.state.cfg file n = .error why))) ∨
      (∃ i, (i = .ksGen ∨ i = .ctrXor) ∧ m.event = .host (.wr 0x008 (encode i)) ∧ r.state.dev.seq = .idle ∧
        r.state.rst = false ∧
        (r.duties.loWritten ≠ r.duties.hiWritten ∨
          (r.duties.loWritten = false ∧ r.duties.hiWritten = false ∧
            (r.duties.counter = .unset ∨
              (r.duties.counter = .nonceGen ∧ ∃ source startBlock, m.purpose = .decrypt source startBlock) ∨
              (∃ q, r.duties.counter = .advanced q ∧ m.purpose ≠ .other ∧ m.purpose ≠ q))) ∨
          (∃ n, m.purpose = .encrypt n ∧ ∀ k, r.duties.nonce = some k → (n, k) ∉ r.duties.encryptions) ∨
          (i = .ctrXor ∧ m.purpose = .other))) ∨
      (m.event = .host (.wr 0x008 (encode .nonceGen)) ∧ r.state.dev.seq = .idle ∧ r.state.rst = false ∧
        ∃ n k, m.purpose = .encrypt n ∧ (n, k) ∈ r.duties.encryptions)) ∧
    (∀ r', r.move m = some r' → r'.state = r.state.perform m.event)

/-- 20_memory.md section 6 (COUNTER is written in two halves) and section 7: where the host has written no half since COUNTER
last got a value, a write of one half alone is followed by no KS_GEN and no CTR_XOR, nor is a command given with neither half
written where COUNTER has its value from a reset; and after both halves a KS_GEN, and a CTR_XOR for a decryption that passes
its checks, is accepted with the counter of both. How the duty is read is log entry 16. -/
def Obligations.HalfWrittenCounterGetsNoCommand : Prop :=
  ∀ (r : HostRun) (lo hi : Word), r.state.dev.seq = .idle → r.state.rst = false → r.duties.loWritten = false →
    r.duties.hiWritten = false →
    (∀ (p q : Purpose) (i : Instr), i = .ksGen ∨ i = .ctrXor →
      r.moves [⟨p, .host (.wr 0x020 lo)⟩, ⟨q, .host (.wr 0x008 (encode i))⟩] = none ∧
      r.moves [⟨p, .host (.wr 0x024 hi)⟩, ⟨q, .host (.wr 0x008 (encode i))⟩] = none ∧
      (r.duties.counter = .unset → r.moves [⟨q, .host (.wr 0x008 (encode i))⟩] = none)) ∧
    (∃ r', r.moves [⟨.other, .host (.wr 0x020 lo)⟩, ⟨.other, .host (.wr 0x024 hi)⟩,
        ⟨.other, .host (.wr 0x008 (encode .ksGen))⟩] = some r' ∧
      r'.state.dev.seq = .busy ∧ r'.state.dev.counter.toNat = hi.toNat * 2 ^ 32 + lo.toNat) ∧
    (∀ (source : ContainerSource) (startBlock : Int), 0 ≤ startBlock → source.validated r.state.cfg = true →
      ∃ r', r.moves [⟨.other, .host (.wr 0x020 lo)⟩, ⟨.other, .host (.wr 0x024 hi)⟩,
          ⟨.decrypt source startBlock, .host (.wr 0x008 (encode .ctrXor))⟩] = some r' ∧
        r'.state.dev.seq = .busy ∧ r'.state.dev.counter.toNat = hi.toNat * 2 ^ 32 + lo.toNat)

/-- 20_memory.md section 6 (COUNTER is written in two halves) and section 7, 41_counter_engine.md section 3 (the counter of a
decryption): a duty-keeping host whose COUNTER has its value from a reset or from NONCE_GEN, and that has written neither half
since, makes any moves; a KS_GEN or CTR_XOR that it then issues for a decryption comes after a write of each half among those
moves. And every reset leaves the host there, by RST at either level or by SOFT_RESET out of IDLE or FAULT, and so does an issued
NONCE_GEN. How the duty is read is log entry 16. -/
def Obligations.DecryptionNeedsBothCounterHalves : Prop :=
  (∀ (r r' r'' : HostRun) (ms : List Move) (m : Move) (i : Instr) (source : ContainerSource) (startBlock : Int),
    r.duties.counter = .unset ∨ r.duties.counter = .nonceGen → r.duties.loWritten = false →
    r.duties.hiWritten = false → r.moves ms = some r' → i = .ksGen ∨ i = .ctrXor →
    m.purpose = .decrypt source startBlock → m.event = .host (.wr 0x008 (encode i)) → r'.state.dev.seq = .idle →
    r'.state.rst = false → r'.move m = some r'' →
    (∃ x ∈ ms, ∃ v, x.event = .host (.wr 0x020 v)) ∧ (∃ x ∈ ms, ∃ v, x.event = .host (.wr 0x024 v))) ∧
  (∀ s : State, (HostRun.start s).duties.counter = .unset ∧ (HostRun.start s).duties.loWritten = false ∧
    (HostRun.start s).duties.hiWritten = false) ∧
  (∀ (r r' : HostRun) (m : Move), r.move m = some r' →
    (m.event = .rst true ∨ (m.event = .rst false ∧ r.state.rst = true) ∨
      (m.event = .host (.wr 0x008 0x000000FF) ∧ r.state.dev.seq ≠ .busy ∧ r.state.rst = false) →
      r'.state.dev = Device.reset ∧ r'.duties.counter = .unset ∧ r'.duties.loWritten = false ∧
        r'.duties.hiWritten = false ∧ r'.duties.nonce = none) ∧
    (m.event = .host (.wr 0x008 (encode .nonceGen)) → r.state.dev.seq = .idle → r.state.rst = false →
      r'.duties.counter = .nonceGen ∧ r'.duties.loWritten = false ∧ r'.duties.hiWritten = false))

/-- 41_counter_engine.md section 4 (nonce duty), 20_memory.md section 7: in every run of a host that keeps its duties, from any
state, a KS_GEN or CTR_XOR that it issues for an encryption finds in NONCE the bytes of a draw of that run, a test bench's or
a free one, and among its moves is a NONCE_GEN made for that encryption. Nothing is said of two draws being different. How the
duty is read is log entry 16, how a draw is named log entry 2. -/
def Obligations.EncryptionsRunUnderDrawnNonces : Prop :=
  ∀ (s : State) (ms : List Move) (m : Move) (n : Nat) (r r' : HostRun) (i : Instr),
    (HostRun.start s).moves ms = some r → i = .ksGen ∨ i = .ctrXor → m.purpose = .encrypt n →
    m.event = .host (.wr 0x008 (encode i)) → r.state.dev.seq = .idle → r.state.rst = false → r.move m = some r' →
    (∃ b : Bytes 120, (b ∈ s.bench ∨ ∃ k, s.draws ≤ k ∧ k < r.state.draws ∧ b = Config.entropy k) ∧
      ∀ j < 120, r.state.dev.windowByte .nonce j = b.byte j) ∧
    (∀ p ∈ r'.duties.encryptions, ∀ q ∈ r'.duties.encryptions, p.1 = q.1 ↔ p.2 = q.2) ∧
    (∃ k, r.duties.nonce = some k ∧ (n, k) ∈ r.duties.encryptions) ∧
    (⟨.encrypt n, .host (.wr 0x008 (encode .nonceGen))⟩ : Move) ∈ ms

/-- 41_counter_engine.md section 4 (nonce duty: one NONCE_GEN per encryption), 20_memory.md section 7, said of the moves: in a
run of a host that keeps its duties, let a NONCE_GEN, KS_GEN or CTR_XOR be issued for encryption n, and after further moves
another for encryption n'. If that is a KS_GEN or CTR_XOR, the moves between issue a NONCE_GEN where the two encryptions
differ, and none where they are one. If it is a NONCE_GEN, they differ. How the duty is read is log entry 16. -/
def Obligations.EachEncryptionHasItsOwnNonceGen : Prop :=
  ∀ (s : State) (ms between : List Move) (m m' : Move) (n n' : Nat) (i i' : Instr) (r t u v : HostRun),
    (HostRun.start s).moves ms = some r → r.move m = some t → t.moves between = some u → u.move m' = some v →
    i = .nonceGen ∨ i = .ksGen ∨ i = .ctrXor → m = ⟨.encrypt n, .host (.wr 0x008 (encode i))⟩ →
    r.state.dev.seq = .idle → r.state.rst = false →
    i' = .nonceGen ∨ i' = .ksGen ∨ i' = .ctrXor → m' = ⟨.encrypt n', .host (.wr 0x008 (encode i'))⟩ →
    u.state.dev.seq = .idle → u.state.rst = false →
    (i' ≠ .nonceGen → (n ≠ n' ↔ t.drawsDuring between)) ∧ (i' = .nonceGen → n ≠ n')
end

