-- ==== Sys2Proof/Laws/Bytes.lean ====
section
/-! SUPPORT. The small lemmas of byte strings: a byte string is its bytes, and `Bytes.build` has the bytes it is
built from. -/

namespace Sys2Proof

theorem Bytes.toList_build (n : Nat) (f : Nat → Byte) : (Bytes.build n f).toList = (List.range n).map f := rfl

@[simp] theorem Bytes.byte_build (n : Nat) (f : Nat → Byte) (j : Nat) :
    (Bytes.build n f).byte j = if j < n then f j else 0 := by
  unfold Bytes.byte
  rw [Bytes.toList_build]
  by_cases h : j < n <;> simp [List.getD, h]

theorem Bytes.byte_build_of_lt {n : Nat} {f : Nat → Byte} {j : Nat} (h : j < n) :
    (Bytes.build n f).byte j = f j := by simp [h]

theorem Bytes.byte_of_le {n : Nat} (b : Bytes n) {j : Nat} (h : n ≤ j) : b.byte j = 0 := by
  unfold Bytes.byte
  simp [List.getD, h]

theorem Bytes.getElem_eq_byte {n : Nat} (b : Bytes n) {j : Nat} (h : j < n) : b[j] = b.byte j := by
  unfold Bytes.byte
  simp [List.getD, h]

/-- Two byte strings of one length are equal if their bytes are. -/
theorem Bytes.ext {n : Nat} {a b : Bytes n} (h : ∀ j < n, a.byte j = b.byte j) : a = b := by
  apply Vector.ext
  intro j hj
  rw [Bytes.getElem_eq_byte a hj, Bytes.getElem_eq_byte b hj]
  exact h j hj

@[simp] theorem Bytes.byte_xor {n : Nat} (a b : Bytes n) (j : Nat) :
    (a.xor b).byte j = a.byte j ^^^ b.byte j := by
  unfold Bytes.xor
  rw [Bytes.byte_build]
  split
  · rfl
  · next h => rw [Bytes.byte_of_le a (by omega), Bytes.byte_of_le b (by omega)]; rfl

@[simp] theorem Bytes.byte_zeros (n j : Nat) : (Bytes.zeros n).byte j = 0 := by
  simp [Bytes.zeros]

theorem Bytes.toList_getD {n : Nat} (b : Bytes n) (j : Nat) : b.toList.getD j 0 = b.byte j := rfl

/-- `(x xor e) xor e = x` (the step of 41_counter_engine.md R155). -/
theorem Bytes.xor_xor_cancel {n : Nat} (a b : Bytes n) : (a.xor b).xor b = a := by
  apply Bytes.ext
  intro j _
  simp

end Sys2Proof
end

