-- ==== Sys2Proof/Laws/Memory.lean ====
section
/-! SUPPORT. The laws of the windows' bytes: a read after a write, what a write leaves alone, and the canonical
form, which every write keeps. The two read laws hold of every list, canonical or not. -/

namespace Sys2Proof.Machine

theorem Mem.read_append (m n : Mem) (x : Nat) :
    Mem.read (m ++ n) x = if x ∈ m.map Prod.fst then m.read x else n.read x := by
  induction m with
  | nil => simp
  | cons c m ih =>
    obtain ⟨a, b⟩ := c
    by_cases h : a = x
    · simp [Mem.read, h]
    · simp [Mem.read, h, ih, Ne.symm h]

theorem Mem.read_of_not_mem (m : Mem) (x : Nat) (h : x ∉ m.map Prod.fst) : m.read x = unlistedByte := by
  induction m with
  | nil => rfl
  | cons c m ih =>
    obtain ⟨a, b⟩ := c
    simp only [List.map_cons, List.mem_cons, not_or] at h
    simp [Mem.read, Ne.symm h.1, ih h.2]

theorem Mem.read_filter (m : Mem) (p : Nat → Bool) (x : Nat) (h : p x = true) :
    Mem.read (m.filter fun c => p c.1) x = m.read x := by
  induction m with
  | nil => rfl
  | cons c m ih =>
    obtain ⟨a, b⟩ := c
    by_cases hp : p a = true
    · simp [hp, Mem.read, ih]
    · have : a ≠ x := by rintro rfl; exact hp h
      simp [hp, Mem.read, this, ih]

/-- The entries that a write lays down lie in the range written. -/
theorem Mem.mem_cells {x : Nat} {bs : List Byte} {c : Host.Cell} (h : c ∈ Mem.cells x bs) :
    x ≤ c.1 ∧ c.1 < x + bs.length ∧ c.2 ≠ unlistedByte := by
  induction bs generalizing x with
  | nil => simp [Mem.cells] at h
  | cons b bs ih =>
    unfold Mem.cells at h
    split at h
    · have := ih h
      simp only [List.length_cons]
      exact ⟨by omega, by omega, this.2.2⟩
    · next hb =>
      rcases List.mem_cons.mp h with rfl | h
      · exact ⟨Nat.le_refl _, by simp, hb⟩
      · have := ih h
        simp only [List.length_cons]
        exact ⟨by omega, by omega, this.2.2⟩

theorem Mem.read_cells (x : Nat) (bs : List Byte) (y : Nat) (h : x ≤ y) :
    Mem.read (Mem.cells x bs) y = bs.getD (y - x) unlistedByte := by
  induction bs generalizing x with
  | nil => simp [Mem.cells, Mem.read]
  | cons b bs ih =>
    unfold Mem.cells
    by_cases hy : y = x
    · subst hy
      split
      · next hb =>
        rw [Mem.read_of_not_mem]
        · simp [hb]
        · intro hm
          obtain ⟨c, hc, hx⟩ := List.mem_map.mp hm
          have := Mem.mem_cells hc
          omega
      · simp [Mem.read]
    · have e : y - x = (y - (x + 1)) + 1 := by omega
      split
      · rw [ih (x + 1) (by omega), e]; simp
      · rw [Mem.read, if_neg (Ne.symm hy), ih (x + 1) (by omega), e]; simp

/-- What a write leaves alone: every offset outside the range written reads as before. -/
theorem Mem.read_writeAll_outside (m : Mem) (x : Nat) (bs : List Byte) (y : Nat)
    (h : y < x ∨ x + bs.length ≤ y) : (m.writeAll x bs).read y = m.read y := by
  unfold Mem.writeAll
  rcases h with h | h
  · rw [List.append_assoc, Mem.read_append]
    split
    · exact Mem.read_filter m (fun a => decide (a < x)) y (by simpa using h)
    · next hn =>
      have h1 : Mem.read m y = unlistedByte := by
        rw [← Mem.read_filter m (fun a => decide (a < x)) y (by simpa using h)]
        exact Mem.read_of_not_mem _ _ hn
      rw [h1]
      apply Mem.read_of_not_mem
      intro hm
      obtain ⟨c, hc, rfl⟩ := List.mem_map.mp hm
      rcases List.mem_append.mp hc with hc | hc
      · have := Mem.mem_cells hc; omega
      · have := (List.mem_filter.mp hc).2
        simp only [decide_eq_true_eq] at this
        omega
  · rw [Mem.read_append, if_neg]
    · exact Mem.read_filter m (fun a => decide (x + bs.length ≤ a)) y (by simpa using h)
    · intro hm
      obtain ⟨c, hc, rfl⟩ := List.mem_map.mp hm
      rcases List.mem_append.mp hc with hc | hc
      · have := (List.mem_filter.mp hc).2
        simp only [decide_eq_true_eq] at this
        omega
      · have := Mem.mem_cells hc; omega

/-- A read after a write: an offset in the range written reads the byte written there. -/
theorem Mem.read_writeAll_inside (m : Mem) (x : Nat) (bs : List Byte) (y : Nat)
    (h1 : x ≤ y) (h2 : y < x + bs.length) : (m.writeAll x bs).read y = bs.getD (y - x) 0 := by
  unfold Mem.writeAll
  have hlow : y ∉ (m.filter fun c => decide (c.1 < x)).map Prod.fst := by
    intro hm
    obtain ⟨c, hc, rfl⟩ := List.mem_map.mp hm
    have := (List.mem_filter.mp hc).2
    simp only [decide_eq_true_eq] at this
    omega
  have hhigh : y ∉ (m.filter fun c => decide (x + bs.length ≤ c.1)).map Prod.fst := by
    intro hm
    obtain ⟨c, hc, rfl⟩ := List.mem_map.mp hm
    have := (List.mem_filter.mp hc).2
    simp only [decide_eq_true_eq] at this
    omega
  rw [List.append_assoc, Mem.read_append, if_neg hlow, Mem.read_append]
  split
  · exact Mem.read_cells x bs y h1
  · next hn =>
    rw [Mem.read_of_not_mem _ _ hhigh, ← Mem.read_of_not_mem _ _ hn]
    exact Mem.read_cells x bs y h1

/-- A read after a write, in one line. -/
theorem Mem.read_writeAll (m : Mem) (x : Nat) (bs : List Byte) (y : Nat) :
    (m.writeAll x bs).read y = if x ≤ y ∧ y < x + bs.length then bs.getD (y - x) 0 else m.read y := by
  split
  · next h => exact Mem.read_writeAll_inside m x bs y h.1 h.2
  · next h => exact Mem.read_writeAll_outside m x bs y (by omega)

theorem Mem.cells_pairwise (x : Nat) (bs : List Byte) :
    (Mem.cells x bs).Pairwise (fun c c' => c.1 < c'.1) := by
  induction bs generalizing x with
  | nil => simp [Mem.cells]
  | cons b bs ih =>
    unfold Mem.cells
    split
    · exact ih _
    · refine List.pairwise_cons.mpr ⟨fun c hc => ?_, ih _⟩
      have := Mem.mem_cells hc
      simp only
      omega

/-- Every write keeps the canonical form. -/
theorem Mem.wf_writeAll {m : Mem} (h : m.wf) (x : Nat) (bs : List Byte) : (m.writeAll x bs).wf := by
  obtain ⟨hs, hb⟩ := h
  unfold Mem.writeAll
  refine ⟨?_, ?_⟩
  · refine List.pairwise_append.mpr ⟨List.pairwise_append.mpr ⟨hs.filter _, Mem.cells_pairwise x bs, ?_⟩, hs.filter _, ?_⟩
    · intro c hc c' hc'
      have h1 := (List.mem_filter.mp hc).2
      have h2 := Mem.mem_cells hc'
      simp only [decide_eq_true_eq] at h1
      omega
    · intro c hc c' hc'
      have h2 := (List.mem_filter.mp hc').2
      simp only [decide_eq_true_eq] at h2
      rcases List.mem_append.mp hc with hc | hc
      · have h1 := (List.mem_filter.mp hc).2
        simp only [decide_eq_true_eq] at h1
        omega
      · have h1 := Mem.mem_cells hc
        omega
  · intro c hc
    rcases List.mem_append.mp hc with hc | hc
    · rcases List.mem_append.mp hc with hc | hc
      · exact hb c (List.mem_filter.mp hc).1
      · exact (Mem.mem_cells hc).2.2
    · exact hb c (List.mem_filter.mp hc).1

/-- An entry after a write is an entry from before or lies in the range written. -/
theorem Mem.mem_writeAll {m : Mem} {x : Nat} {bs : List Byte} {c : Host.Cell} (h : c ∈ m.writeAll x bs) :
    c ∈ m ∨ (x ≤ c.1 ∧ c.1 < x + bs.length) := by
  rcases List.mem_append.mp h with h | h
  · rcases List.mem_append.mp h with h | h
    · exact .inl (List.mem_filter.mp h).1
    · have := Mem.mem_cells h; exact .inr ⟨this.1, this.2.1⟩
  · exact .inl (List.mem_filter.mp h).1

/-- The windows' bytes after reset are in canonical form. -/
theorem reset_mem_wf : State.reset.dev.mem.wf := by decide

/-- Two canonical lists that read the same everywhere are the same list. -/
theorem Mem.wf_ext {m n : Mem} (hm : m.wf) (hn : n.wf) (h : ∀ x, m.read x = n.read x) : m = n := by
  induction m generalizing n with
  | nil =>
    cases n with
    | nil => rfl
    | cons c n =>
      have := h c.1
      simp only [Mem.read, if_pos] at this
      exact absurd this.symm (hn.2 c (by simp))
  | cons c m ih =>
    obtain ⟨a, b⟩ := c
    have hmt : Mem.wf m := ⟨(List.pairwise_cons.mp hm.1).2, fun c hc => hm.2 c (by simp [hc])⟩
    have hma := (List.pairwise_cons.mp hm.1).1
    cases n with
    | nil =>
      have := h a
      simp only [Mem.read, if_pos] at this
      exact absurd this (hm.2 (a, b) (by simp))
    | cons c' n =>
      obtain ⟨a', b'⟩ := c'
      have hnt : Mem.wf n := ⟨(List.pairwise_cons.mp hn.1).2, fun c hc => hn.2 c (by simp [hc])⟩
      have hna := (List.pairwise_cons.mp hn.1).1
      have low : ∀ (k : Mem) (x : Nat), (∀ c ∈ k, x < c.1) → k.read x = unlistedByte := by
        intro k x hk
        apply Mem.read_of_not_mem
        intro hx
        obtain ⟨c, hc, rfl⟩ := List.mem_map.mp hx
        exact absurd (hk c hc) (by omega)
      have haa : a = a' := by
        rcases Nat.lt_trichotomy a a' with hlt | heq | hgt
        · have := h a
          rw [low ((a', b') :: n) a (by
            intro c hc
            rcases List.mem_cons.mp hc with rfl | hc
            · exact hlt
            · exact Nat.lt_trans hlt (hna c hc))] at this
          simp only [Mem.read, if_pos] at this
          exact absurd this (hm.2 (a, b) (by simp))
        · exact heq
        · have := h a'
          rw [low ((a, b) :: m) a' (by
            intro c hc
            rcases List.mem_cons.mp hc with rfl | hc
            · exact hgt
            · exact Nat.lt_trans hgt (hma c hc))] at this
          simp only [Mem.read, if_pos] at this
          exact absurd this.symm (hn.2 (a', b') (by simp))
      subst haa
      have hbb : b = b' := by simpa [Mem.read] using h a
      subst hbb
      congr 1
      apply ih hmt hnt
      intro x
      by_cases hx : a = x
      · subst hx
        rw [low m a (fun c hc => hma c hc), low n a (fun c hc => hna c hc)]
      · simpa [Mem.read, hx] using h x

/-! ### Windows -/

@[simp] theorem Device.byte_window (d : Device) (w : Window) (n j : Nat) :
    (d.window w n).byte j = if j < n then d.windowByte w j else 0 := by
  simp [Device.window, Mem.readAll, Device.windowByte]

/-- What storing a byte string into a window does to every byte of the register block. -/
theorem Device.read_storeWindow {n : Nat} (d : Device) (w : Window) (b : Bytes n) (x : Nat) :
    (d.storeWindow w b).mem.read x = if w.base ≤ x ∧ x < w.base + n then b.byte (x - w.base) else d.mem.read x := by
  unfold Device.storeWindow
  rw [Mem.read_writeAll, Vector.length_toList]
  rfl

end Sys2Proof.Machine
end

