-- ==== Sys2Proof/Laws/State.lean ====
section
/-! SUPPORT. One lemma per field per update of the two state records, true by rfl, so that no later proof unfolds a
record update. -/

namespace Sys2Proof.Machine

/-! ### setCompleted -/

@[simp] theorem Device.setCompleted_seq (d : Device) :
    (d.setCompleted).seq = .idle := rfl
@[simp] theorem Device.setCompleted_pending (d : Device) :
    (d.setCompleted).pending = d.pending := rfl
@[simp] theorem Device.setCompleted_done (d : Device) :
    (d.setCompleted).done = true := rfl
@[simp] theorem Device.setCompleted_errcode (d : Device) :
    (d.setCompleted).errcode = d.errcode := rfl
@[simp] theorem Device.setCompleted_rounds (d : Device) :
    (d.setCompleted).rounds = d.rounds := rfl
@[simp] theorem Device.setCompleted_blockSize (d : Device) :
    (d.setCompleted).blockSize = d.blockSize := rfl
@[simp] theorem Device.setCompleted_chunkLen (d : Device) :
    (d.setCompleted).chunkLen = d.chunkLen := rfl
@[simp] theorem Device.setCompleted_keyLen (d : Device) :
    (d.setCompleted).keyLen = d.keyLen := rfl
@[simp] theorem Device.setCompleted_counter (d : Device) :
    (d.setCompleted).counter = d.counter := rfl
@[simp] theorem Device.setCompleted_mem (d : Device) :
    (d.setCompleted).mem = d.mem := rfl

/-! ### setFault -/

@[simp] theorem Device.setFault_seq (d : Device) (c : FaultCode) :
    (d.setFault c).seq = .fault := rfl
@[simp] theorem Device.setFault_pending (d : Device) (c : FaultCode) :
    (d.setFault c).pending = d.pending := rfl
@[simp] theorem Device.setFault_done (d : Device) (c : FaultCode) :
    (d.setFault c).done = d.done := rfl
@[simp] theorem Device.setFault_errcode (d : Device) (c : FaultCode) :
    (d.setFault c).errcode = c.code := rfl
@[simp] theorem Device.setFault_rounds (d : Device) (c : FaultCode) :
    (d.setFault c).rounds = d.rounds := rfl
@[simp] theorem Device.setFault_blockSize (d : Device) (c : FaultCode) :
    (d.setFault c).blockSize = d.blockSize := rfl
@[simp] theorem Device.setFault_chunkLen (d : Device) (c : FaultCode) :
    (d.setFault c).chunkLen = d.chunkLen := rfl
@[simp] theorem Device.setFault_keyLen (d : Device) (c : FaultCode) :
    (d.setFault c).keyLen = d.keyLen := rfl
@[simp] theorem Device.setFault_counter (d : Device) (c : FaultCode) :
    (d.setFault c).counter = d.counter := rfl
@[simp] theorem Device.setFault_mem (d : Device) (c : FaultCode) :
    (d.setFault c).mem = d.mem := rfl

/-! ### setAccepted -/

@[simp] theorem Device.setAccepted_seq (d : Device) (v : Word) :
    (d.setAccepted v).seq = .busy := rfl
@[simp] theorem Device.setAccepted_pending (d : Device) (v : Word) :
    (d.setAccepted v).pending = v := rfl
@[simp] theorem Device.setAccepted_done (d : Device) (v : Word) :
    (d.setAccepted v).done = false := rfl
@[simp] theorem Device.setAccepted_errcode (d : Device) (v : Word) :
    (d.setAccepted v).errcode = d.errcode := rfl
@[simp] theorem Device.setAccepted_rounds (d : Device) (v : Word) :
    (d.setAccepted v).rounds = d.rounds := rfl
@[simp] theorem Device.setAccepted_blockSize (d : Device) (v : Word) :
    (d.setAccepted v).blockSize = d.blockSize := rfl
@[simp] theorem Device.setAccepted_chunkLen (d : Device) (v : Word) :
    (d.setAccepted v).chunkLen = d.chunkLen := rfl
@[simp] theorem Device.setAccepted_keyLen (d : Device) (v : Word) :
    (d.setAccepted v).keyLen = d.keyLen := rfl
@[simp] theorem Device.setAccepted_counter (d : Device) (v : Word) :
    (d.setAccepted v).counter = d.counter := rfl
@[simp] theorem Device.setAccepted_mem (d : Device) (v : Word) :
    (d.setAccepted v).mem = d.mem := rfl

/-! ### storeWindow -/

@[simp] theorem Device.storeWindow_seq {n : Nat} (d : Device) (w : Window) (b : Bytes n) :
    (d.storeWindow w b).seq = d.seq := rfl
@[simp] theorem Device.storeWindow_pending {n : Nat} (d : Device) (w : Window) (b : Bytes n) :
    (d.storeWindow w b).pending = d.pending := rfl
@[simp] theorem Device.storeWindow_done {n : Nat} (d : Device) (w : Window) (b : Bytes n) :
    (d.storeWindow w b).done = d.done := rfl
@[simp] theorem Device.storeWindow_errcode {n : Nat} (d : Device) (w : Window) (b : Bytes n) :
    (d.storeWindow w b).errcode = d.errcode := rfl
@[simp] theorem Device.storeWindow_rounds {n : Nat} (d : Device) (w : Window) (b : Bytes n) :
    (d.storeWindow w b).rounds = d.rounds := rfl
@[simp] theorem Device.storeWindow_blockSize {n : Nat} (d : Device) (w : Window) (b : Bytes n) :
    (d.storeWindow w b).blockSize = d.blockSize := rfl
@[simp] theorem Device.storeWindow_chunkLen {n : Nat} (d : Device) (w : Window) (b : Bytes n) :
    (d.storeWindow w b).chunkLen = d.chunkLen := rfl
@[simp] theorem Device.storeWindow_keyLen {n : Nat} (d : Device) (w : Window) (b : Bytes n) :
    (d.storeWindow w b).keyLen = d.keyLen := rfl
@[simp] theorem Device.storeWindow_counter {n : Nat} (d : Device) (w : Window) (b : Bytes n) :
    (d.storeWindow w b).counter = d.counter := rfl
@[simp] theorem Device.storeWindow_mem {n : Nat} (d : Device) (w : Window) (b : Bytes n) :
    (d.storeWindow w b).mem = d.mem.writeAll w.base b.toList := rfl

/-! ### writeWindowWord -/

@[simp] theorem Device.writeWindowWord_seq (d : Device) (cfg : Config) (w : Window) (k : Nat) (v : Word) :
    (d.writeWindowWord cfg w k v).seq = d.seq := rfl
@[simp] theorem Device.writeWindowWord_pending (d : Device) (cfg : Config) (w : Window) (k : Nat) (v : Word) :
    (d.writeWindowWord cfg w k v).pending = d.pending := rfl
@[simp] theorem Device.writeWindowWord_done (d : Device) (cfg : Config) (w : Window) (k : Nat) (v : Word) :
    (d.writeWindowWord cfg w k v).done = d.done := rfl
@[simp] theorem Device.writeWindowWord_errcode (d : Device) (cfg : Config) (w : Window) (k : Nat) (v : Word) :
    (d.writeWindowWord cfg w k v).errcode = d.errcode := rfl
@[simp] theorem Device.writeWindowWord_rounds (d : Device) (cfg : Config) (w : Window) (k : Nat) (v : Word) :
    (d.writeWindowWord cfg w k v).rounds = d.rounds := rfl
@[simp] theorem Device.writeWindowWord_blockSize (d : Device) (cfg : Config) (w : Window) (k : Nat) (v : Word) :
    (d.writeWindowWord cfg w k v).blockSize = d.blockSize := rfl
@[simp] theorem Device.writeWindowWord_chunkLen (d : Device) (cfg : Config) (w : Window) (k : Nat) (v : Word) :
    (d.writeWindowWord cfg w k v).chunkLen = d.chunkLen := rfl
@[simp] theorem Device.writeWindowWord_keyLen (d : Device) (cfg : Config) (w : Window) (k : Nat) (v : Word) :
    (d.writeWindowWord cfg w k v).keyLen = d.keyLen := rfl
@[simp] theorem Device.writeWindowWord_counter (d : Device) (cfg : Config) (w : Window) (k : Nat) (v : Word) :
    (d.writeWindowWord cfg w k v).counter = d.counter := rfl
@[simp] theorem Device.writeWindowWord_mem (d : Device) (cfg : Config) (w : Window) (k : Nat) (v : Word) :
    (d.writeWindowWord cfg w k v).mem = d.mem.writeAll (w.base + 4 * k) ((bytesOfWord v).take (w.size cfg - 4 * k)) := rfl

/-! ### faultEntry -/

@[simp] theorem State.faultEntry_dev (s : State) (c : FaultCode) :
    (s.faultEntry c).dev = s.dev.setFault c := rfl
@[simp] theorem State.faultEntry_rst (s : State) (c : FaultCode) :
    (s.faultEntry c).rst = s.rst := rfl
@[simp] theorem State.faultEntry_cfg (s : State) (c : FaultCode) :
    (s.faultEntry c).cfg = s.cfg := rfl
@[simp] theorem State.faultEntry_draws (s : State) (c : FaultCode) :
    (s.faultEntry c).draws = s.draws := rfl
@[simp] theorem State.faultEntry_bench (s : State) (c : FaultCode) :
    (s.faultEntry c).bench = s.bench := rfl
@[simp] theorem State.faultEntry_events (s : State) (c : FaultCode) :
    (s.faultEntry c).events = s.events := rfl
@[simp] theorem State.faultEntry_responses (s : State) (c : FaultCode) :
    (s.faultEntry c).responses = s.responses := rfl
@[simp] theorem State.faultEntry_faults (s : State) (c : FaultCode) :
    (s.faultEntry c).faults = c :: s.faults := rfl

/-! ### resetDevice -/

@[simp] theorem State.resetDevice_dev (s : State) :
    (s.resetDevice).dev = Device.reset := rfl
@[simp] theorem State.resetDevice_rst (s : State) :
    (s.resetDevice).rst = s.rst := rfl
@[simp] theorem State.resetDevice_cfg (s : State) :
    (s.resetDevice).cfg = s.cfg := rfl
@[simp] theorem State.resetDevice_draws (s : State) :
    (s.resetDevice).draws = s.draws := rfl
@[simp] theorem State.resetDevice_bench (s : State) :
    (s.resetDevice).bench = s.bench := rfl
@[simp] theorem State.resetDevice_events (s : State) :
    (s.resetDevice).events = s.events := rfl
@[simp] theorem State.resetDevice_responses (s : State) :
    (s.resetDevice).responses = s.responses := rfl
@[simp] theorem State.resetDevice_faults (s : State) :
    (s.resetDevice).faults = s.faults := rfl

/-! ### complete -/

@[simp] theorem State.complete_dev (s : State) :
    (s.complete).dev = s.dev.setCompleted := rfl
@[simp] theorem State.complete_rst (s : State) :
    (s.complete).rst = s.rst := rfl
@[simp] theorem State.complete_cfg (s : State) :
    (s.complete).cfg = s.cfg := rfl
@[simp] theorem State.complete_draws (s : State) :
    (s.complete).draws = s.draws := rfl
@[simp] theorem State.complete_bench (s : State) :
    (s.complete).bench = s.bench := rfl
@[simp] theorem State.complete_events (s : State) :
    (s.complete).events = s.events := rfl
@[simp] theorem State.complete_responses (s : State) :
    (s.complete).responses = s.responses := rfl
@[simp] theorem State.complete_faults (s : State) :
    (s.complete).faults = s.faults := rfl

/-! ### accept -/

@[simp] theorem State.accept_dev (s : State) (v : Word) :
    (s.accept v).dev = s.dev.setAccepted v := rfl
@[simp] theorem State.accept_rst (s : State) (v : Word) :
    (s.accept v).rst = s.rst := rfl
@[simp] theorem State.accept_cfg (s : State) (v : Word) :
    (s.accept v).cfg = s.cfg := rfl
@[simp] theorem State.accept_draws (s : State) (v : Word) :
    (s.accept v).draws = s.draws := rfl
@[simp] theorem State.accept_bench (s : State) (v : Word) :
    (s.accept v).bench = s.bench := rfl
@[simp] theorem State.accept_events (s : State) (v : Word) :
    (s.accept v).events = s.events := rfl
@[simp] theorem State.accept_responses (s : State) (v : Word) :
    (s.accept v).responses = s.responses := rfl
@[simp] theorem State.accept_faults (s : State) (v : Word) :
    (s.accept v).faults = s.faults := rfl

/-! ### respond -/

@[simp] theorem State.respond_dev (s : State) (r : Response) :
    (s.respond r).dev = s.dev := rfl
@[simp] theorem State.respond_rst (s : State) (r : Response) :
    (s.respond r).rst = s.rst := rfl
@[simp] theorem State.respond_cfg (s : State) (r : Response) :
    (s.respond r).cfg = s.cfg := rfl
@[simp] theorem State.respond_draws (s : State) (r : Response) :
    (s.respond r).draws = s.draws := rfl
@[simp] theorem State.respond_bench (s : State) (r : Response) :
    (s.respond r).bench = s.bench := rfl
@[simp] theorem State.respond_events (s : State) (r : Response) :
    (s.respond r).events = s.events := rfl
@[simp] theorem State.respond_responses (s : State) (r : Response) :
    (s.respond r).responses = r :: s.responses := rfl
@[simp] theorem State.respond_faults (s : State) (r : Response) :
    (s.respond r).faults = s.faults := rfl

/-! ### popEvent -/

@[simp] theorem State.popEvent_dev (s : State) :
    (s.popEvent).dev = s.dev := rfl
@[simp] theorem State.popEvent_rst (s : State) :
    (s.popEvent).rst = s.rst := rfl
@[simp] theorem State.popEvent_cfg (s : State) :
    (s.popEvent).cfg = s.cfg := rfl
@[simp] theorem State.popEvent_draws (s : State) :
    (s.popEvent).draws = s.draws := rfl
@[simp] theorem State.popEvent_bench (s : State) :
    (s.popEvent).bench = s.bench := rfl
@[simp] theorem State.popEvent_events (s : State) :
    (s.popEvent).events = s.events.tail := rfl
@[simp] theorem State.popEvent_responses (s : State) :
    (s.popEvent).responses = s.responses := rfl
@[simp] theorem State.popEvent_faults (s : State) :
    (s.popEvent).faults = s.faults := rfl

/-! ### drawTaken -/

@[simp] theorem State.drawTaken_dev (s : State) : s.drawTaken.dev = s.dev := by
  unfold State.drawTaken; split <;> rfl
@[simp] theorem State.drawTaken_rst (s : State) : s.drawTaken.rst = s.rst := by
  unfold State.drawTaken; split <;> rfl
@[simp] theorem State.drawTaken_cfg (s : State) : s.drawTaken.cfg = s.cfg := by
  unfold State.drawTaken; split <;> rfl
@[simp] theorem State.drawTaken_events (s : State) : s.drawTaken.events = s.events := by
  unfold State.drawTaken; split <;> rfl
@[simp] theorem State.drawTaken_responses (s : State) : s.drawTaken.responses = s.responses := by
  unfold State.drawTaken; split <;> rfl
@[simp] theorem State.drawTaken_faults (s : State) : s.drawTaken.faults = s.faults := by
  unfold State.drawTaken; split <;> rfl

/-! ### Device.reset and State.reset -/

@[simp] theorem Device.reset_seq : Device.reset.seq = .idle := rfl
@[simp] theorem Device.reset_pending : Device.reset.pending = 0 := rfl
@[simp] theorem Device.reset_done : Device.reset.done = false := rfl
@[simp] theorem Device.reset_errcode : Device.reset.errcode = 0 := rfl
@[simp] theorem Device.reset_rounds : Device.reset.rounds = 0 := rfl
@[simp] theorem Device.reset_blockSize : Device.reset.blockSize = 0 := rfl
@[simp] theorem Device.reset_chunkLen : Device.reset.chunkLen = 0 := rfl
@[simp] theorem Device.reset_keyLen : Device.reset.keyLen = 0 := rfl
@[simp] theorem Device.reset_counter : Device.reset.counter = 0 := rfl
@[simp] theorem Device.reset_mem : Device.reset.mem = [] := rfl
@[simp] theorem State.reset_dev : State.reset.dev = Device.reset := rfl
@[simp] theorem State.reset_rst : State.reset.rst = false := rfl
@[simp] theorem State.reset_cfg : State.reset.cfg = Config.default := rfl
@[simp] theorem State.reset_draws : State.reset.draws = 0 := rfl
@[simp] theorem State.reset_bench : State.reset.bench = [] := rfl
@[simp] theorem State.reset_events : State.reset.events = [] := rfl
@[simp] theorem State.reset_responses : State.reset.responses = [] := rfl
@[simp] theorem State.reset_faults : State.reset.faults = [] := rfl

@[simp] theorem Mem.read_nil (x : Nat) : Mem.read [] x = 0 := rfl

@[simp] theorem Device.windowByte_reset (w : Window) (j : Nat) : Device.reset.windowByte w j = 0 := rfl

end Sys2Proof.Machine
end

