-- ==== Sys2Proof/Laws/Ops.lean ====
section
/-! SUPPORT. One lemma for each shared operation that says once everything it can do: the key operand, the checks of
CTR_XOR, the end of an ENGINE step, the meanings of the commands, the ENGINE's turn, a host access, the reset input and
the whole step. Later proofs cite these instead of unfolding. -/

namespace Sys2Proof.Machine

/-! ### Operands and checks -/

theorem Device.keyOperand_empty {d : Device} (h : d.keyLen = 0) : d.keyOperand = .error .keyEmpty := by
  simp [Device.keyOperand, h]

theorem Device.keyOperand_ok {d : Device} (h : d.keyLen ≠ 0) : d.keyOperand = .ok d.expandedKey := by
  unfold Device.keyOperand
  exact if_neg h

/-- Everything KEY_OPERAND can answer. -/
theorem Device.keyOperand_cases (d : Device) :
    (d.keyLen = 0 ∧ d.keyOperand = .error .keyEmpty) ∨ (d.keyLen ≠ 0 ∧ d.keyOperand = .ok d.expandedKey) := by
  by_cases h : d.keyLen = 0
  · exact .inl ⟨h, Device.keyOperand_empty h⟩
  · exact .inr ⟨h, Device.keyOperand_ok h⟩

/-- When CTR_XOR runs, and with which key (41_counter_engine.md R162). -/
theorem ctrXorChecks_ok {s : State} (hk : s.dev.keyLen ≠ 0) (hb : s.dev.blockSize ≠ 0)
    (hb' : s.dev.blockSize.toNat ≤ s.cfg.blockSizeMax) (hc : s.dev.chunkLen ≠ 0)
    (hc' : s.dev.chunkLen.toNat ≤ s.dev.blockSize.toNat) (hn : s.dev.counter.toNat ≠ 2 ^ 64 - 1) :
    ctrXorChecks s = .ok s.dev.expandedKey := by
  unfold ctrXorChecks
  rw [Device.keyOperand_ok hk]
  simp only
  rw [if_neg (by simp only [hb, false_or]; omega), if_neg (by simp only [hc, false_or]; omega), if_neg hn]

/-- Everything the checks of CTR_XOR can answer. -/
theorem ctrXorChecks_cases (s : State) :
    (∃ c, ctrXorChecks s = .error c ∧ c ≠ .badCmd ∧ c ≠ .mixLength) ∨
      (ctrXorChecks s = .ok s.dev.expandedKey ∧ s.dev.keyLen ≠ 0 ∧ s.dev.blockSize ≠ 0 ∧
        s.dev.blockSize.toNat ≤ s.cfg.blockSizeMax ∧ s.dev.chunkLen ≠ 0 ∧
        s.dev.chunkLen.toNat ≤ s.dev.blockSize.toNat ∧ s.dev.counter.toNat ≠ 2 ^ 64 - 1) := by
  unfold ctrXorChecks
  rcases s.dev.keyOperand_cases with ⟨hk, he⟩ | ⟨hk, he⟩
  · exact .inl ⟨.keyEmpty, by rw [he], by decide, by decide⟩
  rw [he]
  simp only
  split
  · exact .inl ⟨_, rfl, by decide, by decide⟩
  split
  · exact .inl ⟨_, rfl, by decide, by decide⟩
  split
  · exact .inl ⟨_, rfl, by decide, by decide⟩
  next h1 h2 h3 =>
    rw [not_or, Nat.not_lt] at h1 h2
    exact .inr ⟨rfl, hk, h1.1, h1.2, h2.1, h2.2, h3⟩

/-! ### The meanings -/

theorem exec_nop (s : State) : exec .nop s = .next s.complete := rfl

theorem exec_softReset (s : State) : exec .softReset s = .next s.resetDevice := rfl

theorem exec_nonceGen (s : State) :
    exec .nonceGen s =
      .next ({ s.drawTaken with dev := { s.dev.storeWindow .nonce s.drawBytes with counter := 0 } } : State).complete :=
  rfl

theorem exec_feistel_ok {s : State} (h : s.dev.keyLen ≠ 0) :
    exec .feistel s =
      .next ({ s with dev := s.dev.storeWindow .ks (s.feistelOfFbuf s.dev.expandedKey) } : State).complete := by
  show s.finish (feistelRule s) = _
  unfold feistelRule
  rw [Device.keyOperand_ok h]
  rfl

theorem exec_ksGen_ok {s : State} (h : s.dev.keyLen ≠ 0) :
    exec .ksGen s =
      .next ({ s with dev := s.dev.storeWindow .ks (s.currentKeystream s.dev.expandedKey) } : State).complete := by
  show s.finish (ksGenRule s) = _
  unfold ksGenRule
  rw [Device.keyOperand_ok h]
  rfl

theorem exec_feistel_keyEmpty {s : State} (h : s.dev.keyLen = 0) : exec .feistel s = .next (s.faultEntry .keyEmpty) := by
  show s.finish (feistelRule s) = _
  unfold feistelRule
  rw [Device.keyOperand_empty h]
  rfl

theorem exec_ksGen_keyEmpty {s : State} (h : s.dev.keyLen = 0) : exec .ksGen s = .next (s.faultEntry .keyEmpty) := by
  show s.finish (ksGenRule s) = _
  unfold ksGenRule
  rw [Device.keyOperand_empty h]
  rfl

/-- The state in which CTR_XOR leaves the machine when its checks pass (41_counter_engine.md R162). -/
def State.afterCtrXor (s : State) : State :=
  State.complete { s with
    dev := { (s.dev.storeWindow .data (s.currentOutput s.dev.expandedKey)).storeWindow .ks
      (s.currentKeystream s.dev.expandedKey) with counter := s.dev.counter + 1 } }

theorem exec_ctrXor_ok {s : State} (h : ctrXorChecks s = .ok s.dev.expandedKey) :
    exec .ctrXor s = .next s.afterCtrXor := by
  show s.finish (ctrXorRule s) = _
  unfold ctrXorRule
  rw [h]
  rfl

theorem exec_ctrXor_fault {s : State} {c : FaultCode} (h : ctrXorChecks s = .error c) :
    exec .ctrXor s = .next (s.faultEntry c) := by
  show s.finish (ctrXorRule s) = _
  unfold ctrXorRule
  rw [h]
  rfl

/-- What every byte of the register block is after a CTR_XOR that completed. -/
theorem State.afterCtrXor_read (s : State) (x : Nat) :
    s.afterCtrXor.dev.mem.read x =
      if 0x180 ≤ x ∧ x < 0x180 + 128 then (s.currentKeystream s.dev.expandedKey).byte (x - 0x180)
      else if 0x400 ≤ x ∧ x < 0x400 + s.dev.blockSize.toNat then (s.currentOutput s.dev.expandedKey).byte (x - 0x400)
      else s.dev.mem.read x := by
  show ((s.dev.storeWindow .data _).storeWindow .ks _).mem.read x = _
  rw [Device.read_storeWindow, Device.read_storeWindow]
  rfl

/-- Everything a command can do: it is SOFT_RESET and resets; or it raises a fault and nothing else happens; or it
completes, having stored to the windows it names and to COUNTER. -/
theorem exec_cases (i : Instr) (s : State) :
    (i = .softReset ∧ exec i s = .next s.resetDevice) ∨
    (∃ c, exec i s = .next (s.faultEntry c) ∧ c ≠ .mixLength) ∨
    (i = .nop ∧ exec i s = .next s.complete) ∨
    (i = .nonceGen ∧ exec i s =
      .next ({ s.drawTaken with dev := { s.dev.storeWindow .nonce s.drawBytes with counter := 0 } } : State).complete) ∨
    ((i = .feistel ∨ i = .ksGen) ∧ ∃ b : Bytes 128, exec i s =
      .next ({ s with dev := s.dev.storeWindow .ks b } : State).complete) ∨
    (i = .ctrXor ∧ s.dev.blockSize.toNat ≤ s.cfg.blockSizeMax ∧ exec i s = .next s.afterCtrXor) := by
  cases i with
  | softReset => exact .inl ⟨rfl, rfl⟩
  | nop => exact .inr (.inr (.inl ⟨rfl, rfl⟩))
  | nonceGen => exact .inr (.inr (.inr (.inl ⟨rfl, rfl⟩)))
  | feistel =>
    by_cases h : s.dev.keyLen = 0
    · exact .inr (.inl ⟨_, exec_feistel_keyEmpty h, by decide⟩)
    · exact .inr (.inr (.inr (.inr (.inl ⟨.inl rfl, _, exec_feistel_ok h⟩))))
  | ksGen =>
    by_cases h : s.dev.keyLen = 0
    · exact .inr (.inl ⟨_, exec_ksGen_keyEmpty h, by decide⟩)
    · exact .inr (.inr (.inr (.inr (.inl ⟨.inr rfl, _, exec_ksGen_ok h⟩))))
  | ctrXor =>
    rcases ctrXorChecks_cases s with ⟨c, h, _, hm⟩ | ⟨h, _, _, hb, _⟩
    · exact .inr (.inl ⟨c, exec_ctrXor_fault h, hm⟩)
    · exact .inr (.inr (.inr (.inr (.inr ⟨rfl, hb, exec_ctrXor_ok h⟩))))

/-- A command always takes a next state. -/
theorem exec_next (i : Instr) (s : State) : ∃ t, exec i s = .next t := by
  rcases exec_cases i s with ⟨_, h⟩ | ⟨_, h, _⟩ | ⟨_, h⟩ | ⟨_, h⟩ | ⟨_, _, h⟩ | ⟨_, _, h⟩ <;> exact ⟨_, h⟩

/-! ### The ENGINE's turn -/

/-- Everything the ENGINE's turn can do (20_memory.md R68, 30_encoding.md R91). -/
theorem engineTurn_cases (s : State) :
    (s.engineEnabled = false ∧ engineTurn s = .next s) ∨
    (s.engineEnabled = true ∧ ∃ i, i ≠ .softReset ∧ decode s.dev.pending = .ok i ∧ engineTurn s = exec i s) ∨
    (s.engineEnabled = true ∧ (∀ i, decode s.dev.pending = .ok i → i = .softReset) ∧
      engineTurn s = .next (s.faultEntry .badCmd)) := by
  unfold engineTurn
  cases he : s.engineEnabled
  · exact .inl ⟨rfl, rfl⟩
  · right
    simp only [if_true, engineStep, engineCommand]
    cases hd : decode s.dev.pending with
    | error e => exact .inr ⟨trivial, by simp, rfl⟩
    | ok i => cases i <;> first | exact .inl ⟨trivial, _, by decide, rfl, rfl⟩ | exact .inr ⟨trivial, by simp, rfl⟩

/-! ### Host accesses -/

/-- A refused access is answered by a bus error, and nothing else changes (20_memory.md R63). -/
theorem hostAccess_refused {s : State} {a : Access} (h : s.refusesAccess a = true) :
    hostAccess s a = .next (s.respond .busError) := by
  simp [hostAccess, h]

theorem hostAccess_read {s : State} {a : Access} (h : s.refusesAccess a = false) (hk : a.kind = .read) :
    hostAccess s a = .next (s.respond (.data (s.readTarget (accessTarget s.cfg a)))) := by
  simp [hostAccess, h, hk]

theorem hostAccess_write {s : State} {a : Access} {v : Word} (h : s.refusesAccess a = false) (hk : a.kind = .write v) :
    hostAccess s a = writeTarget s (accessTarget s.cfg a) v := by
  simp [hostAccess, h, hk]

/-- Everything a write to CMD can do (20_memory.md R67). -/
theorem commandWrite_cases (s : State) (v : Word) :
    (s.dev.seq = .busy ∧ commandWrite s v = .next (s.respond .busError)) ∨
    (s.dev.seq ≠ .busy ∧ v = encode .softReset ∧ commandWrite s v = .next (s.resetDevice.respond .completed)) ∨
    (s.dev.seq = .idle ∧ v ≠ encode .softReset ∧ commandWrite s v = .next ((s.accept v).respond .completed)) ∨
    (s.dev.seq = .fault ∧ v ≠ encode .softReset ∧ commandWrite s v = .next (s.respond .completed)) := by
  unfold commandWrite
  cases hs : s.dev.seq with
  | busy => exact .inl ⟨rfl, rfl⟩
  | idle =>
    by_cases hv : v = encode .softReset
    · exact .inr (.inl ⟨by simp, hv, by simp only [hv, if_true]; rfl⟩)
    · exact .inr (.inr (.inl ⟨rfl, hv, by simp only [hv, if_false]⟩))
  | fault =>
    by_cases hv : v = encode .softReset
    · exact .inr (.inl ⟨by simp, hv, by simp only [hv, if_true]; rfl⟩)
    · exact .inr (.inr (.inr ⟨rfl, hv, by simp only [hv, if_false]⟩))

/-- Everything a host access can do. -/
theorem hostAccess_cases (s : State) (a : Access) :
    (∃ r, hostAccess s a = .next (s.respond r)) ∨
    (s.refusesAccess a = false ∧ ∃ v, a.kind = .write v ∧ accessTarget s.cfg a = .reg .cmd ∧
      hostAccess s a = commandWrite s v) ∨
    (s.refusesAccess a = false ∧ ∃ v, a.kind = .write v ∧ accessTarget s.cfg a ≠ .reg .cmd ∧ hostAccess s a =
      .next (({ s with dev := s.dev.writeOperand s.cfg v (accessTarget s.cfg a) } : State).respond .completed)) := by
  cases hr : s.refusesAccess a
  · cases hk : a.kind with
    | read => exact .inl ⟨_, hostAccess_read hr hk⟩
    | write v =>
      right
      rw [hostAccess_write hr hk]
      unfold writeTarget
      by_cases ht : accessTarget s.cfg a = .reg .cmd
      · exact .inl ⟨rfl, v, rfl, ht, by rw [if_pos ht]⟩
      · exact .inr ⟨rfl, v, rfl, ht, by rw [if_neg ht]⟩
  · exact .inl ⟨_, hostAccess_refused hr⟩

theorem hostAccess_next (s : State) (a : Access) : ∃ t, hostAccess s a = .next t := by
  rcases hostAccess_cases s a with ⟨_, h⟩ | ⟨_, v, _, _, h⟩ | ⟨_, _, _, _, h⟩
  · exact ⟨_, h⟩
  · rcases commandWrite_cases s v with ⟨_, h'⟩ | ⟨_, _, h'⟩ | ⟨_, _, h'⟩ | ⟨_, _, h'⟩ <;> exact ⟨_, h.trans h'⟩
  · exact ⟨_, h⟩

/-! ### The whole step -/

theorem step_nil {s : State} (h : s.events = []) : step s = engineTurn s := by simp [step, h]

theorem step_engineTurn {s : State} {es : List Event} (h : s.events = .engineTurn :: es) :
    step s = engineTurn s.popEvent := by simp [step, h]

theorem step_host {s : State} {a : Access} {es : List Event} (h : s.events = .host a :: es) :
    step s = hostAccess s.popEvent a := by simp [step, h]

theorem step_rst {s : State} {l : Bool} {es : List Event} (h : s.events = .rst l :: es) :
    step s = .next (s.popEvent.driveReset l) := by simp [step, h]

/-- Everything a step can be. -/
theorem step_cases (s : State) :
    (s.events = [] ∧ step s = engineTurn s) ∨
    (∃ es, s.events = .engineTurn :: es ∧ step s = engineTurn s.popEvent) ∨
    (∃ a es, s.events = .host a :: es ∧ step s = hostAccess s.popEvent a) ∨
    (∃ l es, s.events = .rst l :: es ∧ step s = .next (s.popEvent.driveReset l)) := by
  cases h : s.events with
  | nil => exact .inl ⟨rfl, step_nil h⟩
  | cons e es =>
    cases e with
    | engineTurn => exact .inr (.inl ⟨es, rfl, step_engineTurn h⟩)
    | host a => exact .inr (.inr (.inl ⟨a, es, rfl, step_host h⟩))
    | rst l => exact .inr (.inr (.inr ⟨l, es, rfl, step_rst h⟩))

/-- Everything the reset input can do (70_reset_and_hazards.md R230). -/
theorem State.driveReset_cases (s : State) (l : Bool) :
    ((l = true ∨ s.rst = true) ∧ s.driveReset l = { s.resetDevice with rst := l }) ∨
    (l = false ∧ s.rst = false ∧ s.driveReset l = s) := by
  unfold State.driveReset
  cases l <;> cases h : s.rst <;> simp

end Sys2Proof.Machine
end

