-- ==== Sys2Proof/Laws/HostPort.lean ====
section
/-! SUPPORT. The address map, said once: which offsets are a register, a word of a window, or reserved
(20_memory.md R61), and which accesses of the one admitted shape are refused (R63). -/

namespace Sys2Proof.Machine

/-- A window's word ends at or below offset 0x1000. -/
theorem Window.base_add_words_le (cfg : Config) (w : Window) : w.base + 4 * w.words cfg ≤ 0x1000 := by
  have := cfg.le_3072
  cases w <;> simp [Window.base, Window.words, Window.size]
  omega

theorem Reg.mem_all (r : Reg) : r ∈ Reg.all := by cases r <;> decide

theorem Window.mem_all (w : Window) : w ∈ Window.all := by cases w <;> decide

/-- Everything the address map can say of an offset. -/
theorem target_cases (cfg : Config) (o : Nat) :
    (∃ r, target cfg o = .reg r ∧ r.offset ≤ o ∧ o < r.offset + 4) ∨
    (∃ w, target cfg o = .windowWord w ((o - w.base) / 4) ∧ w.base ≤ o ∧ o < w.base + 4 * w.words cfg) ∨
    (target cfg o = .reserved ∧ ((0x028 ≤ o ∧ o < 0x040) ∨ (0x0F8 ≤ o ∧ o < 0x100) ∨ (0x200 ≤ o ∧ o < 0x400) ∨
      0x400 + 4 * ((cfg.blockSizeMax + 3) / 4) ≤ o)) := by
  unfold target
  cases hr : Reg.all.find? fun r => r.covers o with
  | some r => exact .inl ⟨r, rfl, of_decide_eq_true (List.find?_some (p := fun r : Reg => r.covers o) hr)⟩
  | none =>
    right
    cases hw : Window.all.find? fun w => w.covers cfg o with
    | some w => exact .inl ⟨w, rfl, of_decide_eq_true (List.find?_some (p := fun w : Window => w.covers cfg o) hw)⟩
    | none =>
      refine .inr ⟨rfl, ?_⟩
      have noReg : ∀ r : Reg, ¬ (r.offset ≤ o ∧ o < r.offset + 4) := fun r h =>
        List.find?_eq_none.mp hr r r.mem_all (decide_eq_true h)
      have noWindow : ∀ w : Window, ¬ (w.base ≤ o ∧ o < w.base + 4 * w.words cfg) := fun w h =>
        List.find?_eq_none.mp hw w w.mem_all (decide_eq_true h)
      -- the ten registers fill the offsets below 0x028
      have above : 0x028 ≤ o := by
        by_contra below
        have hq : o / 4 < 10 := by omega
        obtain ⟨r, hoff⟩ : ∃ r : Reg, r.offset = 4 * (o / 4) := by
          have := (by decide : ∀ q < 10, ∃ r ∈ Reg.all, r.offset = 4 * q) (o / 4) hq
          obtain ⟨r, _, h⟩ := this
          exact ⟨r, h⟩
        exact noReg r (by omega)
      have hk := noWindow .keyRaw
      have hn := noWindow .nonce
      have hf := noWindow .fbuf
      have hs := noWindow .ks
      have hd := noWindow .data
      simp only [Window.base, Window.words, Window.size] at hk hn hf hs hd
      omega

/-- A register stands at its offset and nowhere else. -/
theorem target_eq_reg (cfg : Config) (o : Nat) (r : Reg) :
    target cfg o = .reg r ↔ r.offset ≤ o ∧ o < r.offset + 4 := by
  constructor
  · intro h
    rcases target_cases cfg o with ⟨r', h', hb⟩ | ⟨w, h', _⟩ | ⟨h', _⟩ <;> rw [h'] at h
    · cases h; exact hb
    · cases h
    · cases h
  · intro h
    have hr : r.offset ≤ 0x024 ∧ r.offset % 4 = 0 := by cases r <;> decide
    rcases target_cases cfg o with ⟨r', h', hb⟩ | ⟨w, h', hb⟩ | ⟨h', hb⟩
    · have : r'.offset = r.offset := by
        have : r'.offset % 4 = 0 := by cases r' <;> decide
        omega
      rw [h']
      congr 1
      revert this
      cases r <;> cases r' <;> decide
    · exfalso
      cases w <;> simp only [Window.base] at hb <;> omega
    · exfalso; omega

/-- A window's words stand at its base on and nowhere else. -/
theorem target_eq_windowWord (cfg : Config) (o : Nat) (w : Window) (k : Nat) :
    target cfg o = .windowWord w k ↔ w.base ≤ o ∧ o < w.base + 4 * w.words cfg ∧ k = (o - w.base) / 4 := by
  have hm := cfg.le_3072
  constructor
  · intro h
    rcases target_cases cfg o with ⟨r', h', hb⟩ | ⟨w', h', hb⟩ | ⟨h', _⟩ <;> rw [h'] at h
    · cases h
    · cases h; exact ⟨hb.1, hb.2, rfl⟩
    · cases h
  · rintro ⟨h1, h2, rfl⟩
    rcases target_cases cfg o with ⟨r', h', hb⟩ | ⟨w', h', hb⟩ | ⟨h', hb⟩
    · exfalso
      have : r'.offset ≤ 0x024 := by cases r' <;> decide
      cases w <;> simp only [Window.base] at h1 <;> omega
    · rw [h']
      suffices w' = w by rw [this]
      cases w <;> cases w' <;> first | rfl | (exfalso; simp only [Window.base, Window.words, Window.size] at h1 h2 hb; omega)
    · exfalso
      cases w <;> simp only [Window.base, Window.words, Window.size] at h1 h2 <;> omega

/-- The reserved offsets (20_memory.md R61, R63 case 2). -/
theorem target_eq_reserved (cfg : Config) (o : Nat) :
    target cfg o = .reserved ↔ (0x028 ≤ o ∧ o < 0x040) ∨ (0x0F8 ≤ o ∧ o < 0x100) ∨ (0x200 ≤ o ∧ o < 0x400) ∨
      0x400 + 4 * ((cfg.blockSizeMax + 3) / 4) ≤ o := by
  have hm := cfg.one_le
  constructor
  · intro h
    rcases target_cases cfg o with ⟨r', h', _⟩ | ⟨w', h', _⟩ | ⟨_, hb⟩
    · rw [h'] at h; cases h
    · rw [h'] at h; cases h
    · exact hb
  · intro h
    rcases target_cases cfg o with ⟨r', h', hb⟩ | ⟨w', h', hb⟩ | ⟨h', _⟩
    · exfalso
      have : r'.offset ≤ 0x024 := by cases r' <;> decide
      omega
    · exfalso
      cases w' <;> simp only [Window.base, Window.words, Window.size] at hb <;> omega
    · exact h'

/-- An aligned 32-bit access is refused exactly in the last four cases of 20_memory.md R63. -/
theorem State.refusesAccess_of_wellFormed {s : State} {a : Access} (h : a.wellFormed = true) :
    s.refusesAccess a = true ↔
      accessTarget s.cfg a = .reserved ∨ (isWrite a = true ∧ (accessTarget s.cfg a).readOnly = true) ∨
      (s.dev.seq = .busy ∧ ¬ (isWrite a = false ∧ (accessTarget s.cfg a).readableWhileBusy = true)) ∨ s.rst = true := by
  simp only [State.refusesAccess, h, Bool.not_true, Bool.false_or, Bool.or_eq_true, Bool.and_eq_true, beq_iff_eq,
    Bool.not_eq_true', Bool.and_eq_false_iff, or_assoc, not_and_or, Bool.not_eq_true, Bool.not_eq_false']
  simp

/-- While STATE ≠ BUSY and RST is deasserted, an aligned read of anything but a reserved offset is admitted. -/
theorem rd_admitted {s : State} {off : BitVec 12} (h4 : off.toNat % 4 = 0) (hs : s.dev.seq ≠ .busy) (hr : s.rst = false)
    (ht : target s.cfg off.toNat ≠ .reserved) : s.refusesAccess (.rd off) = false := by
  rw [← Bool.not_eq_true, State.refusesAccess_of_wellFormed]
  · simp [Access.rd, accessTarget, isWrite, hs, hr, ht]
  · simp [Access.rd, Access.wellFormed, Access.widthOk, Access.aligned, h4]

/-- While STATE ≠ BUSY and RST is deasserted, an aligned write to anything but a reserved offset or a read-only element
is admitted. -/
theorem wr_admitted {s : State} {off : BitVec 12} {v : Word} (h4 : off.toNat % 4 = 0) (hs : s.dev.seq ≠ .busy)
    (hr : s.rst = false) (ht : target s.cfg off.toNat ≠ .reserved) (ho : (target s.cfg off.toNat).readOnly = false) :
    s.refusesAccess (.wr off v) = false := by
  rw [← Bool.not_eq_true, State.refusesAccess_of_wellFormed]
  · simp [Access.wr, accessTarget, isWrite, hs, hr, ht, ho]
  · simp [Access.wr, Access.wellFormed, Access.widthOk, Access.aligned, h4]

/-- An admitted access is a 32-bit access at a multiple of 4, with RST deasserted (20_memory.md R62, R63). -/
theorem admitted_shape {s : State} {a : Access} (h : s.refusesAccess a = false) :
    a.width = .word ∧ a.offset.toNat % 4 = 0 ∧ s.rst = false ∧ accessTarget s.cfg a ≠ .reserved := by
  simp only [State.refusesAccess, Access.wellFormed, Access.widthOk, Access.aligned, Bool.or_eq_false_iff,
    Bool.not_eq_false', Bool.and_eq_true, beq_iff_eq, beq_eq_false_iff_ne] at h
  exact ⟨h.1.1.1.1.1, h.1.1.1.1.2, h.2, h.1.1.1.2⟩

/-- An admitted write to a register is the write at exactly its offset. -/
theorem admitted_write_reg {s : State} {a : Access} {v : Word} {r : Reg} (h : s.refusesAccess a = false)
    (hk : a.kind = .write v) (ht : accessTarget s.cfg a = .reg r) : a = .wr (BitVec.ofNat 12 r.offset) v := by
  obtain ⟨hw, h4, _, _⟩ := admitted_shape h
  have hb := (target_eq_reg s.cfg a.offset.toNat r).mp ht
  have hr : r.offset ≤ 0x024 ∧ r.offset % 4 = 0 := by cases r <;> decide
  obtain ⟨w, o, k⟩ := a
  simp only at hw hk h4 hb
  subst hw hk
  have : o = BitVec.ofNat 12 r.offset := by
    apply BitVec.eq_of_toNat_eq
    rw [BitVec.toNat_ofNat, Nat.mod_eq_of_lt (by omega)]
    omega
  subst this
  rfl

end Sys2Proof.Machine
end

