-- ==== Sys2Proof/Laws/Runs.lean ====
section
/-! SUPPORT. One admitted read or write as a step of the machine, and runs of several steps. -/

namespace Sys2Proof.Machine

theorem run_zero (s : State) : core.run 0 s = .next s := rfl

theorem run_succ_of_step {n : Nat} {s t : State} (h : step s = .next t) : core.run (n + 1) s = core.run n t := by
  have unfolded : ∀ (c : Host.Core) (x y : c.State), c.step x = .next y → c.run (n + 1) x = c.run n y := by
    intro c x y hxy
    rw [Host.Core.run, hxy]
  exact unfolded core s t h

/-- Two steps on end. -/
theorem run_two_of_step {s t u : State} (h : step s = .next t) (h' : step t = .next u) : core.run 2 s = .next u :=
  (run_succ_of_step (n := 1) h).trans ((run_succ_of_step (n := 0) h').trans (run_zero u))

/-- An admitted read: the value is the answer, and nothing else happens (20_memory.md R66). -/
theorem step_rd {s : State} {es : List Event} {off : BitVec 12} (he : s.events = .host (.rd off) :: es)
    (h : s.refusesAccess (.rd off) = false) :
    step s = .next { s with
      events := es
      responses := .data (s.readTarget (target s.cfg off.toNat)) :: s.responses } := by
  rw [step_host he, hostAccess_read (s := s.popEvent) h rfl]
  simp [State.popEvent, he, State.respond, accessTarget, Access.rd]
  rfl

/-- An admitted write to anything but CMD: it stores, and nothing else happens (20_memory.md R66). -/
theorem step_wr {s : State} {es : List Event} {off : BitVec 12} {v : Word} (he : s.events = .host (.wr off v) :: es)
    (h : s.refusesAccess (.wr off v) = false) (hc : target s.cfg off.toNat ≠ .reg .cmd) :
    step s = .next { s with
      dev := s.dev.writeOperand s.cfg v (target s.cfg off.toNat)
      events := es
      responses := .completed :: s.responses } := by
  rw [step_host he, hostAccess_write (s := s.popEvent) h rfl]
  unfold writeTarget
  have hc' : accessTarget s.popEvent.cfg (.wr off v) ≠ .reg .cmd := hc
  rw [if_neg hc']
  simp [State.popEvent, he, State.respond, accessTarget, Access.wr]

/-- A write to CMD with RST deasserted and STATE ≠ BUSY (20_memory.md R67). -/
theorem step_wr_cmd {s : State} {es : List Event} {v : Word} (he : s.events = .host (.wr 0x008 v) :: es)
    (hs : s.dev.seq ≠ .busy) (hr : s.rst = false) : step s = commandWrite s.popEvent v := by
  have ht : target s.cfg (0x008#12).toNat = .reg .cmd := (target_eq_reg _ _ _).mpr (by decide)
  have ha : s.refusesAccess (.wr 0x008 v) = false :=
    wr_admitted (off := 0x008#12) rfl hs hr (by rw [ht]; simp) (by rw [ht]; rfl)
  rw [step_host he, hostAccess_write (s := s.popEvent) ha rfl]
  unfold writeTarget
  exact if_pos ht

/-- Where word `k` of a window stands. -/
theorem window_word_offset (cfg : Config) (w : Window) (k : Nat) (h : 4 * k < w.size cfg) :
    (BitVec.ofNat 12 (w.base + 4 * k)).toNat = w.base + 4 * k ∧ (w.base + 4 * k) % 4 = 0 ∧
      target cfg (w.base + 4 * k) = .windowWord w k := by
  have hm := cfg.le_3072
  refine ⟨?_, ?_, ?_⟩
  · rw [BitVec.toNat_ofNat]
    apply Nat.mod_eq_of_lt
    cases w <;> simp only [Window.base, Window.size] at h ⊢ <;> omega
  · cases w <;> simp only [Window.base] <;> omega
  · rw [target_eq_windowWord]
    refine ⟨by omega, ?_, by omega⟩
    unfold Window.words
    omega

end Sys2Proof.Machine
end

