-- ==== Sys2Proof/Laws/Procedures.lean ====
section
/-! SUPPORT. What each transcript operation does (30_encoding.md R95, R96), said once: an admitted write, an admitted read,
a wait, a byte string written to a window and a byte string read from one. -/

namespace Sys2Proof.Machine

/-- A transcript operation takes the step of the machine at its event. -/
theorem State.perform_of_step {s t : State} {e : Event} (h : step { s with events := e :: s.events } = .next t) :
    s.perform e = t := by
  unfold State.perform
  rw [h]

/-- `wr` in IDLE or FAULT to a writable element other than CMD (20_memory.md R66). -/
theorem State.wr_admitted {s : State} {off : Nat} {v : Word} (hlt : off < 4096) (h4 : off % 4 = 0)
    (hs : s.dev.seq ≠ .busy) (hr : s.rst = false) (ht : target s.cfg off ≠ .reserved)
    (ho : (target s.cfg off).readOnly = false) (hc : target s.cfg off ≠ .reg .cmd) :
    s.wr off v = { s with
      dev := s.dev.writeOperand s.cfg v (target s.cfg off)
      responses := .completed :: s.responses } := by
  have hn : (BitVec.ofNat 12 off).toNat = off := by
    rw [BitVec.toNat_ofNat]
    exact Nat.mod_eq_of_lt hlt
  have step := step_wr (s := { s with events := .host (.wr (BitVec.ofNat 12 off) v) :: s.events }) (es := s.events) rfl
    (Machine.wr_admitted (by rw [hn]; exact h4) hs hr (by rw [hn]; exact ht) (by rw [hn]; exact ho))
    (by rw [hn]; exact hc)
  rw [hn] at step
  exact State.perform_of_step step

/-- `rd` in IDLE or FAULT of any element (20_memory.md R66). -/
theorem State.rd_admitted {s : State} {off : Nat} (hlt : off < 4096) (h4 : off % 4 = 0) (hs : s.dev.seq ≠ .busy)
    (hr : s.rst = false) (ht : target s.cfg off ≠ .reserved) :
    s.rd off = { s with responses := .data (s.readTarget (target s.cfg off)) :: s.responses } := by
  have hn : (BitVec.ofNat 12 off).toNat = off := by
    rw [BitVec.toNat_ofNat]
    exact Nat.mod_eq_of_lt hlt
  have step := step_rd (s := { s with events := .host (.rd (BitVec.ofNat 12 off)) :: s.events }) (es := s.events) rfl
    (Machine.rd_admitted (by rw [hn]; exact h4) hs hr (by rw [hn]; exact ht))
  rw [hn] at step
  exact State.perform_of_step step

/-- `rd STATUS` is admitted in every STATE (20_memory.md R65). -/
theorem State.rd_status {s : State} (hr : s.rst = false) :
    s.rd 0x00C = { s with responses := .data s.dev.statusWord :: s.responses } := by
  have ht : target s.cfg 0x00C = .reg .status := (target_eq_reg _ _ _).mpr (by decide)
  have ha : State.refusesAccess { s with events := .host (.rd 0x00C) :: s.events } (.rd 0x00C) = false := by
    have target_status : accessTarget s.cfg (.rd 0x00C) = .reg .status := ht
    unfold State.refusesAccess
    rw [target_status, hr]
    simp [Access.rd, Access.wellFormed, Access.widthOk, Access.aligned, isWrite, Target.readableWhileBusy]
  have step := step_rd (s := { s with events := .host (.rd 0x00C) :: s.events }) (es := s.events) rfl ha
  have value : State.readTarget { s with events := .host (.rd 0x00C) :: s.events } (target s.cfg 0x00C) =
      s.dev.statusWord := by
    rw [ht]
    rfl
  exact (State.perform_of_step step).trans (by rw [← value]; rfl)

theorem Device.statusWord_busy (d : Device) : d.statusWord.getLsbD 0 = (d.seq == .busy) := by
  simp only [Device.statusWord, BitVec.getLsbD_append]
  simp [Device.busyBit]

theorem Device.statusWord_fault (d : Device) : d.statusWord.getLsbD 2 = (d.seq == .fault) := by
  simp only [Device.statusWord, BitVec.getLsbD_append]
  simp [Device.faultBit]

/-- `cmd` of a command other than SOFT_RESET in IDLE: acceptance (20_memory.md R67). -/
theorem State.cmd_idle {s : State} {i : Instr} (hi : i ≠ .softReset) (hs : s.dev.seq = .idle) (hr : s.rst = false) :
    s.cmd i = { s.accept (encode i) with responses := .completed :: s.responses } := by
  refine State.perform_of_step ?_
  have step := step_wr_cmd (s := { s with events := .host (.wr 0x008 (encode i)) :: s.events }) (es := s.events) rfl
    (by simp [hs]) hr
  refine step.trans ?_
  have hw : encode i ≠ encode .softReset := by cases i <;> first | exact absurd rfl hi | decide
  simp only [commandWrite, State.popEvent, hs, if_neg hw]
  rfl

/-- An ENGINE turn outside BUSY changes nothing. -/
theorem State.perform_engineTurn_not_busy {s : State} (hs : s.dev.seq ≠ .busy) : s.perform .engineTurn = s := by
  apply State.perform_of_step
  rw [step_engineTurn rfl]
  have he : State.engineEnabled { s with events := .engineTurn :: s.events }.popEvent = false := by
    simp [State.engineEnabled, State.popEvent, hs]
  unfold engineTurn
  rw [he]
  rfl

/-- An ENGINE turn while BUSY performs the pending command. -/
theorem State.perform_engineTurn_busy {s t : State} {i : Instr} (hi : i ≠ .softReset) (hs : s.dev.seq = .busy)
    (hr : s.rst = false) (hp : s.dev.pending = encode i) (ht : exec i s = .next t) : s.perform .engineTurn = t := by
  apply State.perform_of_step
  rw [step_engineTurn rfl, ← ht]
  have hd : decode s.dev.pending = .ok i := by rw [hp]; cases i <;> rfl
  show engineTurn s = exec i s
  rcases engineTurn_cases s with ⟨he, _⟩ | ⟨_, j, _, hj, h⟩ | ⟨_, h, _⟩
  · simp [State.engineEnabled, hs, hr] at he
  · rw [h, Except.ok.inj (hj.symm.trans hd)]
  · exact absurd (h i hd) hi

/-- What bit 0 of a STATUS read says. -/
theorem State.lastRead_status {s : State} (hr : s.rst = false) :
    (s.rd 0x00C).lastRead.getLsbD 0 = (s.dev.seq == .busy) := by
  rw [State.rd_status hr]
  exact s.dev.statusWord_busy

/-- A wait while IDLE or FAULT is one read of STATUS. -/
theorem State.wait_not_busy {s : State} (n : Nat) (hs : s.dev.seq ≠ .busy) (hr : s.rst = false) :
    State.wait n s = s.rd 0x00C := by
  cases n with
  | zero => rw [State.wait, State.perform_engineTurn_not_busy hs]
  | succ n => rw [State.wait, State.lastRead_status hr, if_neg (by simpa using hs)]

/-- A wait while BUSY: exactly `n` reads of STATUS see BUSY, then comes the ENGINE step of the pending command, and then
the read that sees its end. -/
theorem State.wait_busy_exactly {i : Instr} (hi : i ≠ .softReset) (n : Nat) (s : State) (hs : s.dev.seq = .busy)
    (hr : s.rst = false) (hp : s.dev.pending = encode i) :
    ∃ t : State, exec i { s with responses := List.replicate n (.data s.dev.statusWord) ++ s.responses } = .next t ∧
      State.wait n s = t.rd 0x00C := by
  induction n generalizing s with
  | zero =>
    obtain ⟨t, ht⟩ := exec_next i s
    exact ⟨t, ht, by rw [State.wait, State.perform_engineTurn_busy hi hs hr hp ht]⟩
  | succ n ih =>
    rw [State.wait, State.lastRead_status hr, if_pos (by simp [hs]), State.rd_status hr]
    obtain ⟨t, h1, h2⟩ := ih { s with responses := .data s.dev.statusWord :: s.responses } hs hr hp
    refine ⟨t, ?_, h2⟩
    rw [← h1, List.replicate_succ', List.append_assoc]
    rfl

/-- A wait while BUSY, whatever the answers recorded in it. -/
theorem State.wait_busy {i : Instr} (hi : i ≠ .softReset) (n : Nat) (s : State) (hs : s.dev.seq = .busy)
    (hr : s.rst = false) (hp : s.dev.pending = encode i) :
    ∃ (rs : List Response) (t : State), exec i { s with responses := rs } = .next t ∧ State.wait n s = t.rd 0x00C :=
  ⟨_, State.wait_busy_exactly hi n s hs hr hp⟩

/-- `wr` of word `k` of a window that the host may write. -/
theorem State.wr_window {s : State} {w : Window} {k : Nat} {v : Word} (hs : s.dev.seq ≠ .busy) (hr : s.rst = false)
    (hw : w ≠ .ks) (hk : 4 * k < w.size s.cfg) :
    s.wr (w.base + 4 * k) v = { s with
      dev := s.dev.writeWindowWord s.cfg w k v
      responses := .completed :: s.responses } := by
  obtain ⟨hn, h4, ht⟩ := window_word_offset s.cfg w k hk
  have hlt : w.base + 4 * k < 4096 := by rw [← hn]; exact (BitVec.ofNat 12 (w.base + 4 * k)).isLt
  rw [State.wr_admitted hlt h4 hs hr (by rw [ht]; simp)
    (by rw [ht]; cases w <;> first | rfl | exact absurd rfl hw) (by rw [ht]; simp), ht]
  cases w <;> first | rfl | exact absurd rfl hw

/-- The bytes after a window word is written: the word's where the window has them, else as before. -/
theorem Device.read_writeWindowWord (d : Device) (cfg : Config) (w : Window) (k : Nat) (v : Word) (x : Nat) :
    (d.writeWindowWord cfg w k v).mem.read x =
      if w.base + 4 * k ≤ x ∧ x < w.base + 4 * k + 4 ∧ x < w.base + w.size cfg then
        byteOfWord v (x - (w.base + 4 * k)) else d.mem.read x := by
  show (d.mem.writeAll _ _).read x = _
  rw [Mem.read_writeAll]
  have len : ((bytesOfWord v).take (w.size cfg - 4 * k)).length = min (w.size cfg - 4 * k) 4 := by simp [bytesOfWord]
  rw [len]
  by_cases h : w.base + 4 * k ≤ x ∧ x < w.base + 4 * k + 4 ∧ x < w.base + w.size cfg
  · rw [if_pos h, if_pos (by omega)]
    obtain ⟨i, hi⟩ : ∃ i, x - (w.base + 4 * k) = i := ⟨_, rfl⟩
    rw [hi, List.getD_eq_getElem?_getD, List.getElem?_take_of_lt (by omega)]
    have hi' : i = 0 ∨ i = 1 ∨ i = 2 ∨ i = 3 := by omega
    rcases hi' with rfl | rfl | rfl | rfl <;> rfl
  · rw [if_neg h, if_neg (by omega)]

/-- One word that holds one to four bytes of a byte string. -/
theorem State.wr_window_bytes {s : State} {w : Window} {k : Nat} {v : Word} {bs : List Byte} (hw : w ≠ .ks)
    (hs : s.dev.seq ≠ .busy) (hr : s.rst = false) (hlen : 4 * k + bs.length ≤ w.size s.cfg) (h1 : 1 ≤ bs.length)
    (h4 : bs.length ≤ 4) (hv : ∀ j < bs.length, byteOfWord v j = bs.getD j 0) :
    ∃ (m : Mem) (rs : List Response),
      s.wr (w.base + 4 * k) v = { s with dev := { s.dev with mem := m }, responses := rs } ∧
      (∀ j < bs.length, m.read (w.base + 4 * k + j) = bs.getD j 0) ∧
      (∀ x, x < w.base + 4 * k ∨ w.base + w.size s.cfg ≤ x → m.read x = s.dev.mem.read x) := by
  refine ⟨(s.dev.writeWindowWord s.cfg w k v).mem, _, State.wr_window hs hr hw (by omega), ?_, ?_⟩
  · intro j hj
    rw [Device.read_writeWindowWord, if_pos (by omega), Nat.add_sub_cancel_left, hv j hj]
  · intro x hx
    rw [Device.read_writeWindowWord, if_neg (by omega)]

/-- `wrbytes` into a window from its word `k` on: the bytes are stored, no byte outside the window changes, and nothing
else but the answers does. -/
theorem State.wrbytes_window {w : Window} (hw : w ≠ .ks) : (bs : List Byte) → (k : Nat) → (s : State) →
    s.dev.seq ≠ .busy → s.rst = false → 4 * k + bs.length ≤ w.size s.cfg →
    ∃ (m : Mem) (rs : List Response),
      s.wrbytes (w.base + 4 * k) bs = { s with dev := { s.dev with mem := m }, responses := rs } ∧
      (∀ j < bs.length, m.read (w.base + 4 * k + j) = bs.getD j 0) ∧
      (∀ x, x < w.base + 4 * k ∨ w.base + w.size s.cfg ≤ x → m.read x = s.dev.mem.read x)
  | [], k, s, _, _, _ => ⟨s.dev.mem, s.responses, rfl, fun j hj => absurd hj (Nat.not_lt_zero j), fun _ _ => rfl⟩
  | [b0], k, s, hs, hr, hlen => by
    refine State.wr_window_bytes hw hs hr hlen (by simp) (by simp) ?_
    intro j hj
    obtain rfl : j = 0 := by simpa using hj
    exact byteOfWord_wordOfBytes_zero _ _ _ _
  | [b0, b1], k, s, hs, hr, hlen => by
    refine State.wr_window_bytes hw hs hr hlen (by simp) (by simp) ?_
    intro j hj
    simp only [List.length_cons, List.length_nil] at hj
    obtain rfl | rfl : j = 0 ∨ j = 1 := by omega
    · exact byteOfWord_wordOfBytes_zero _ _ _ _
    · exact byteOfWord_wordOfBytes_one _ _ _ _
  | [b0, b1, b2], k, s, hs, hr, hlen => by
    refine State.wr_window_bytes hw hs hr hlen (by simp) (by simp) ?_
    intro j hj
    simp only [List.length_cons, List.length_nil] at hj
    obtain rfl | rfl | rfl : j = 0 ∨ j = 1 ∨ j = 2 := by omega
    · exact byteOfWord_wordOfBytes_zero _ _ _ _
    · exact byteOfWord_wordOfBytes_one _ _ _ _
    · exact byteOfWord_wordOfBytes_two _ _ _ _
  | b0 :: b1 :: b2 :: b3 :: rest, k, s, hs, hr, hlen => by
    simp only [List.length_cons] at hlen
    obtain ⟨m, rs, f1, f2, f3⟩ := State.wr_window_bytes (v := wordOfBytes b0 b1 b2 b3) (bs := [b0, b1, b2, b3]) (k := k)
      hw hs hr (by simp only [List.length_cons, List.length_nil]; omega) (by simp) (by simp) (by
        intro j hj
        simp only [List.length_cons, List.length_nil] at hj
        obtain rfl | rfl | rfl | rfl : j = 0 ∨ j = 1 ∨ j = 2 ∨ j = 3 := by omega
        · exact byteOfWord_wordOfBytes_zero _ _ _ _
        · exact byteOfWord_wordOfBytes_one _ _ _ _
        · exact byteOfWord_wordOfBytes_two _ _ _ _
        · exact byteOfWord_wordOfBytes_three _ _ _ _)
    obtain ⟨m', rs', h1, h2, h3⟩ := State.wrbytes_window hw rest (k + 1)
      { s with dev := { s.dev with mem := m }, responses := rs } hs hr (by show _ ≤ w.size s.cfg; omega)
    refine ⟨m', rs', ?_, ?_, ?_⟩
    · rw [State.wrbytes, f1, show w.base + 4 * k + 4 = w.base + 4 * (k + 1) by omega, h1]
    · intro j hj
      simp only [List.length_cons] at hj
      by_cases h : j < 4
      · rw [h3 _ (by omega)]
        refine (f2 j (by simpa using h)).trans ?_
        obtain rfl | rfl | rfl | rfl : j = 0 ∨ j = 1 ∨ j = 2 ∨ j = 3 := by omega
        all_goals rfl
      · obtain ⟨i, rfl⟩ : ∃ i, j = i + 4 := ⟨j - 4, by omega⟩
        rw [show w.base + 4 * k + (i + 4) = w.base + 4 * (k + 1) + i by omega, h2 i (by omega)]
        rfl
    · intro x hx
      have hx' : x < w.base + 4 * (k + 1) ∨ w.base + w.size s.cfg ≤ x := by omega
      exact (h3 x hx').trans (f3 x hx)

/-- The bytes that `k` reads from word `i` of a window on give: the window's, and 0 past its end. -/
theorem State.rdwords_window {w : Window} (hw : w ≠ .keyRaw) (k i : Nat) (s : State) (hs : s.dev.seq ≠ .busy)
    (hr : s.rst = false) (hlen : i + k ≤ w.words s.cfg) :
    ∃ rs : List Response, s.rdwords (w.base + 4 * i) k =
      ({ s with responses := rs }, (List.range (4 * k)).map fun j => s.portByte w (4 * i + j)) := by
  induction k generalizing i s with
  | zero => exact ⟨s.responses, rfl⟩
  | succ k ih =>
    have hk : 4 * i < w.size s.cfg := by unfold Window.words at hlen; omega
    obtain ⟨hn, h4, ht⟩ := window_word_offset s.cfg w i hk
    have hlt : w.base + 4 * i < 4096 := by rw [← hn]; exact (BitVec.ofNat 12 (w.base + 4 * i)).isLt
    have first := State.rd_admitted hlt h4 hs hr (by rw [ht]; simp)
    have value : (s.rd (w.base + 4 * i)).lastRead =
        wordOfBytes (s.portByte w (4 * i)) (s.portByte w (4 * i + 1)) (s.portByte w (4 * i + 2))
          (s.portByte w (4 * i + 3)) := by
      rw [first, ht]
      cases w <;> first | rfl | exact absurd rfl hw
    obtain ⟨rs, h⟩ := ih (i + 1) (s.rd (w.base + 4 * i)) (by rw [first]; exact hs) (by rw [first]; exact hr)
      (by rw [first]; show _ ≤ w.words s.cfg; omega)
    refine ⟨rs, ?_⟩
    simp only [State.rdwords]
    rw [show w.base + 4 * i + 4 = w.base + 4 * (i + 1) by omega, h, value, bytesOfWord_wordOfBytes, first]
    refine Prod.ext rfl ?_
    show [s.portByte w (4 * i), s.portByte w (4 * i + 1), s.portByte w (4 * i + 2), s.portByte w (4 * i + 3)] ++
      (List.range (4 * k)).map (fun j => s.portByte w (4 * (i + 1) + j)) = _
    rw [show 4 * (k + 1) = 4 + 4 * k by omega, List.range_add, List.map_append, List.map_map]
    congr 1
    apply List.map_congr_left
    intro j _
    simp only [Function.comp]
    congr 1
    omega

/-- `rdbytes` of the first `n` bytes of a window. -/
theorem State.rdbytes_window {w : Window} (hw : w ≠ .keyRaw) (n : Nat) (s : State) (hs : s.dev.seq ≠ .busy)
    (hr : s.rst = false) (hlen : n ≤ w.size s.cfg) :
    ∃ rs : List Response, s.rdbytes w.base n =
      ({ s with responses := rs }, (List.range n).map fun j => s.dev.windowByte w j) := by
  obtain ⟨rs, h⟩ := State.rdwords_window hw ((n + 3) / 4) 0 s hs hr (by unfold Window.words; omega)
  refine ⟨rs, ?_⟩
  simp only [Nat.mul_zero, Nat.add_zero, Nat.zero_add] at h
  unfold State.rdbytes
  rw [h]
  refine Prod.ext rfl ?_
  simp only [← List.map_take, List.take_range]
  rw [show min n (4 * ((n + 3) / 4)) = n by omega]
  apply List.map_congr_left
  intro j hj
  have := List.mem_range.mp hj
  unfold State.portByte
  exact if_pos (by omega)

end Sys2Proof.Machine
end

