-- ==== Sys2Proof/Laws/Duties.lean ====
section
/-! SUPPORT. What a move of a duty-keeping host is, said once: which writes are admitted, which command a write issues, when a
move is given and what it does. -/

namespace Sys2Proof.Machine

/-- Everything an admitted write is. -/
theorem State.admittedWrite_eq_some {s : State} {e : Event} {t : Target} {v : Word} :
    s.admittedWrite e = some (t, v) ↔
      ∃ a, e = .host a ∧ a.kind = .write v ∧ s.refusesAccess a = false ∧ accessTarget s.cfg a = t := by
  constructor
  · intro h
    cases e with
    | engineTurn => cases h
    | rst l => cases h
    | host a =>
      simp only [State.admittedWrite] at h
      split at h
      · cases h
      · next w hk =>
        split at h
        · cases h
        · next hr => cases h; exact ⟨a, rfl, hk, by simpa using hr, rfl⟩
  · rintro ⟨a, rfl, hk, hr, rfl⟩
    simp only [State.admittedWrite, hk, hr]
    rfl

/-- The word of a command other than SOFT_RESET is what the ENGINE step reads as that command. -/
theorem engineCommand_eq_some {w : Word} {i : Instr} : engineCommand w = some i ↔ i ≠ .softReset ∧ decode w = .ok i := by
  unfold engineCommand
  cases hd : decode w with
  | error e => simp
  | ok j => cases j <;> cases i <;> simp

/-- A write is admitted only while STATE ≠ BUSY and RST is deasserted (20_memory.md R63, R65). -/
theorem State.admittedWrite_state {s : State} {e : Event} {p : Target × Word} (h : s.admittedWrite e = some p) :
    s.dev.seq ≠ .busy ∧ s.rst = false := by
  obtain ⟨a, rfl, hk, hr, _⟩ := State.admittedWrite_eq_some.mp h
  simp only [State.refusesAccess, isWrite, hk, Bool.or_eq_false_iff, Bool.true_and, Bool.not_true, Bool.false_and,
    Bool.not_false, Bool.and_true, beq_eq_false_iff_ne] at hr
  exact ⟨hr.1.2, hr.2⟩

/-- A move to CMD that is admitted is the write at offset 0x008. -/
theorem State.admittedWrite_cmd {s : State} {e : Event} {v : Word} :
    s.admittedWrite e = some (.reg .cmd, v) ↔ e = .host (.wr 0x008 v) ∧ s.dev.seq ≠ .busy ∧ s.rst = false := by
  constructor
  · intro h
    obtain ⟨hs, hr⟩ := State.admittedWrite_state h
    obtain ⟨a, rfl, hk, ha, ht⟩ := State.admittedWrite_eq_some.mp h
    exact ⟨by rw [admitted_write_reg ha hk ht]; rfl, hs, hr⟩
  · rintro ⟨rfl, hs, hr⟩
    have ht : target s.cfg (0x008#12).toNat = .reg .cmd := (target_eq_reg _ _ _).mpr (by decide)
    exact State.admittedWrite_eq_some.mpr ⟨_, rfl, rfl,
      Machine.wr_admitted (off := 0x008#12) rfl hs hr (by rw [ht]; simp) (by rw [ht]; rfl), ht⟩

/-- Which event issues which command. -/
theorem State.issues_eq_some {s : State} {e : Event} {i : Instr} :
    s.issues e = some i ↔
      i ≠ .softReset ∧ s.dev.seq = .idle ∧ s.rst = false ∧ ∃ w, decode w = .ok i ∧ e = .host (.wr 0x008 w) := by
  unfold State.issues
  constructor
  · intro h
    split at h
    · next v hw =>
      obtain ⟨rfl, _, hr⟩ := State.admittedWrite_cmd.mp hw
      split at h
      · next hs =>
        obtain ⟨hi, hd⟩ := engineCommand_eq_some.mp h
        exact ⟨hi, hs, hr, v, hd, rfl⟩
      · cases h
    · cases h
  · rintro ⟨hi, hs, hr, w, hd, rfl⟩
    rw [State.admittedWrite_cmd.mpr ⟨rfl, by rw [hs]; decide, hr⟩]
    simp only [hs, if_true]
    exact engineCommand_eq_some.mpr ⟨hi, hd⟩

/-- A host event resets the FKE exactly where it is an admitted CMD write of SOFT_RESET. -/
theorem State.resetsAt_host {s : State} {a : Access} :
    s.resetsAt (.host a) = true ↔ s.admittedWrite (.host a) = some (.reg .cmd, encode .softReset) := by
  unfold State.resetsAt
  exact beq_iff_eq

/-- An access that is no admitted write changes nothing but the answers. -/
theorem State.perform_no_write {s : State} {a : Access} (h : s.admittedWrite (.host a) = none) :
    ∃ rs, s.perform (.host a) = { s with responses := rs } := by
  have atHost : step { s with events := .host a :: s.events } = hostAccess s a := rfl
  cases hr : s.refusesAccess a
  · cases hk : a.kind with
    | read => exact ⟨_, State.perform_of_step (atHost.trans (hostAccess_read hr hk))⟩
    | write v => simp [State.admittedWrite, hk, hr] at h
  · exact ⟨_, State.perform_of_step (atHost.trans (hostAccess_refused hr))⟩

/-- An admitted write to anything but CMD stores. -/
theorem State.perform_operand_write {s : State} {a : Access} {t : Target} {v : Word}
    (h : s.admittedWrite (.host a) = some (t, v)) (hc : t ≠ .reg .cmd) :
    s.perform (.host a) = { s with
      dev := s.dev.writeOperand s.cfg v t
      responses := .completed :: s.responses } := by
  obtain ⟨_, ⟨⟩, hk, hr, rfl⟩ := State.admittedWrite_eq_some.mp h
  have atHost : step { s with events := .host a :: s.events } = hostAccess s a := rfl
  refine State.perform_of_step (atHost.trans ((hostAccess_write hr hk).trans ?_))
  unfold writeTarget
  rw [if_neg hc]
  rfl

/-! ### What the host keeps in mind -/

theorem Duties.after_reset {d : Duties} {s : State} {m : Move} (h : s.resetsAt m.event = true) :
    d.after s m = d.noteReset := by
  unfold Duties.after
  rw [if_pos h]

theorem Duties.after_command {d : Duties} {s : State} {m : Move} {i : Instr} (h : s.resetsAt m.event ≠ true)
    (hi : s.issues m.event = some i) : d.after s m = d.noteCommand m.purpose i := by
  unfold Duties.after
  rw [if_neg h, hi]

theorem Duties.after_write {d : Duties} {s : State} {m : Move} {t : Target} {v : Word} (h : s.resetsAt m.event ≠ true)
    (hi : s.issues m.event = none) (hw : s.admittedWrite m.event = some (t, v)) : d.after s m = d.noteWrite t := by
  unfold Duties.after
  rw [if_neg h, hi, hw]

theorem Duties.after_no_write {d : Duties} {s : State} {m : Move} (h : s.resetsAt m.event ≠ true)
    (hw : s.admittedWrite m.event = none) : d.after s m = d := by
  have hi : s.issues m.event = none := by
    unfold State.issues
    rw [hw]
  unfold Duties.after
  rw [if_neg h, hi, hw]

/-- Everything that the host can keep in mind after a move. -/
theorem Duties.after_cases (d : Duties) (s : State) (m : Move) :
    (s.resetsAt m.event = true ∧ d.after s m = d.noteReset) ∨
    (∃ i, s.issues m.event = some i ∧ d.after s m = d.noteCommand m.purpose i) ∨
    (∃ t v, s.admittedWrite m.event = some (t, v) ∧ d.after s m = d.noteWrite t) ∨
    d.after s m = d := by
  by_cases h : s.resetsAt m.event = true
  · exact .inl ⟨h, Duties.after_reset h⟩
  · cases hi : s.issues m.event with
    | some i => exact .inr (.inl ⟨i, rfl, Duties.after_command h hi⟩)
    | none =>
      cases hw : s.admittedWrite m.event with
      | some p => exact .inr (.inr (.inl ⟨p.1, p.2, rfl, Duties.after_write h hi hw⟩))
      | none => exact .inr (.inr (.inr (Duties.after_no_write h hw)))

/-- Everything that makes COUNTER ready for a purpose (20_memory.md R72). -/
theorem Duties.counterReady_iff (d : Duties) (p : Purpose) :
    d.counterReady p = true ↔
      (d.loWritten = true ∧ d.hiWritten = true) ∨
      (d.loWritten = false ∧ d.hiWritten = false ∧ d.counter.serves p = true) := by
  unfold Duties.counterReady
  cases d.loWritten <;> cases d.hiWritten <;> simp

/-- Everything that lets a NONCE_GEN be issued for a purpose. -/
theorem Duties.mayDraw_iff (d : Duties) (p : Purpose) :
    d.mayDraw p = true ↔ ∀ n k, p = .encrypt n → (n, k) ∉ d.encryptions := by
  cases p with
  | other => simp [Duties.mayDraw]
  | decrypt source startBlock => simp [Duties.mayDraw]
  | encrypt n =>
    simp only [Duties.mayDraw, List.all_eq_true, bne_iff_ne, ne_eq, Purpose.encrypt.injEq]
    exact ⟨fun h a k e hm => h (a, k) hm e.symm, fun h p hp e => h p.1 p.2 e.symm hp⟩

/-- Everything that lets NONCE be used for a purpose. -/
theorem Duties.nonceServes_iff (d : Duties) (p : Purpose) :
    d.nonceServes p = true ↔ ∀ n, p = .encrypt n → ∃ k, d.nonce = some k ∧ (n, k) ∈ d.encryptions := by
  cases p <;> simp [Duties.nonceServes]
  cases d.nonce <;> simp

/-- What the duties ask of a NONCE_GEN, of a KS_GEN and of a CTR_XOR. -/
theorem Duties.allows_uses {d : Duties} {p : Purpose} {i : Instr} (h : d.allows p i = true) :
    (i = .nonceGen → d.mayDraw p = true) ∧
    (i = .ksGen ∨ i = .ctrXor → d.counterReady p = true ∧ d.nonceServes p = true) ∧
    (i = .ctrXor → p ≠ .other) := by
  cases i <;> simp_all [Duties.allows]

/-- What issuing a command does to the record of the draws: only NONCE_GEN changes it. -/
theorem Duties.noteCommand_draws (d : Duties) (p : Purpose) (i : Instr) (h : i ≠ .nonceGen) :
    (d.noteCommand p i).generated = d.generated ∧ (d.noteCommand p i).nonce = d.nonce ∧
      (d.noteCommand p i).encryptions = d.encryptions := by
  cases i <;> first | exact ⟨rfl, rfl, rfl⟩ | exact absurd rfl h

/-- An operand write begins no encryption, and what it leaves of NONCE's draw is that draw or none. -/
theorem Duties.noteWrite_draws (d : Duties) (t : Target) :
    (d.noteWrite t).generated = d.generated ∧ ((d.noteWrite t).nonce = none ∨ (d.noteWrite t).nonce = d.nonce) ∧
      (d.noteWrite t).encryptions = d.encryptions := by
  cases t with
  | reg r => cases r <;> exact ⟨rfl, .inr rfl, rfl⟩
  | windowWord w k => cases w <;> first | exact ⟨rfl, .inl rfl, rfl⟩ | exact ⟨rfl, .inr rfl, rfl⟩
  | reserved => exact ⟨rfl, .inr rfl, rfl⟩

/-- A move that is given keeps the duties, and it is the event's step. -/
theorem HostRun.move_eq_some {r r' : HostRun} {m : Move} :
    r.move m = some r' ↔
      r.keepsDuties m = true ∧ r' = { duties := r.duties.after r.state m, state := r.state.perform m.event } := by
  unfold HostRun.move
  cases r.keepsDuties m <;> simp [eq_comm]

/-- A move that is not given breaks a duty. -/
theorem HostRun.move_eq_none {r : HostRun} {m : Move} : r.move m = none ↔ r.keepsDuties m = false := by
  unfold HostRun.move
  cases r.keepsDuties m <;> simp

/-- A given move that issues a command: the duties allowed it. -/
theorem HostRun.move_allows {r r' : HostRun} {m : Move} {i : Instr} (h : r.move m = some r')
    (hi : r.state.issues m.event = some i) : r.duties.allows m.purpose i = true := by
  have hk := (HostRun.move_eq_some.mp h).1
  unfold HostRun.keepsDuties at hk
  simp only [hi, Bool.and_eq_true] at hk
  exact hk.2

/-- Everything a given move does to the host's record of the draws. -/
theorem HostRun.move_draws {r r' : HostRun} {m : Move} (h : r.move m = some r') :
    (r.state.issues m.event = some .nonceGen ∧ r.state.resetsAt m.event ≠ true ∧
      r'.duties = r.duties.noteCommand m.purpose .nonceGen) ∨
    (r'.duties.generated = r.duties.generated ∧
      (r'.duties.nonce = none ∨ r'.duties.nonce = r.duties.nonce) ∧
      r'.duties.encryptions = r.duties.encryptions) := by
  obtain ⟨_, rfl⟩ := HostRun.move_eq_some.mp h
  by_cases hr : r.state.resetsAt m.event = true
  · exact .inr (by rw [Duties.after_reset hr]; simp [Duties.noteReset])
  rcases r.duties.after_cases r.state m with ⟨hr', _⟩ | ⟨i, hi, e⟩ | ⟨t, _, _, e⟩ | e
  · exact absurd hr' hr
  · by_cases hn : i = .nonceGen
    · subst hn
      exact .inl ⟨hi, hr, e⟩
    · obtain ⟨a, b, c⟩ := r.duties.noteCommand_draws m.purpose i hn
      exact .inr (by simp only [e]; exact ⟨a, .inr b, c⟩)
  · exact .inr (by simp only [e]; exact r.duties.noteWrite_draws t)
  · exact .inr (by simp [e])

/-- Moves made in two stretches. -/
theorem HostRun.moves_append (r : HostRun) (ms ms' : List Move) :
    r.moves (ms ++ ms') = (r.moves ms).bind fun u => u.moves ms' := by
  induction ms generalizing r with
  | nil => rfl
  | cons m ms ih =>
    simp only [List.cons_append, HostRun.moves]
    cases r.move m with
    | none => rfl
    | some u => exact ih u

/-- What holds at the start and is kept by every given move holds after every run of a duty-keeping host. -/
theorem HostRun.moves_induction {P : HostRun → Prop} (kept : ∀ r m r', P r → r.move m = some r' → P r') :
    ∀ (ms : List Move) (r r' : HostRun), P r → r.moves ms = some r' → P r' := by
  intro ms
  induction ms with
  | nil =>
    intro r r' hp h
    cases h
    exact hp
  | cons m ms ih =>
    intro r r' hp h
    simp only [HostRun.moves] at h
    split at h
    · next r₁ h₁ => exact ih r₁ r' (kept r m r₁ hp h₁) h
    · cases h

/-- The same of a property that also speaks of the moves made so far. -/
theorem HostRun.moves_history_induction {P : List Move → HostRun → Prop}
    (kept : ∀ before r m r', P before r → r.move m = some r' → P (before ++ [m]) r') :
    ∀ (ms before : List Move) (r r' : HostRun), P before r → r.moves ms = some r' → P (before ++ ms) r' := by
  intro ms
  induction ms with
  | nil =>
    intro before r r' hp h
    cases h
    rwa [List.append_nil]
  | cons m ms ih =>
    intro before r r' hp h
    simp only [HostRun.moves] at h
    split at h
    · next r₁ h₁ =>
      rw [List.append_cons]
      exact ih (before ++ [m]) r₁ r' (kept before r m r₁ hp h₁) h
    · cases h

end Sys2Proof.Machine
end

