-- ==== Sys2Proof/Laws/Feistel.lean ====
section
/-! SUPPORT. The bytes of the pure functions of the primitive and of counter mode, and the recursion of the rounds seen
from its last round. -/

namespace Sys2Proof.Machine

theorem byte_roundKey (k : Bytes 64) (i b : Nat) (h : b < 64) :
    (roundKey k i).byte b = k.byte b + BitVec.ofNat 8 (i % 256) := by simp [roundKey, h]

theorem byte_leftHalf (x : Bytes 128) (j : Nat) (h : j < 64) : (leftHalf x).byte j = x.byte j := by
  simp [leftHalf, h]

theorem byte_rightHalf (x : Bytes 128) (j : Nat) (h : j < 64) : (rightHalf x).byte j = x.byte (64 + j) := by
  simp [rightHalf, h]

theorem byte_joinHalves (a b : Bytes 64) (j : Nat) (h : j < 128) :
    (joinHalves a b).byte j = if j < 64 then a.byte j else b.byte (j - 64) := by simp [joinHalves, h]

theorem byte_expandKey (raw : List Byte) (len j : Nat) (h : j < 64) :
    (expandKey raw len).byte j = raw.getD (j % len) 0 := by
  unfold expandKey
  exact Bytes.byte_build_of_lt h

/-- The key operand seen from the whole KEY_RAW window: of a loaded key only the first `Leff` bytes are looked at. -/
theorem Device.expandedKey_eq (d : Device) (h : d.keyLen ≠ 0) :
    d.expandedKey = expandKey (d.window .keyRaw 64).toList (min d.keyLen.toNat 64) := by
  have positive : 0 < min d.keyLen.toNat 64 := by
    have : d.keyLen.toNat ≠ 0 := fun h' => h (BitVec.eq_of_toNat_eq h')
    omega
  apply Bytes.ext
  intro j hj
  unfold Device.expandedKey Device.effectiveKeyLen
  have := Nat.mod_lt j positive
  rw [byte_expandKey _ _ _ hj, byte_expandKey _ _ _ hj, Bytes.toList_getD, Bytes.toList_getD, Device.byte_window,
    Device.byte_window, if_pos this, if_pos (by omega)]

theorem byte_nonceCounterBlock (n : Bytes 120) (c : Word64) (j : Nat) (h : j < 128) :
    (nonceCounterBlock n c).byte j = if j < 120 then n.byte j else le64Byte c (j - 120) := by
  simp [nonceCounterBlock, h]

theorem byte_expandKeystream (ks : Bytes 128) (n j : Nat) (h : j < n) :
    (expandKeystream ks n).byte j = ks.byte (j % 128) := by simp [expandKeystream, h]

theorem byte_padChunk {n : Nat} (d : Bytes n) (cl bs j : Nat) (h : j < bs) :
    (padChunk d cl bs).byte j = if j < cl then d.byte j else 0 := by simp [padChunk, h]

theorem byte_outputBlock {n : Nat} (d : Bytes n) (cl bs : Nat) (ks : Bytes 128) (j : Nat) (h : j < bs) :
    (outputBlock d cl bs ks).byte j = (if j < cl then d.byte j else 0) ^^^ ks.byte (j % 128) := by
  unfold outputBlock
  rw [Bytes.byte_xor, byte_padChunk d cl bs j h, byte_expandKeystream ks bs j h]

@[simp] theorem leftHalf_joinHalves (a b : Bytes 64) : leftHalf (joinHalves a b) = a := by
  apply Bytes.ext
  intro j hj
  rw [byte_leftHalf _ _ hj, byte_joinHalves _ _ _ (by omega), if_pos hj]

@[simp] theorem rightHalf_joinHalves (a b : Bytes 64) : rightHalf (joinHalves a b) = b := by
  apply Bytes.ext
  intro j hj
  rw [byte_rightHalf _ _ hj, byte_joinHalves _ _ _ (by omega), if_neg (by omega)]
  congr 1
  omega

@[simp] theorem joinHalves_leftHalf_rightHalf (x : Bytes 128) : joinHalves (leftHalf x) (rightHalf x) = x := by
  apply Bytes.ext
  intro j hj
  rw [byte_joinHalves _ _ _ hj]
  split
  · next h => exact byte_leftHalf x j h
  · rw [byte_rightHalf _ _ (by omega)]
    congr 1
    omega

/-- `n + 1` rounds are `n` rounds and then the round of the last index. -/
theorem feistelRounds_succ (h : Bytes 64 → Bytes 32) (k : Bytes 64) (n i : Nat) (lr : Bytes 64 × Bytes 64) :
    feistelRounds h k (n + 1) i lr = feistelRound h k (i + n) (feistelRounds h k n i lr) := by
  induction n generalizing i lr with
  | zero => rfl
  | succ n ih =>
    rw [feistelRounds, ih]
    rw [show i + 1 + n = i + (n + 1) by omega]
    rfl

end Sys2Proof.Machine
end

