-- ==== Sys2Proof/Laws/PerInstr.lean ====
section
/-! SUPPORT. Facts of every command as syntax, one lemma per constructor. -/

namespace Sys2Proof.Laws.WordInOpcodeMap

/-- The command is well formed, its word has RSVD = 0 and an assigned opcode (30_encoding.md R90, R93), and the four
bytes of the word are the word's. -/
def Statement (i : Instr) : Prop :=
  i.wellFormed = true ∧ wellFormedWord (encode i) = true ∧ rsvdField (encode i) = 0 ∧
    encodeBytes i = [opcField (encode i), 0, 0, 0]

theorem nop : Statement .nop := by unfold Statement; decide
theorem nonceGen : Statement .nonceGen := by unfold Statement; decide
theorem feistel : Statement .feistel := by unfold Statement; decide
theorem ksGen : Statement .ksGen := by unfold Statement; decide
theorem ctrXor : Statement .ctrXor := by unfold Statement; decide
theorem softReset : Statement .softReset := by unfold Statement; decide

end Sys2Proof.Laws.WordInOpcodeMap
end

