-- ==== Sys2Proof/Tests/Slice0.lean ====
section
/-! SUPPORT. Tests of the model against the words and vectors that the spec writes out (30_encoding.md R93,
95_test_vectors.md), each on one small state and one step, and a witness for the hypotheses of every statement that has
some. -/

namespace Sys2Proof.Tests

open Sys2Proof.Machine

/-! ### Helpers -/

/-- What a step or a command answers, seen through one observation; none where it does not answer a next state. -/
def seen {α : Type} (o : Host.Outcome State Fault Refusal) (f : State → α) : Option α :=
  match o with
  | .next s => some (f s)
  | .fault _ => none
  | .refused _ => none

/-- The reset state with these events to come. -/
def withEvents (s : State) (es : List Event) : State := { s with events := es }

/-- A command word has been accepted. -/
def accepted (s : State) (w : Word) : State := { s with dev := s.dev.setAccepted w }

/-- KEY_RAW[0] = 0x6B, KEY_LEN = 1, ROUNDS = 0, BLOCK_SIZE = CHUNK_LEN = 4 (95_test_vectors.md 2.3, 2.6). -/
def keyed : State :=
  { State.reset with
    dev := { Device.reset with keyLen := 1, blockSize := 4, chunkLen := 4, mem := [(0x040, 0x6B)] } }

/-- FAULT with ERRCODE = 2, STATUS = 0x00000204 (95_test_vectors.md V-D7). -/
def faulted : State := { keyed with dev := keyed.dev.setFault .keyEmpty }

/-- NONCE = 00 01 .. 77 (95_test_vectors.md 2.4, 2.5). -/
def countingNonce : Bytes 120 := Bytes.build 120 fun j => BitVec.ofNat 8 j

/-- The keyed state with that nonce and four bytes aa bb cc dd in DATA (95_test_vectors.md 2.6). -/
def loaded (counter : Word64) : State :=
  { keyed with
    dev := { keyed.dev with
      counter := counter
      mem := (keyed.dev.storeWindow .nonce countingNonce).mem ++
        [(0x400, 0xaa), (0x401, 0xbb), (0x402, 0xcc), (0x403, 0xdd)] } }

/-- The word that an admitted read at `off` gives. -/
def wordAt (off : Nat) (s : State) : Word := s.readTarget (target s.cfg off)

/-- An instance with BLOCK_SIZE_MAX = 1022 (95_test_vectors.md V-B9). -/
def cfg1022 : Config := { blockSizeMax := 1022, outputOrder := .lr, one_le := by decide, le_3072 := by decide }

/-! ### Well-formedness: each check refuses an ill-formed term -/

theorem test_rsvd_refused : rsvdClear 0x00000100 = false ∧ wellFormedWord 0x00000100 = false := by decide
theorem test_opcode_refused : opcodeAssigned 0x00000005 = false ∧ wellFormedWord 0x000000FE = false := by decide
theorem test_wellFormed_words : wellFormedWord 0x00000004 = true ∧ wellFormedWord 0x000000FF = true := by decide
theorem test_width_refused : Access.wellFormed ⟨.byte, 0x010, .read⟩ = false ∧
    Access.wellFormed ⟨.half, 0x010, .read⟩ = false ∧ Access.wellFormed ⟨.dword, 0x010, .write 1⟩ = false := by decide
theorem test_misaligned_refused : Access.wellFormed (.rd 0x011) = false ∧ Access.wellFormed (.rd 0x012) = false := by decide
theorem test_access_wellFormed : Access.wellFormed (.rd 0x010) = true ∧ Access.wellFormed (.wr 0xFFC 0) = true := by decide
theorem test_commands_wellFormed : ∀ i ∈ [Instr.nop, .nonceGen, .feistel, .ksGen, .ctrXor, .softReset],
    i.wellFormed = true := by decide

/-! ### Decoding: the words of 30_encoding.md R93, bit by bit (RSVD 31:8, OPC 7:0) -/

theorem test_decode_nop : decode 0b00000000000000000000000000000000 = .ok .nop := by decide
theorem test_decode_nonceGen : decode 0b00000000000000000000000000000001 = .ok .nonceGen := by decide
theorem test_decode_feistel : decode 0b00000000000000000000000000000010 = .ok .feistel := by decide
theorem test_decode_ksGen : decode 0b00000000000000000000000000000011 = .ok .ksGen := by decide
theorem test_decode_ctrXor : decode 0b00000000000000000000000000000100 = .ok .ctrXor := by decide
theorem test_decode_softReset : decode 0b00000000000000000000000011111111 = .ok .softReset := by decide

/-- V-D2 to V-D6: the reserved words, each rejected by name. -/
theorem test_decode_reserved :
    decode 0x00000005 = .error (.reservedOpcode 0x05) ∧ decode 0x000000FE = .error (.reservedOpcode 0xFE) ∧
    decode 0x00000100 = .error (.reservedBits 0x00000100) ∧ decode 0x000001FF = .error (.reservedBits 0x000001FF) ∧
    decode 0x80000002 = .error (.reservedBits 0x80000002) := by decide

theorem test_decodeBytes : decodeBytes [0x04, 0x00, 0x00, 0x00, 0xAB] = .ok (.ctrXor, [0xAB]) ∧
    decodeBytes [0xFF, 0x00, 0x00, 0x00] = .ok (.softReset, []) ∧
    decodeBytes [0x00, 0x00, 0x00, 0x04] = .error (.reservedBits 0x04000000) ∧
    decodeBytes [0x04, 0x00, 0x00] = .error .truncated := by decide

theorem test_decodeTableWord : decodeTableWord 32 0x00000000 = some .nop ∧ decodeTableWord 32 0x00000001 = some .nonceGen ∧
    decodeTableWord 32 0x00000002 = some .feistel ∧ decodeTableWord 32 0x00000003 = some .ksGen ∧
    decodeTableWord 32 0x00000004 = some .ctrXor ∧ decodeTableWord 32 0x000000FF = some .softReset ∧
    decodeTableWord 32 0x00000105 = none := by decide

theorem test_encodeBytes : encodeBytes .softReset = [0xFF, 0x00, 0x00, 0x00] ∧ encodeBytes .ksGen = [0x03, 0x00, 0x00, 0x00] := by
  decide

/-- The very next step after reset runs each row's word: STATUS afterwards (the key is empty, so three of them fault KEY_EMPTY,
60_exceptions.md R200). -/
theorem test_withFetchWord :
    seen (step (State.reset.withFetchWord 32 0x00)) (fun s => s.dev.statusWord) = some 0x00000002 ∧
    seen (step (State.reset.withFetchWord 32 0x02)) (fun s => s.dev.statusWord) = some 0x00000204 ∧
    seen (step (State.reset.withFetchWord 32 0x03)) (fun s => s.dev.statusWord) = some 0x00000204 ∧
    seen (step (State.reset.withFetchWord 32 0x04)) (fun s => s.dev.statusWord) = some 0x00000204 ∧
    seen (step (State.reset.withFetchWord 32 0x05)) (fun s => s.dev.statusWord) = some 0x00000104 ∧
    seen (step (State.reset.withFetchWord 32 0xFF)) (fun s => (s.dev.statusWord, s.responses)) =
      some (0x00000000, [.completed]) := by decide

/-! ### The primitive (40_feistel.md) -/

/-- V-K1, V-K2: byte 18 of the expanded "super_secret123!@#" is its byte 0 and byte 63 its byte 9; round key 255 turns 0x21
into 0x20. -/
theorem test_key_schedule :
    (expandKey [0x73, 0x75, 0x70] 3).byte 3 = 0x73 ∧ (expandKey [0x73, 0x75, 0x70] 3).byte 62 = 0x70 ∧
    (roundKey (expandKey [0x21] 1) 255).byte 63 = 0x20 ∧ (roundKey (expandKey [0xFF] 1) 1).byte 0 = 0x00 := by decide

/-- V-M1 with the digest of SHA-256 of 64 zero bytes, written out from the spec. -/
def digestM1 : Bytes 32 :=
  ⟨#[0xf5, 0xa5, 0xfd, 0x42, 0xd1, 0x6a, 0x20, 0x30, 0x27, 0x98, 0xef, 0x6e, 0xd3, 0x09, 0x97, 0x9b, 0x43, 0x00, 0x3d, 0x23,
    0x20, 0xd9, 0xf0, 0xe8, 0xea, 0x98, 0x31, 0xa9, 0x27, 0x59, 0xfb, 0x4b], by decide⟩

theorem test_mix_V_M1 : ((mix (fun _ => digestM1) (Bytes.zeros 64) (Bytes.zeros 64)).toList.take 8,
    (mix (fun _ => digestM1) (Bytes.zeros 64) (Bytes.zeros 64)).toList.drop 60) =
      ([0x66, 0x35, 0x61, 0x35, 0x66, 0x64, 0x34, 0x32], [0x66, 0x62, 0x34, 0x62]) := by decide

/-- A hash that tells round 0 of V-F3 (its input is the key's bytes, all 0x6B) from a later round. -/
def roundHash (v : Bytes 64) : Bytes 32 := Bytes.build 32 fun _ => if v.byte 0 = 0x6B then 0x25 else 0x4f

/-- V-F2, V-F3 and V-F5 with that hash: f0 = "25" and f1 = "4f" repeated; one round leaves f0 in the right half, two rounds
f0 ‖ f1, and RL exchanges the halves of one round. -/
theorem test_feistelCore_V_F3 :
    (∀ j ∈ [0, 62], (feistelCore roundHash .lr (Bytes.zeros 128) (expandKey [0x6B] 1) 1).byte j = 0x00) ∧
    (∀ j ∈ [64, 126], (feistelCore roundHash .lr (Bytes.zeros 128) (expandKey [0x6B] 1) 1).byte j = 0x32) ∧
    (feistelCore roundHash .lr (Bytes.zeros 128) (expandKey [0x6B] 1) 2).byte 1 = 0x35 ∧
    (feistelCore roundHash .lr (Bytes.zeros 128) (expandKey [0x6B] 1) 2).byte 64 = 0x34 ∧
    (feistelCore roundHash .lr (Bytes.zeros 128) (expandKey [0x6B] 1) 2).byte 65 = 0x66 ∧
    (feistelCore roundHash .rl (Bytes.zeros 128) (expandKey [0x6B] 1) 1).byte 0 = 0x32 := by decide

/-- A hash whose digest repeats the first byte of its input. -/
def firstByteHash (v : Bytes 64) : Bytes 32 := Bytes.build 32 fun _ => v.byte 0

/-- R117 by hand, three rounds from zeros under a key of 0x6B: the digests are 6B, 36 ^ 6C = 5A and 35 ^ 6D = 58, so f0 = "6b",
f1 = "5a" and f2 = "58" repeated, and the output is f1 ‖ (f0 ^ f2). -/
theorem test_feistelCore_three_rounds :
    (feistelCore firstByteHash .lr (Bytes.zeros 128) (expandKey [0x6B] 1) 3).byte 0 = 0x35 ∧
    (feistelCore firstByteHash .lr (Bytes.zeros 128) (expandKey [0x6B] 1) 3).byte 64 = 0x03 ∧
    (feistelCore firstByteHash .lr (Bytes.zeros 128) (expandKey [0x6B] 1) 3).byte 65 = 0x5A := by decide

/-! ### The commands -/

/-- R190: NOP leaves STATUS = 0x00000002. -/
theorem test_nop : seen (step (accepted keyed 0)) (fun s => (s.dev.statusWord, s.dev.keyLen)) = some (0x00000002, 1) := by decide

/-- V-N1: from COUNTER = 77, with the draw 00 01 .. 77. -/
theorem test_nonceGen_V_N1 :
    seen (exec .nonceGen { keyed with bench := [countingNonce], dev := { keyed.dev with counter := 77 } })
      (fun s => (s.dev.statusWord, s.dev.counter, s.dev.windowByte .nonce 0x77, s.dev.windowByte .keyRaw 0, s.bench)) =
      some (0x00000002, 0, 0x77, 0x6B, []) := by decide

/-- V-F1c: ROUNDS = 0x80000000 copies FBUF to KS. -/
theorem test_feistel_V_F1c :
    seen (exec .feistel { keyed with dev := { keyed.dev with
        rounds := 0x80000000
        mem := [(0x040, 0x6B), (0x100, 0x44), (0x101, 0x33), (0x102, 0x22), (0x103, 0x11), (0x17F, 0x11)] } })
      (fun s => (s.dev.statusWord, wordAt 0x180 s, s.dev.windowByte .ks 127, wordAt 0x100 s)) =
      some (0x00000002, 0x11223344, 0x11, 0x11223344) := by decide

/-- V-C3: KS[112..128) = 70717273747576770807060504030201, and COUNTER stays. V-X2: CHUNK_LEN = 1 at COUNTER = 1 gives
aa 01 02 03 and COUNTER = 2. -/
theorem test_ksGen_V_C3_ctrXor_V_X2 :
    seen (exec .ksGen (loaded 0x0102030405060708))
        (fun s => (wordAt 0x1F0 s, wordAt 0x1F4 s, wordAt 0x1F8 s, wordAt 0x1FC s, s.dev.counter)) =
      some (0x73727170, 0x77767574, 0x05060708, 0x01020304, 0x0102030405060708) ∧
    seen (exec .ctrXor { loaded 1 with dev := { (loaded 1).dev with chunkLen := 1 } })
        (fun s => (wordAt 0x400 s, s.dev.counter, s.dev.statusWord)) =
      some (0x030201AA, 2, 0x00000002) := by decide +kernel

/-- STATUS after the CTR_XOR in PENDING is performed with these operands. -/
def ctrXorStatus (keyLen blockSize chunkLen : Word) (counter : Word64) : Option Word :=
  seen (step { State.reset with
    dev := { Device.reset with
      seq := .busy, pending := 4, keyLen := keyLen, blockSize := blockSize, chunkLen := chunkLen, counter := counter } })
    (fun s => s.dev.statusWord)

/-- V-X6 to V-X12: the faults of CTR_XOR and their order. -/
theorem test_ctrXor_faults :
    ctrXorStatus 1 4 4 0xFFFFFFFFFFFFFFFF = some 0x504 ∧ ctrXorStatus 1 0 0 0 = some 0x304 ∧
    ctrXorStatus 1 1025 1 0 = some 0x304 ∧ ctrXorStatus 1 4 0 0 = some 0x404 ∧ ctrXorStatus 1 4 5 0 = some 0x404 ∧
    ctrXorStatus 0 0 0 0 = some 0x204 ∧ ctrXorStatus 0 4 4 0xFFFFFFFFFFFFFFFF = some 0x204 := by decide

/-- R191, V-D8: from STATUS = 0x00000204, the write of 0x000000FF gives 0x00000000 and KEY_LEN = 0 at once. -/
theorem test_softReset_V_D8 :
    seen (step (withEvents faulted [.host (.wr 0x008 0x000000FF)])) (fun s => (s.dev.statusWord, s.dev.keyLen, s.dev.mem)) =
      some (0, 0, []) := by decide

/-- STATUS at acceptance of a word and after its ENGINE step. -/
def statusOfWord (w : Word) : Option Word × Option Word :=
  (seen (step (withEvents State.reset [.host (.wr 0x008 w)])) (fun s => s.dev.statusWord),
    seen (step (accepted State.reset w)) (fun s => s.dev.statusWord))

/-- V-D2 to V-D6: the reserved words are accepted and fault BAD_CMD. -/
theorem test_reserved_V_D :
    statusOfWord 0x00000005 = (some 0x00000001, some 0x00000104) ∧
    statusOfWord 0x000000FE = (some 0x00000001, some 0x00000104) ∧
    statusOfWord 0x00000100 = (some 0x00000001, some 0x00000104) ∧
    statusOfWord 0x000001FF = (some 0x00000001, some 0x00000104) ∧
    statusOfWord 0x80000002 = (some 0x00000001, some 0x00000104) := by decide

/-! ### The register block and the reset input -/

/-- V-B1 to V-B4: bus errors. -/
theorem test_bus_errors :
    (∀ a ∈ [Access.rd 0x011, ⟨.byte, 0x010, .read⟩, .rd 0x028, .rd 0x0F8, .rd 0x200, .rd 0x800, .rd 0xFFC, .wr 0x000 1,
        .wr 0x004 1, .wr 0x00C 1, .wr 0x180 1], keyed.refusesAccess a = true) ∧
    (∀ a ∈ [Access.rd 0x008, .rd 0x040, .rd 0x0F4, .rd 0x100, .rd 0x1FC, .rd 0x7FC, .wr 0x008 0, .wr 0x400 1],
      keyed.refusesAccess a = false) := by decide

/-- V-B7, V-B8: while BUSY only ID, CONFIG and STATUS may be read. -/
theorem test_busy_accesses :
    (∀ a ∈ [Access.rd 0x010, .wr 0x010 1, .rd 0x008, .wr 0x008 0xFF, .rd 0x180], (accepted keyed 0).refusesAccess a = true) ∧
    (∀ a ∈ [Access.rd 0x000, .rd 0x004, .rd 0x00C], (accepted keyed 0).refusesAccess a = false) := by decide

/-- V-B9, V-B10: BLOCK_SIZE_MAX = 1022. -/
theorem test_last_data_word_V_B9 :
    wordAt 0x004 { keyed with cfg := cfg1022 } = 0x407803FE ∧
    State.refusesAccess { keyed with cfg := cfg1022 } (.rd 0x800) = true ∧
    seen (hostAccess { keyed with cfg := cfg1022 } (.wr 0x7FC 0x44332211)) (fun s => (wordAt 0x7FC s, s.dev.mem)) =
      some (0x00002211, [(0x040, 0x6B), (0x7FC, 0x11), (0x7FD, 0x22)]) := by decide

/-- V-R1 (70_reset_and_hazards.md R231): ID and CONFIG after reset. -/
theorem test_reset_constants : wordAt 0x000 State.reset = 0x31534B46 ∧ wordAt 0x004 State.reset = 0x40780400 ∧
    wordAt 0x00C State.reset = 0 := by decide

/-- R230: RST abandons a pending command. -/
theorem test_rst_abandons : seen (core.run 3 (withEvents (accepted keyed 4) [.rst true, .engineTurn, .rst false]))
    (fun s => (s.dev, s.rst, s.faults)) = some (Device.reset, false, []) := by decide

/-! ### The host -/

/-- R68, R96: a wait in which no read, or two, see BUSY before the ENGINE's turn. -/
theorem test_wait :
    (State.wait 0 (accepted keyed 0)).responses = [.data 2] ∧
    (State.wait 2 (accepted keyed 0)).responses = [.data 2, .data 1, .data 1] := by decide

/-- CMD is written, for a purpose. -/
def issue (p : Purpose) (w : Word) : Move := ⟨p, .host (.wr 0x008 w)⟩

/-- The ENGINE has its turn. -/
def turn : Move := ⟨.other, .engineTurn⟩

/-- A keyed FKE whose next two draws a test bench has fixed, and its host. -/
def benched : HostRun := HostRun.start { keyed with bench := [countingNonce, Bytes.zeros 120] }

/-- R173: two encryptions, each with its NONCE_GEN, are given. -/
theorem test_one_nonce_per_encryption :
    (benched.moves [issue (.encrypt 0) 1, turn, issue (.encrypt 0) 4, turn, issue (.encrypt 0) 4, turn,
      issue (.encrypt 1) 1, turn, issue (.encrypt 1) 4]).isSome = true := by decide

/-- R173: not given are an encryption under another's NONCE_GEN, of an empty message or not, a second NONCE_GEN for one
encryption, an encryption under the nonce of reset and one under a nonce of which the host wrote a word. -/
theorem test_nonce_duty_broken :
    benched.moves [issue (.encrypt 0) 1, turn, issue (.encrypt 0) 4, turn, issue (.encrypt 1) 4] = none ∧
    benched.moves [issue (.encrypt 0) 1, turn, issue (.encrypt 1) 4] = none ∧
    benched.moves [issue (.encrypt 0) 1, turn, issue (.encrypt 0) 1] = none ∧
    benched.moves [issue (.encrypt 0) 4] = none ∧
    benched.moves [issue (.encrypt 0) 1, turn, ⟨.other, .host (.wr 0x080 7)⟩, issue (.encrypt 0) 4] = none := by decide

/-- R72: COUNTER_LO alone, and both halves, before KS_GEN; R165: start_block -1. -/
theorem test_counter_duties :
    benched.moves [⟨.other, .host (.wr 0x020 7)⟩, issue .other 3] = none ∧
    (benched.moves [⟨.other, .host (.wr 0x020 7)⟩, ⟨.other, .host (.wr 0x024 0)⟩, issue .other 3]).isSome = true ∧
    benched.moves [⟨.decrypt (.whole []) (-1), .host (.wr 0x020 0xFFFFFFFF)⟩] = none := by decide

/-- A container of two blocks of three bytes. -/
def smallContainer : Container :=
  { blockSize := 3, rounds := 5, nonce := List.replicate 120 7, blocks := [[1, 2, 3], [4, 5, 6]] }

/-- The decryption of its blocks from a start_block on. -/
def decryption (startBlock : Int) : Purpose := .decrypt (.held smallContainer) startBlock

/-- A half of COUNTER is written. -/
def writeLo (v : Word) : Move := ⟨.other, .host (.wr 0x020 v)⟩
def writeHi (v : Word) : Move := ⟨.other, .host (.wr 0x024 v)⟩

/-- R72: after a reset nothing set COUNTER for a KS_GEN. -/
theorem test_unset_counter : benched.moves [issue .other 3] = none := by decide

/-! ### Witnesses: a concrete state and operands that meet the hypotheses of each statement, clause by clause -/

/-- The host reads or writes next. -/
def reading (off : BitVec 12) : State := withEvents keyed [.host (.rd off)]
def writing (off : BitVec 12) (v : Word) : State := withEvents keyed [.host (.wr off v)]

theorem witness_ReservedWordsAreAcceptedAndFaultBadCmd :
    (∀ n ∈ [0x00000005, 0x000000FE, 0x00000100, 0xFFFFFFFF],
      rsvdField (BitVec.ofNat 32 n) ≠ 0 ∨
        (5 ≤ (opcField (BitVec.ofNat 32 n)).toNat ∧ (opcField (BitVec.ofNat 32 n)).toNat ≤ 0xFE)) ∧
    ((writing 0x008 0x05).events = .host (.wr 0x008 0x05) :: [] ∧ (writing 0x008 0x05).rst = false ∧
      (writing 0x008 0x05).dev.seq = .idle) ∧
    ((accepted keyed 0x05).events = [] ∧ (accepted keyed 0x05).rst = false ∧ (accepted keyed 0x05).dev.seq = .busy ∧
      (accepted keyed 0x05).dev.pending = 0x05) ∧
    (withEvents (accepted keyed 0x05) [.engineTurn]).events = .engineTurn :: [] := by decide

theorem witness_StepRunsTheDecodedCommand :
    (∀ i ∈ [Instr.nop, .nonceGen, .feistel, .ksGen, .ctrXor],
      (accepted keyed (encode i)).dev.seq = .busy ∧ (accepted keyed (encode i)).rst = false ∧
      decode (accepted keyed (encode i)).dev.pending = .ok i ∧ i.wellFormed = true ∧ i ≠ .softReset) ∧
    (accepted keyed 4).events = [] ∧ (withEvents (accepted keyed 4) [.engineTurn]).events = .engineTurn :: [] := by decide

theorem witness_StepRunsSoftResetAtTheCmdWrite :
    (withEvents faulted [.host (.wr 0x008 0xFF)]).events = .host (.wr 0x008 0xFF) :: [] ∧ decode 0xFF = .ok .softReset ∧
    faulted.dev.seq ≠ .busy ∧ keyed.dev.seq ≠ .busy ∧ faulted.rst = false := by decide

theorem witness_EngineMovesOnlyWhileBusyAndNotInReset :
    (keyed.dev.seq ≠ .busy ∧ keyed.events = []) ∧ (faulted.dev.seq ≠ .busy) ∧
    ({ accepted keyed 4 with rst := true }.rst = true ∧ { accepted keyed 4 with rst := true }.dev.seq = .busy) ∧
    (withEvents keyed [.engineTurn]).events = .engineTurn :: [] := by decide

theorem witness_WaitEndsAfterAnyNumberOfStatusReads :
    ∀ n ∈ [0, 1, 3], (withEvents (accepted keyed 4) (List.replicate n (.host (.rd 0x00C)))).events =
        List.replicate n (.host (.rd 0x00C)) ∧ (accepted keyed 4).dev.seq = .busy ∧ (accepted keyed 4).rst = false := by decide

theorem witness_EndedRunIsQuiescent : keyed.cleanEnd ∧ faulted.faultedEnd := by decide

theorem witness_NonceGenLoadsTheDrawAndClearsCounter :
    ({ keyed with bench := [Bytes.zeros 120] } : State).bench = Bytes.zeros 120 :: [] ∧ keyed.bench = [] :=
  ⟨rfl, rfl⟩

theorem witness_FeistelWritesTheImageOfFbufToKs : keyed.dev.keyLen ≠ 0 := by decide
theorem witness_KsGenWritesTheKeystreamBlockToKs : keyed.dev.keyLen ≠ 0 := by decide

theorem witness_CtrXorProcessesOneBlock :
    keyed.dev.keyLen ≠ 0 ∧ keyed.dev.blockSize ≠ 0 ∧ keyed.dev.blockSize.toNat ≤ keyed.cfg.blockSizeMax ∧
    keyed.dev.chunkLen ≠ 0 ∧ keyed.dev.chunkLen.toNat ≤ keyed.dev.blockSize.toNat ∧
    keyed.dev.counter.toNat < 2 ^ 64 - 1 ∧ ((0xFFFFFFFFFFFFFFFE : Word64).toNat < 2 ^ 64 - 1) := by decide

theorem witness_ResetSetsEveryStateElement :
    (withEvents (accepted keyed 4) [.rst true, .rst false]).events = .rst true :: .rst false :: [] := by decide

/-- One state for each of the five codes; the next state is in FAULT. -/
theorem witness_FaultEntryIsAllOrNothing :
    ∀ p ∈ [(accepted keyed 5, (1 : BitVec 4)), (accepted State.reset 2, 2), (accepted State.reset 4, 2),
        (accepted { keyed with dev := { keyed.dev with blockSize := 1025 } } 4, 3),
        (accepted { keyed with dev := { keyed.dev with chunkLen := 5 } } 4, 4),
        (accepted { keyed with dev := { keyed.dev with counter := 0xFFFFFFFFFFFFFFFF } } 4, 5)],
      p.1.events = [] ∧ p.1.dev.seq = .busy ∧ p.1.rst = false ∧
      seen (step p.1) (fun t => (t.dev.seq, t.dev.errcode)) = some (.fault, p.2) ∧
      seen (step (withEvents p.1 [.engineTurn])) (fun t => (t.dev.seq, t.dev.errcode)) = some (.fault, p.2) := by decide

/-- The same states, and one where no fault applies: PENDING = 4 and 5 are the words where the first two clauses meet. -/
theorem witness_FirstFaultInOrderIsReported :
    ∀ s ∈ [accepted keyed 5, accepted keyed 0xFF, accepted State.reset 2, accepted State.reset 1, accepted keyed 0,
        accepted keyed 4, accepted { keyed with dev := { keyed.dev with chunkLen := 5 } } 4],
      s.events = [] ∧ s.dev.seq = .busy ∧ s.rst = false ∧ (withEvents s [.engineTurn]).events = .engineTurn :: [] := by
  decide

theorem witness_EmptyKeyFaultsEveryKeyCommand : State.reset.dev.keyLen = 0 := by decide

theorem witness_FaultStateIsSticky :
    (faulted.dev.seq = .fault ∧ seen (step faulted) (fun t => t.dev.seq) = some .fault) ∧
    (seen (step (withEvents faulted [.host (.wr 0x008 0xFF)])) (fun t => t.dev) = some Device.reset) ∧
    (seen (step (withEvents faulted [.rst true])) (fun t => t.dev) = some Device.reset) ∧
    (faulted.rst = false ∧ (withEvents faulted [.host (.wr 0x008 0)]).events = .host (.wr 0x008 0) :: [] ∧
      (0 : Word) ≠ 0x000000FF) := by decide

theorem witness_OnlyTheFiveCodesAreEverRaised :
    seen (step (accepted keyed 5)) (fun t => t.dev.errcode) = some 1 ∧
    seen (step keyed) (fun t => t.dev.errcode) = some keyed.dev.errcode := by decide

/-- An access for each of the five cases and an admitted one, at the boundary offsets of the map. -/
theorem witness_BusErrorInExactlyFiveCases :
    (∀ a ∈ [Access.rd 0x00D, .rd 0x028, .rd 0x03C, .rd 0x0F8, .rd 0x0FC, .rd 0x200, .rd 0x3FC, .rd 0x800, .wr 0x004 0,
        .wr 0x00C 0, .wr 0x180 0, .wr 0x1FC 0, .rd 0x008, .rd 0x03F, .rd 0x7FC],
      (withEvents keyed [.host a]).events = .host a :: []) ∧
    (seen (step (reading 0x7FC)) (fun t => t.responses) = some [.data 0]) ∧
    (seen (step (reading 0x800)) (fun t => t.responses) = some [.busError]) ∧
    (seen (step (withEvents (accepted keyed 0) [.host (.rd 0x008)])) (fun t => t.responses) = some [.busError]) ∧
    (seen (step { reading 0x00C with rst := true }) (fun t => t.responses) = some [.busError]) := by decide

theorem witness_CmdWriteActsByState :
    (writing 0x008 0x00000000).events = .host (.wr 0x008 0x00000000) :: [] ∧
      (writing 0x008 0x000000FF).events = .host (.wr 0x008 0x000000FF) :: [] ∧
      (writing 0x008 0x00000000).rst = false ∧ (writing 0x008 0x00000000).dev.seq = .idle ∧ faulted.dev.seq = .fault ∧
      (accepted keyed 0).dev.seq = .busy := by decide

theorem witness_ReadsHaveNoSideEffect :
    ∀ off ∈ [0x008, 0x040, 0x07C, 0x080],
      (reading (BitVec.ofNat 12 off)).events = .host (.rd (BitVec.ofNat 12 off)) :: [] ∧
      (Access.rd (BitVec.ofNat 12 off)).kind = .read := by decide

theorem witness_OperandWritesStoreAndReadBack :
    ∀ off ∈ [0x010, 0x014, 0x018, 0x01C], keyed.rst = false ∧ keyed.dev.seq ≠ .busy ∧
      (withEvents keyed [.host (.wr (BitVec.ofNat 12 off) 0xFFFFFFFF), .host (.rd (BitVec.ofNat 12 off))]).events =
        .host (.wr (BitVec.ofNat 12 off) 0xFFFFFFFF) :: .host (.rd (BitVec.ofNat 12 off)) :: [] := by decide

theorem witness_CounterHalvesAreWrittenAlone :
    ∀ off ∈ [0x020, 0x024], keyed.rst = false ∧ keyed.dev.seq ≠ .busy ∧
      (withEvents keyed [.host (.wr (BitVec.ofNat 12 off) 0xFFFFFFFF), .host (.rd (BitVec.ofNat 12 off))]).events =
        .host (.wr (BitVec.ofNat 12 off) 0xFFFFFFFF) :: .host (.rd (BitVec.ofNat 12 off)) :: [] := by decide

/-- The first and the last word of each window that the host may write. -/
theorem witness_WindowWordWritesAreLittleEndian :
    ∀ p ∈ [(Window.keyRaw, 0), (.keyRaw, 15), (.nonce, 0), (.nonce, 29), (.fbuf, 0), (.fbuf, 31), (.data, 0), (.data, 255)],
      keyed.rst = false ∧ keyed.dev.seq ≠ .busy ∧ p.1 ≠ .ks ∧ 4 * p.2 < p.1.size keyed.cfg ∧
      (writing (BitVec.ofNat 12 (p.1.base + 4 * p.2)) 7).events =
        .host (.wr (BitVec.ofNat 12 (p.1.base + 4 * p.2)) 7) :: [] := by decide

/-- The first and the last word of each window that reads back, and a last word that the window has only in part. -/
theorem witness_WindowWordReadsAreLittleEndian :
    (∀ p ∈ [(Window.nonce, 0), (.nonce, 29), (.fbuf, 0), (.fbuf, 31), (.ks, 0), (.ks, 31), (.data, 0), (.data, 255)],
      keyed.rst = false ∧ keyed.dev.seq ≠ .busy ∧ p.1 ≠ .keyRaw ∧ 4 * p.2 < p.1.size keyed.cfg ∧
      (reading (BitVec.ofNat 12 (p.1.base + 4 * p.2))).events = .host (.rd (BitVec.ofNat 12 (p.1.base + 4 * p.2))) :: []) ∧
    4 * 255 < Window.data.size cfg1022 ∧ ¬ (4 * 255 + 2 < Window.data.size cfg1022) := by decide

theorem witness_StatusWordFields :
    (reading 0x00C).rst = false ∧ (reading 0x00C).events = .host (.rd 0x00C) :: [] ∧
    (writing 0x00C 1).events = .host (.wr 0x00C 1) :: [] := by decide

theorem witness_IdAndConfigAreConstants :
    (reading 0x000).rst = false ∧ (reading 0x000).events = .host (.rd 0x000) :: [] ∧
    (reading 0x004).events = .host (.rd 0x004) :: [] ∧ keyed.cfg.blockSizeMax = 1024 ∧ cfg1022.blockSizeMax ≠ 1024 ∧
    (writing 0x004 1).events = .host (.wr 0x004 1) :: [] := by decide

/-- Another key byte, and the same bytes elsewhere. -/
theorem witness_KeyBytesAreNeverReadBack :
    (reading 0x040).events = .host (.rd 0x040) :: [] ∧
    (∀ x, x < 0x040 ∨ 0x080 ≤ x → Mem.read [(0x040, 0x6C)] x = keyed.dev.mem.read x) := by
  refine ⟨by decide, ?_⟩
  intro x hx
  simp only [keyed, Mem.read]
  rw [if_neg (by omega), if_neg (by omega)]

theorem witness_ResetInputAbandonsThePendingCommand :
    ({ reading 0x00C with rst := true }.rst = true ∧ { reading 0x00C with rst := true }.events = .host (.rd 0x00C) :: []) ∧
    ((withEvents (accepted keyed 4) [.engineTurn]).events = .engineTurn :: []) ∧
    ({ accepted keyed 4 with rst := true }.events = []) ∧
    ((withEvents (accepted keyed 4) [.rst true]).events = .rst true :: []) ∧
    ((withEvents keyed [.rst false]).events = .rst false :: []) ∧
    (State.reset.dev = Device.reset ∧ State.reset.rst = false ∧ (Access.rd 0x000).kind = .read) := by decide

theorem witness_NoRoundsGiveTheInputBack :
    (∀ n ∈ [0, 0xFFFFFFFF, 0x80000000], (BitVec.ofNat 32 n).toInt ≤ 0) ∧ keyed.dev.rounds.toInt ≤ 0 ∧
    keyed.cfg.outputOrder = .lr ∧ keyed.dev.keyLen ≠ 0 := by decide

/-- KEY_LEN = 0; a loaded key of 1 byte; one of 65 bytes with 65 and with 64 in KEY_LEN. -/
theorem witness_KeyOperandRepeatsTheLoadedKey :
    Device.reset.keyLen = 0 ∧ keyed.dev.keyLen ≠ 0 ∧ ([0x6B] : List Byte) ≠ [] ∧
    (∀ j < min 1 64, keyed.dev.windowByte .keyRaw j = [0x6B].getD j 0) ∧ keyed.dev.keyLen.toNat = [0x6B].length ∧
    (∀ j < min 65 64, Device.reset.windowByte .keyRaw j = (List.replicate 65 (0 : Byte)).getD j 0) ∧
    ((65 : Word).toNat = (List.replicate 65 (0 : Byte)).length) ∧
    ((64 : Word).toNat = min (List.replicate 65 (0 : Byte)).length 64) := by decide

theorem witness_CtrXorTwiceReturnsThePaddedChunk :
    keyed.dev.keyLen ≠ 0 ∧ keyed.dev.blockSize ≠ 0 ∧ keyed.dev.blockSize.toNat ≤ keyed.cfg.blockSizeMax ∧
    keyed.dev.chunkLen ≠ 0 ∧ keyed.dev.chunkLen.toNat ≤ keyed.dev.blockSize.toNat ∧
    keyed.dev.counter.toNat < 2 ^ 64 - 1 := by decide

theorem witness_ConsecutiveBlocksUseConsecutiveCounters :
    keyed.dev.keyLen ≠ 0 ∧ keyed.dev.blockSize ≠ 0 ∧ keyed.dev.blockSize.toNat ≤ keyed.cfg.blockSizeMax ∧
    keyed.dev.chunkLen ≠ 0 ∧ keyed.dev.chunkLen.toNat ≤ keyed.dev.blockSize.toNat ∧
    keyed.dev.counter.toNat + 0 ≤ 2 ^ 64 - 1 ∧ keyed.dev.counter.toNat + 3 ≤ 2 ^ 64 - 1 := by decide

theorem witness_CtrXorNeverWrapsTheCounter :
    ({ keyed with dev := { keyed.dev with counter := 0xFFFFFFFFFFFFFFFF } } : State).dev.counter.toNat = 2 ^ 64 - 1 ∧
    keyed.dev.keyLen ≠ 0 ∧ keyed.dev.blockSize ≠ 0 ∧ keyed.dev.blockSize.toNat ≤ keyed.cfg.blockSizeMax ∧
    keyed.dev.chunkLen ≠ 0 ∧ keyed.dev.chunkLen.toNat ≤ keyed.dev.blockSize.toNat := by decide

/-- Two states that differ in FBUF and in a DATA byte past the chunk; both commands complete. -/
theorem witness_OutputBlockDependsOnlyOnItsOperands :
    let s := keyed
    let s' : State := { keyed with dev := { keyed.dev with mem := [(0x040, 0x6B), (0x100, 0x01), (0x404, 0x02)] } }
    s'.cfg.outputOrder = s.cfg.outputOrder ∧ (∀ j < 120, s'.dev.windowByte .nonce j = s.dev.windowByte .nonce j) ∧
    s'.dev.counter = s.dev.counter ∧
    s'.dev.keyOperand = s.dev.keyOperand ∧
    s'.dev.rounds = s.dev.rounds ∧ s'.dev.blockSize = s.dev.blockSize ∧ s'.dev.chunkLen = s.dev.chunkLen ∧
    (∀ j < s.dev.chunkLen.toNat, s'.dev.windowByte .data j = s.dev.windowByte .data j) ∧
    seen (exec .ctrXor s) (fun t => t.dev.seq) = some .idle ∧ seen (exec .ctrXor s') (fun t => t.dev.seq) = some .idle := by
  decide +kernel

/-- COUNTER does change: at a host write, at a reset and at CTR_XOR. -/
theorem witness_CounterHasOnlyItsListedWriters :
    seen (step (writing 0x020 5)) (fun t => t.dev.counter) = some 5 ∧
    seen (step (writing 0x024 5)) (fun t => t.dev.counter) = some 0x500000000 ∧
    seen (step (withEvents { keyed with dev := { keyed.dev with counter := 7 } } [.rst true])) (fun t => t.dev.counter) =
      some 0 ∧
    seen (step (accepted keyed 4)) (fun t => t.dev.counter) = some 1 := by decide

theorem witness_EngineNeverWritesTheHostsOperands :
    (accepted keyed 4).events = [] ∧ seen (step (accepted keyed 4)) (fun t => t.dev.counter) = some 1 ∧
    (withEvents (accepted keyed 4) [.engineTurn]).events = .engineTurn :: [] := by decide

theorem witness_EveryStepKeepsTheInvariant :
    State.reset.Inv ∧ seen (step State.reset) (fun t => t.dev.seq) = some .idle := by decide

/-- States that hold bytes, are BUSY or are in FAULT meet it too. -/
theorem witness_invariant_with_bytes : keyed.Inv := by decide
theorem witness_invariant_while_busy : (accepted keyed 4).Inv := by decide
theorem witness_invariant_in_fault : faulted.Inv := by decide

theorem witness_SerializedContainerParsesBack :
    smallContainer.nonce.length = 120 ∧ 1 ≤ smallContainer.blockSize ∧ smallContainer.blockSize ≤ cfg1022.blockSizeMax ∧
    (∀ b ∈ smallContainer.blocks, b.length = smallContainer.blockSize) := by decide

theorem witness_WindowsOfASerializedContainer :
    smallContainer.nonce.length = 120 ∧ 1 ≤ smallContainer.blockSize ∧ smallContainer.blockSize ≤ cfg1022.blockSizeMax ∧
    (∀ b ∈ smallContainer.blocks, b.length = smallContainer.blockSize) ∧ 2 ≤ smallContainer.blocks.length ∧
    smallContainer.blocks.length < 3 := by decide

/-- Files of 132 and 133 bytes whose header fields meet each of the four clauses. -/
def fileWith (bs ns : Byte) (n : Nat) : List Byte := [bs, 0, 0, 0, ns, 0, 0, 0, 5, 0, 0, 0] ++ List.replicate n 0

theorem witness_WindowReadsAreValidatedFirst :
    (∀ p ∈ [(fileWith 3 121 120, (3 : Int), (121 : Int)), (fileWith 3 119 120, 3, 119), (fileWith 0 120 120, 0, 120),
        (fileWith 2 120 121, 2, 120)],
      12 ≤ p.1.length ∧ p.2.1 = (fileWord p.1 0).toInt ∧ p.2.2 = (fileWord p.1 4).toInt) ∧
    ((fileWith 3 121 120).length : Int) - 12 < 121 ∧ (119 : Int) ≤ ((fileWith 3 119 120).length : Int) - 12 ∧
    (120 : Int) ≤ ((fileWith 0 120 120).length : Int) - 12 ∧ ((0 : Int) < 1) ∧
    ((2 : Int) ≤ (cfg1022.blockSizeMax : Int)) ∧ (((fileWith 2 120 121).length : Int) - 132) % 2 ≠ 0 := by decide +kernel

/-- A message of four bytes in blocks of three, and the empty message. -/
theorem witness_DecryptOfEncryptIsThePaddedMessage :
    keyed.dev.seq = .idle ∧ keyed.rst = false ∧ State.reset.dev.seq = .idle ∧ State.reset.rst = false ∧
    State.reset.cfg = keyed.cfg ∧ ([0x6B] : List Byte) ≠ [] ∧ 1 ≤ 3 ∧ 3 ≤ keyed.cfg.blockSizeMax ∧
    (([1, 2, 3, 4] : List Byte).length + (3 - 1)) / 3 ≤ 2 ^ 64 - 1 ∧
    (([] : List Byte).length + (3 - 1)) / 3 ≤ 2 ^ 64 - 1 := by decide

theorem witness_TailWindowDecryptsToTheTail :
    keyed.dev.seq = .idle ∧ keyed.rst = false ∧ State.reset.cfg = keyed.cfg ∧ ([0x6B] : List Byte) ≠ [] ∧
    smallContainer.nonce.length = 120 ∧ 1 ≤ smallContainer.blockSize ∧ smallContainer.blockSize ≤ keyed.cfg.blockSizeMax ∧
    (∀ b ∈ smallContainer.blocks, b.length = smallContainer.blockSize) ∧ smallContainer.blocks.length ≤ 2 ^ 64 - 1 ∧
    1 ≤ 1 ∧ 1 ≤ smallContainer.blocks.length ∧ 2 ≤ smallContainer.blocks.length := by decide

/-- A move that is not given for each of the alternatives, and moves that are. -/
theorem witness_MovesThatBreakADutyAreNotGiven :
    (benched.move (issue .other 4) = none) ∧ (benched.move (issue (.encrypt 0) 3) = none) ∧
    (benched.move ⟨.decrypt (.whole [1, 2, 3]) 0, .engineTurn⟩ = none) ∧
    (benched.move ⟨.decrypt (.head [1, 2, 3] 0) 0, .engineTurn⟩ = none) ∧
    (benched.move ⟨.decrypt (.tail [1, 2, 3] 0) 0, .engineTurn⟩ = none) ∧
    (HostRun.move { benched with duties := { Duties.start with hiWritten := true } } (issue .other 3) = none) ∧
    (HostRun.move { benched with duties := { Duties.start with hiWritten := true } } turn).isSome = true := by decide

theorem witness_moves_of_a_held_container :
    Purpose.validated cfg1022 (.decrypt (.held smallContainer) 0) = true ∧
    Purpose.validated cfg1022 (.decrypt (.held smallContainer) (-1)) = false ∧
    Purpose.validated cfg1022 (.decrypt (.held { smallContainer with nonce := [7] }) 0) = false ∧
    Purpose.validated cfg1022 (.decrypt (.held { smallContainer with blockSize := 1023 }) 0) = false := by decide

theorem witness_HalfWrittenCounterGetsNoCommand :
    benched.state.dev.seq = .idle ∧ benched.state.rst = false ∧ benched.duties.loWritten = false ∧
    benched.duties.hiWritten = false ∧ benched.duties.counter = .unset ∧ (0 : Int) ≤ 5 := by decide

theorem witness_validated_source : (ContainerSource.held smallContainer).validated benched.state.cfg = true := by decide

theorem witness_DecryptionNeedsBothCounterHalves :
    benched.duties.counter = .unset ∧ benched.duties.loWritten = false ∧ benched.duties.hiWritten = false ∧
    ((benched.moves [issue .other 1, turn]).map fun r => (r.duties.counter, r.duties.loWritten, r.duties.hiWritten)) =
      some (.nonceGen, false, false) ∧
    ((benched.moves [writeLo 5, writeHi 0]).map fun r => (r.state.dev.seq, r.state.rst)) = some (.idle, false) ∧
    (benched.move (issue .other 0xFF)).isSome = true ∧ (benched.move (issue .other 0x01)).isSome = true := by decide

/-- A reset of each kind is given: SOFT_RESET out of FAULT, and RST driven high and then low while BUSY. -/
theorem witness_resets_of_a_run :
    ((HostRun.start faulted).move (issue .other 0xFF)).map (fun r => (r.state.dev, r.duties.counter)) =
      some (Device.reset, .unset) ∧
    ((HostRun.start (accepted keyed 4)).moves [⟨.other, .rst true⟩, ⟨.other, .rst false⟩]).map
      (fun r => (r.state.dev, r.duties.counter)) = some (Device.reset, .unset) := by decide

/-- R96 with RST asserted: the STATUS read is refused, and the wait ends (log entry 17). -/
theorem test_wait_in_reset :
    (State.wait 3 { keyed with rst := true }).responses = [.busError] ∧
    State.lastRead (State.wait 3 { keyed with rst := true }) = 0 := by decide

/-- R72, R164, R165, R168: a decryption is not begun after a reset or NONCE_GEN without a write of COUNTER; one setctr serves
all its blocks; another start_block needs its own. -/
theorem witness_decryption_moves :
    benched.moves [issue (decryption 5) 4] = none ∧ benched.moves [issue .other 1, turn, issue (decryption 0) 4] = none ∧
    (benched.moves [writeLo 5, writeHi 0, issue (decryption 5) 4, turn, issue (decryption 5) 4]).isSome = true ∧
    benched.moves [writeLo 5, writeHi 0, issue (decryption 5) 4, turn, issue (decryption 2) 4] = none ∧
    (benched.moves [writeLo 5, writeHi 0, issue (decryption 5) 4, turn, writeLo 2, writeHi 0,
      issue (decryption 2) 4]).isSome = true := by decide +kernel

/-- A run up to the first block of an encryption, for each of the two commands. -/
theorem witness_EncryptionsRunUnderDrawnNonces :
    ∀ w ∈ [3, 4],
      ((benched.moves [issue (.encrypt 0) 1, turn]).bind fun r => r.move (issue (.encrypt 0) (BitVec.ofNat 32 w))).isSome =
        true ∧
      (benched.moves [issue (.encrypt 0) 1, turn]).map (fun r => (r.state.dev.seq, r.state.rst)) = some (.idle, false) := by
  decide

/-- Two commands of one encryption with a turn between; of two, with a NONCE_GEN between; and two NONCE_GENs. -/
theorem witness_EachEncryptionHasItsOwnNonceGen :
    (benched.moves [issue (.encrypt 0) 1, turn, issue (.encrypt 0) 4, turn, issue (.encrypt 0) 4]).isSome = true ∧
    (benched.moves [issue (.encrypt 0) 1, turn, issue (.encrypt 0) 3, turn, issue (.encrypt 1) 1, turn,
      issue (.encrypt 1) 3]).isSome = true ∧
    (benched.moves [issue (.encrypt 0) 1, turn]).map (fun r => (r.state.dev.seq, r.state.rst)) = some (.idle, false) := by
  decide

end Sys2Proof.Tests
end

/-! PROOFS. The read-only registers STATUS, ID and CONFIG (10_state.md R24, R37, R38): their fields, that they are read in
every STATE, and that no write to them is admitted. -/

namespace Sys2Proof.Machine

/-! ### Accesses to a read-only register -/

/-- A register stands at its own offset, as an access spells it. -/
theorem target_reg_offset (cfg : Config) (r : Reg) : target cfg (BitVec.ofNat 12 r.offset).toNat = .reg r := by
  rw [target_eq_reg]
  cases r <;> decide

/-- Once RST is deasserted, no STATE refuses an aligned read of an element that 20_memory.md R65 admits while BUSY. -/
theorem rd_admitted_of_readableWhileBusy {s : State} {off : BitVec 12} (h4 : off.toNat % 4 = 0) (hr : s.rst = false)
    (hb : (target s.cfg off.toNat).readableWhileBusy = true) : s.refusesAccess (.rd off) = false := by
  have notReserved : target s.cfg off.toNat ≠ .reserved := by
    intro ht
    simp [ht, Target.readableWhileBusy] at hb
  rw [← Bool.not_eq_true, State.refusesAccess_of_wellFormed]
  · simp [Access.rd, accessTarget, isWrite, hr, hb, notReserved]
  · simp [Access.rd, Access.wellFormed, Access.widthOk, Access.aligned, h4]

/-- In every STATE a read of ID, CONFIG or STATUS answers with the register's value and has no other effect. -/
theorem step_rd_reg_of_readableWhileBusy {s : State} {es : List Event} {r : Reg}
    (hb : (Target.reg r).readableWhileBusy = true) (hr : s.rst = false)
    (he : s.events = .host (.rd (BitVec.ofNat 12 r.offset)) :: es) :
    step s = .next { s with events := es, responses := .data (s.readReg r) :: s.responses } := by
  have aligned : (BitVec.ofNat 12 r.offset).toNat % 4 = 0 := by cases r <;> decide
  have admitted : s.refusesAccess (.rd (BitVec.ofNat 12 r.offset)) = false :=
    rd_admitted_of_readableWhileBusy aligned hr (by rwa [target_reg_offset])
  rw [step_rd he admitted, target_reg_offset]
  rfl

/-- A write to a read-only element is refused in every STATE and at either level of RST (20_memory.md R63 case 3). -/
theorem wr_refused_of_readOnly {s : State} {off : BitVec 12} {v : Word}
    (ho : (target s.cfg off.toNat).readOnly = true) : s.refusesAccess (.wr off v) = true := by
  simp [State.refusesAccess, accessTarget, Access.wr, isWrite, ho]

/-- A refused access that is the next event: the host gets the answer `busError`, and the FKE is as before. -/
theorem step_refused {s : State} {es : List Event} {a : Access} (he : s.events = .host a :: es)
    (h : s.refusesAccess a = true) :
    step s = .next { s with events := es, responses := .busError :: s.responses } := by
  rw [step_host he, hostAccess_refused (s := s.popEvent) h]
  simp [State.popEvent, he, State.respond]

theorem step_wr_reg_of_readOnly {s : State} {es : List Event} {r : Reg} {v : Word}
    (ho : (Target.reg r).readOnly = true) (he : s.events = .host (.wr (BitVec.ofNat 12 r.offset) v) :: es) :
    step s = .next { s with events := es, responses := .busError :: s.responses } :=
  step_refused he (wr_refused_of_readOnly (by rwa [target_reg_offset]))

/-! ### The fields of STATUS -/

theorem Device.statusWord_done (d : Device) : d.statusWord.getLsbD 1 = d.done := by
  simp only [Device.statusWord, BitVec.getLsbD_append]
  simp

theorem Device.statusWord_errcode (d : Device) : d.statusWord.extractLsb' 8 4 = d.errcode := by
  unfold Device.statusWord
  -- below ERRCODE stand eight bits, above it the reserved ones
  rw [BitVec.extractLsb'_append_eq_of_le (by decide), BitVec.extractLsb'_append_eq_of_le (by decide),
    BitVec.extractLsb'_append_eq_of_le (by decide), BitVec.extractLsb'_append_eq_of_le (by decide),
    BitVec.extractLsb'_append_eq_of_add_le (by decide)]
  exact BitVec.extractLsb'_eq_self

/-- Bits 7:3 of STATUS are reserved and read 0. -/
theorem Device.statusWord_reserved_low (d : Device) {n : Nat} (h3 : 3 ≤ n) (h7 : n ≤ 7) :
    d.statusWord.getLsbD n = false := by
  simp only [Device.statusWord, BitVec.getLsbD_append]
  rw [if_neg (by omega), if_neg (by omega), if_neg (by omega), if_pos (by omega), BitVec.getLsbD_zero]

/-- Bits 31:12 of STATUS are reserved and read 0. -/
theorem Device.statusWord_reserved_high (d : Device) {n : Nat} (h12 : 12 ≤ n) : d.statusWord.getLsbD n = false := by
  simp only [Device.statusWord, BitVec.getLsbD_append]
  rw [if_neg (by omega), if_neg (by omega), if_neg (by omega), if_neg (by omega), if_neg (by omega),
    BitVec.getLsbD_zero]

/-- STATE has one value, so STATUS does not show BUSY and FAULT at once. -/
theorem Device.statusWord_not_busy_and_fault (d : Device) :
    ¬ (d.statusWord.getLsbD 0 = true ∧ d.statusWord.getLsbD 2 = true) := by
  rw [d.statusWord_busy, d.statusWord_fault, beq_iff_eq, beq_iff_eq]
  rintro ⟨busy, fault⟩
  cases busy.symm.trans fault

theorem Device.statusWord_reset : Device.reset.statusWord = 0 := by decide

/-- Settles O28: STATUS is taken apart field by field; R65 admits its reads and R63 refuses its writes in every STATE. -/
theorem statusWordFields : Obligations.StatusWordFields := by
  refine ⟨fun d => ⟨?busy, d.statusWord_done, ?fault, ?low, d.statusWord_errcode, ?high,
    d.statusWord_not_busy_and_fault⟩, Device.statusWord_reset, ?read, ?write⟩
  case busy => rw [d.statusWord_busy, beq_iff_eq]
  case fault => rw [d.statusWord_fault, beq_iff_eq]
  case low => exact fun n h3 h7 => d.statusWord_reserved_low h3 h7
  case high => exact fun n h12 _ => d.statusWord_reserved_high h12
  case read => exact fun s es hr he => step_rd_reg_of_readableWhileBusy (r := .status) rfl hr he
  case write => exact fun s es v he => step_wr_reg_of_readOnly (r := .status) rfl he

/-! ### The fields of CONFIG -/

/-- Bits 15:0 of CONFIG are wide enough for every BLOCK_SIZE_MAX that 00_scope.md R8 allows. -/
theorem configWord_blockSizeMax (cfg : Config) :
    ((configWord cfg).extractLsb' 0 16).toNat = cfg.blockSizeMax := by
  have bound := cfg.le_3072
  unfold configWord
  rw [BitVec.extractLsb'_append_eq_of_add_le (by decide), BitVec.extractLsb'_eq_self, BitVec.toNat_ofNat]
  exact Nat.mod_eq_of_lt (by omega)

theorem configWord_nonceBytes (cfg : Config) : (configWord cfg).extractLsb' 16 8 = 120 := by
  unfold configWord
  rw [BitVec.extractLsb'_append_eq_of_le (by decide)]
  decide

theorem configWord_keyBytes (cfg : Config) : (configWord cfg).extractLsb' 24 8 = 64 := by
  unfold configWord
  rw [BitVec.extractLsb'_append_eq_of_le (by decide)]
  decide

theorem configWord_of_blockSizeMax_eq_1024 {cfg : Config} (h : cfg.blockSizeMax = 1024) :
    configWord cfg = 0x40780400 := by
  rw [configWord, h]
  decide

/-- Settles O29: ID and CONFIG hold nothing of the state, so each read gives the same word; R65 admits the reads and R63
refuses the writes in every STATE. -/
theorem idAndConfigAreConstants : Obligations.IdAndConfigAreConstants := by
  refine ⟨?readId, by decide, ?readConfig, ?write⟩
  case readId => exact fun s es hr he => step_rd_reg_of_readableWhileBusy (r := .id) rfl hr he
  case readConfig =>
    exact fun s es hr he => ⟨configWord s.cfg, step_rd_reg_of_readableWhileBusy (r := .config) rfl hr he,
      configWord_blockSizeMax s.cfg, configWord_nonceBytes s.cfg, configWord_keyBytes s.cfg,
      configWord_of_blockSizeMax_eq_1024⟩
  case write =>
    rintro s es off v (rfl | rfl) he
    · exact step_wr_reg_of_readOnly (r := .id) rfl he
    · exact step_wr_reg_of_readOnly (r := .config) rfl he

end Sys2Proof.Machine

/-! PROOFS. Which host accesses are a bus error (20_memory.md R63), and what a write to CMD does by STATE (R67). -/

namespace Sys2Proof.Machine

/-! ### The five cases of a bus error, in the offsets of the address map -/

theorem isWrite_eq_true {a : Access} : isWrite a = true ↔ a.kind ≠ .read := by
  unfold isWrite
  cases a.kind <;> simp

theorem isWrite_eq_false {a : Access} : isWrite a = false ↔ a.kind = .read := by
  rw [← Bool.not_eq_true, isWrite_eq_true, not_not]

theorem Access.wellFormed_eq_false {a : Access} :
    a.wellFormed = false ↔ a.width ≠ .word ∨ a.offset.toNat % 4 ≠ 0 := by
  simp only [Access.wellFormed, Access.widthOk, Access.aligned, Bool.and_eq_false_iff, beq_eq_false_iff_ne]

theorem Target.readOnly_eq_true {t : Target} :
    t.readOnly = true ↔ t = .reg .id ∨ t = .reg .config ∨ t = .reg .status ∨ ∃ k, t = .windowWord .ks k := by
  cases t with
  | reg r => cases r <;> simp [Target.readOnly]
  | windowWord w k => cases w <;> simp [Target.readOnly]
  | reserved => simp [Target.readOnly]

theorem Target.readableWhileBusy_eq_true {t : Target} :
    t.readableWhileBusy = true ↔ t = .reg .id ∨ t = .reg .config ∨ t = .reg .status := by
  cases t with
  | reg r => cases r <;> simp [Target.readableWhileBusy]
  | windowWord w k => simp [Target.readableWhileBusy]
  | reserved => simp [Target.readableWhileBusy]

/-- The offsets of ID, CONFIG and STATUS, the only ones that may be read while BUSY (20_memory.md R65). -/
theorem target_readableWhileBusy (cfg : Config) (o : Nat) :
    (target cfg o).readableWhileBusy = true ↔ o < 0x008 ∨ (0x00C ≤ o ∧ o < 0x010) := by
  simp only [Target.readableWhileBusy_eq_true, target_eq_reg, Reg.offset]
  omega

/-- The offsets of ID, CONFIG, STATUS and KS (20_memory.md R63 case 3). -/
theorem target_readOnly (cfg : Config) (o : Nat) :
    (target cfg o).readOnly = true ↔ o < 0x008 ∨ (0x00C ≤ o ∧ o < 0x010) ∨ (0x180 ≤ o ∧ o < 0x200) := by
  have ks : (∃ k, target cfg o = .windowWord .ks k) ↔ 0x180 ≤ o ∧ o < 0x200 := by
    simp [target_eq_windowWord, Window.base, Window.words, Window.size]
  simp only [Target.readOnly_eq_true, target_eq_reg, Reg.offset, ks]
  omega

/-- The five cases of 20_memory.md R63, case by case in R63's order, for an access of any width and offset. -/
theorem State.refusesAccess_iff (s : State) (a : Access) :
    s.refusesAccess a = true ↔
      (a.width ≠ .word ∨ a.offset.toNat % 4 ≠ 0) ∨
      ((0x028 ≤ a.offset.toNat ∧ a.offset.toNat < 0x040) ∨ (0x0F8 ≤ a.offset.toNat ∧ a.offset.toNat < 0x100) ∨
        (0x200 ≤ a.offset.toNat ∧ a.offset.toNat < 0x400) ∨
        0x400 + 4 * ((s.cfg.blockSizeMax + 3) / 4) ≤ a.offset.toNat) ∨
      (a.kind ≠ .read ∧ (a.offset.toNat < 0x008 ∨ (0x00C ≤ a.offset.toNat ∧ a.offset.toNat < 0x010) ∨
        (0x180 ≤ a.offset.toNat ∧ a.offset.toNat < 0x200))) ∨
      (s.dev.seq = .busy ∧ ¬ (a.kind = .read ∧ (a.offset.toNat < 0x008 ∨
        (0x00C ≤ a.offset.toNat ∧ a.offset.toNat < 0x010)))) ∨
      s.rst = true := by
  rw [← Access.wellFormed_eq_false]
  cases hwf : a.wellFormed with
  | false => simp [State.refusesAccess, hwf]
  | true =>
    rw [State.refusesAccess_of_wellFormed hwf, isWrite_eq_true, isWrite_eq_false]
    simp only [accessTarget, target_eq_reserved, target_readOnly, target_readableWhileBusy, Bool.true_eq_false,
      false_or]

/-! ### What is answered to an access that is not refused -/

/-- No write is admitted while BUSY (20_memory.md R65). -/
theorem admitted_write_not_busy {s : State} {a : Access} {v : Word} (h : s.refusesAccess a = false)
    (hk : a.kind = .write v) : s.dev.seq ≠ .busy := by
  intro hs
  have refused : s.refusesAccess a = true := (s.refusesAccess_iff a).mpr (by simp [hs, hk])
  simp [refused] at h

/-- An admitted access gets a value or a completion. -/
theorem hostAccess_admitted {s : State} {a : Access} (h : s.refusesAccess a = false) :
    ∃ t r, hostAccess s a = .next t ∧ t.responses = r :: s.responses ∧ r ≠ .busError := by
  cases hk : a.kind with
  | read => exact ⟨_, _, hostAccess_read h hk, rfl, by simp⟩
  | write v =>
    rw [hostAccess_write h hk]
    unfold writeTarget
    split
    · rcases commandWrite_cases s v with ⟨hs, _⟩ | ⟨_, _, hc⟩ | ⟨_, _, hc⟩ | ⟨_, _, hc⟩
      · exact absurd hs (admitted_write_not_busy h hk)
      all_goals exact ⟨_, _, hc, rfl, by simp⟩
    · exact ⟨_, _, rfl, rfl, by simp⟩

/-- Settles O21: an access is answered by a bus error just when it is refused, and R63's cases are those of a refusal. -/
theorem busErrorInExactlyFiveCases : Obligations.BusErrorInExactlyFiveCases := by
  intro s a es he
  rw [← s.refusesAccess_iff a]
  cases h : s.refusesAccess a with
  | true => exact ⟨_, step_refused he h, by simp, fun _ => rfl⟩
  | false =>
    obtain ⟨t, r, ht, answered, notBusError⟩ := hostAccess_admitted (s := s.popEvent) (a := a) h
    exact ⟨t, (step_host he).trans ht, by simp [answered, notBusError], by simp [answered, notBusError]⟩

/-! ### A write to CMD, by STATE (20_memory.md R67) -/

theorem State.popEvent_of_events {s : State} {e : Event} {es : List Event} (he : s.events = e :: es) :
    s.popEvent = { s with events := es } := by
  simp [State.popEvent, he]

theorem commandWrite_idle {s : State} {v : Word} (hs : s.dev.seq = .idle) (hv : v ≠ encode .softReset) :
    commandWrite s v = .next ((s.accept v).respond .completed) := by
  simp only [commandWrite, hs, if_neg hv]

theorem commandWrite_fault {s : State} {v : Word} (hs : s.dev.seq = .fault) (hv : v ≠ encode .softReset) :
    commandWrite s v = .next (s.respond .completed) := by
  simp only [commandWrite, hs, if_neg hv]

theorem commandWrite_softReset {s : State} (hs : s.dev.seq ≠ .busy) :
    commandWrite s (encode .softReset) = .next (s.resetDevice.respond .completed) := by
  rcases commandWrite_cases s (encode .softReset) with ⟨busy, _⟩ | ⟨_, _, h⟩ | ⟨_, other, _⟩ | ⟨_, other, _⟩
  · exact absurd busy hs
  · exact h
  all_goals exact absurd rfl other

/-- Settles O22: R67's three branches; in BUSY the write is refused before it reaches CMD. -/
theorem cmdWriteActsByState : Obligations.CmdWriteActsByState := by
  intro s es v he hr
  have popped := State.popEvent_of_events he
  refine ⟨?idle, ?fault, ?softReset, ?busy⟩
  case idle =>
    intro hs hv
    rw [step_wr_cmd he (by simp [hs]) hr, commandWrite_idle (s := s.popEvent) hs hv, popped]
    rfl
  case fault =>
    intro hs hv
    rw [step_wr_cmd he (by simp [hs]) hr, commandWrite_fault (s := s.popEvent) hs hv, popped]
    rfl
  case softReset =>
    intro hs hv
    rw [step_wr_cmd he hs hr, show v = encode .softReset from hv, commandWrite_softReset (s := s.popEvent) hs, popped]
    rfl
  case busy =>
    intro hs
    exact step_refused he ((s.refusesAccess_iff _).mpr (by simp [hs, Access.wr]))

end Sys2Proof.Machine

/-! PROOFS. The reserved command words (30_encoding.md R92): the decoder accepts the six command words alone, and what the
CMD write and the ENGINE step do with any other word. -/

namespace Sys2Proof

/-! ### The two fields of a command word, and what the decoder accepts -/

theorem rsvdField_append_opcField (w : Word) : rsvdField w ++ opcField w = w := by
  unfold rsvdField opcField
  rw [BitVec.extractLsb'_append_extractLsb'_eq_extractLsb' (by decide)]
  exact BitVec.extractLsb'_eq_self

/-- RSVD and OPC are all of a command word. -/
theorem eq_of_fields_eq {v w : Word} (hr : rsvdField v = rsvdField w) (ho : opcField v = opcField w) : v = w := by
  rw [← rsvdField_append_opcField v, hr, ho, rsvdField_append_opcField]

theorem rsvdField_encode (i : Instr) : rsvdField (encode i) = 0 := by cases i <;> decide

theorem decode_encode (i : Instr) : decode (encode i) = .ok i := by cases i <;> decide

theorem decode_of_rsvdField_ne {w : Word} (h : rsvdField w ≠ 0) : decode w = .error (.reservedBits w) := if_pos h

/-- The opcode of an accepted word is that of the command read from it. -/
theorem opcField_of_decode {w : Word} {i : Instr} (h : decode w = .ok i) : opcField w = opcField (encode i) := by
  unfold decode at h
  split_ifs at h with _ opc opc opc opc opc opc
  all_goals
    cases h
    exact opc

/-- A word decodes to a command exactly when it is that command's word. -/
theorem decode_eq_ok_iff {w : Word} {i : Instr} : decode w = .ok i ↔ w = encode i := by
  constructor
  · intro h
    have rsvd : rsvdField w = 0 := by
      by_contra hr
      cases (decode_of_rsvdField_ne hr).symm.trans h
    exact eq_of_fields_eq (rsvd.trans (rsvdField_encode i).symm) (opcField_of_decode h)
  · rintro rfl
    exact decode_encode i

/-! ### The reserved words -/

/-- RSVD is not 0, or the opcode is one of 0x05 to 0xFE (30_encoding.md R92). -/
def ReservedWord (w : Word) : Prop :=
  rsvdField w ≠ 0 ∨ (5 ≤ (opcField w).toNat ∧ (opcField w).toNat ≤ 0xFE)

theorem not_reservedWord_encode (i : Instr) : ¬ ReservedWord (encode i) := by
  unfold ReservedWord
  cases i <;> decide

theorem ReservedWord.ne_encode {w : Word} (h : ReservedWord w) (i : Instr) : w ≠ encode i := by
  rintro rfl
  exact not_reservedWord_encode i h

theorem ReservedWord.decode_ne_ok {w : Word} (h : ReservedWord w) (i : Instr) : decode w ≠ .ok i :=
  fun hd => h.ne_encode i (decode_eq_ok_iff.mp hd)

end Sys2Proof

namespace Sys2Proof.Machine

/-! ### A word that is no command, at the CMD write and at the ENGINE step -/

theorem State.engineEnabled_of_busy {s : State} (hs : s.dev.seq = .busy) (hr : s.rst = false) :
    s.engineEnabled = true := by
  simp [State.engineEnabled, hs, hr]

/-- R91's "other": the ENGINE finds no command in PENDING. -/
theorem engineTurn_badCmd {s : State} (hs : s.dev.seq = .busy) (hr : s.rst = false)
    (hd : ∀ i, decode s.dev.pending ≠ .ok i) : engineTurn s = .next (s.faultEntry .badCmd) := by
  rcases engineTurn_cases s with ⟨disabled, _⟩ | ⟨_, i, _, decoded, _⟩ | ⟨_, _, fault⟩
  · simp [State.engineEnabled_of_busy hs hr] at disabled
  · exact absurd decoded (hd i)
  · exact fault

/-- Settles O3: a reserved word is no command's word, so acceptance is R67's first case, and the ENGINE step has no command
to perform. -/
theorem reservedWordsAreAcceptedAndFaultBadCmd : Obligations.ReservedWordsAreAcceptedAndFaultBadCmd := by
  refine ⟨fun w (hw : ReservedWord w) => ⟨hw.decode_ne_ok, ?accepted, ?fault⟩, fun w => decode_eq_ok_iff⟩
  case accepted =>
    intro s es he hr hs
    obtain ⟨idle, -, -, -⟩ := cmdWriteActsByState s es w he hr
    exact idle hs (hw.ne_encode .softReset)
  case fault =>
    rintro s hr hs rfl
    refine ⟨fun he => ?noEvent, fun es he => ?turn⟩
    case noEvent => exact (step_nil he).trans (engineTurn_badCmd hs hr hw.decode_ne_ok)
    case turn =>
      rw [step_engineTurn he, engineTurn_badCmd (s := s.popEvent) hs hr hw.decode_ne_ok, State.popEvent_of_events he]
      rfl

end Sys2Proof.Machine

/-! PROOFS. The Feistel primitive (40_feistel.md): the round key (R112), the hexadecimal text of MIX (R113, R114), the rounds
and the two output orders (R117, R118, R125), and the key operand (R111). -/

namespace Sys2Proof

theorem Bytes.xor_comm {n : Nat} (a b : Bytes n) : a.xor b = b.xor a := by
  apply Bytes.ext
  intro j _
  rw [Bytes.byte_xor, Bytes.byte_xor, BitVec.xor_comm]

end Sys2Proof

namespace Sys2Proof.Machine

/-! ### The round key -/

theorem toNat_byte_roundKey (k : Bytes 64) (i : Nat) {b : Nat} (hb : b < 64) :
    ((roundKey k i).byte b).toNat = ((k.byte b).toNat + i % 256) % 256 := by
  simp [byte_roundKey k i b hb]

@[simp] theorem roundKey_zero (k : Bytes 64) : roundKey k 0 = k := by
  apply Bytes.ext
  intro b hb
  simp [byte_roundKey k 0 b hb]

/-- The byte added by a round key is the round index mod 256. -/
theorem roundKey_add_256 (k : Bytes 64) (i : Nat) : roundKey k (i + 256) = roundKey k i := by
  unfold roundKey
  rw [Nat.add_mod_right]

/-- Settles O32: R112's byte of a round key, from which round key 0 and the period follow byte by byte. -/
theorem roundKeyAddsTheIndexToEveryByte : Obligations.RoundKeyAddsTheIndexToEveryByte :=
  fun k i => ⟨fun _ hb => toNat_byte_roundKey k i hb, roundKey_zero k, roundKey_add_256 k i⟩

/-! ### The hexadecimal text, and MIX -/

/-- An ASCII digit or a lowercase letter a to f (40_feistel.md R114). -/
def IsLowercaseHexCode (b : Byte) : Prop := (0x30 ≤ b.toNat ∧ b.toNat ≤ 0x39) ∨ (0x61 ≤ b.toNat ∧ b.toNat ≤ 0x66)

theorem toNat_hexDigit {n : Byte} (h : n.toNat < 16) :
    (hexDigit n).toNat = if n.toNat < 10 then 0x30 + n.toNat else 0x61 + (n.toNat - 10) := by
  unfold hexDigit
  have below : n < 10 ↔ n.toNat < 10 := BitVec.lt_def
  simp only [below]
  split
  · bv_omega
  · bv_omega

theorem isLowercaseHexCode_hexDigit {n : Byte} (h : n.toNat < 16) : IsLowercaseHexCode (hexDigit n) := by
  unfold IsLowercaseHexCode
  rw [toNat_hexDigit h]
  split <;> omega

theorem toNat_highNibble (b : Byte) : (b >>> 4).toNat = b.toNat / 16 := by
  rw [BitVec.toNat_ushiftRight, Nat.shiftRight_eq_div_pow]

theorem toNat_lowNibble (b : Byte) : (b &&& 15).toNat = b.toNat % 16 := by
  rw [BitVec.toNat_and]
  exact Nat.and_two_pow_sub_one_eq_mod b.toNat 4

theorem toNat_highNibble_lt (b : Byte) : (b >>> 4).toNat < 16 := by
  have := b.isLt
  rw [toNat_highNibble]
  omega

theorem toNat_lowNibble_lt (b : Byte) : (b &&& 15).toNat < 16 := by
  rw [toNat_lowNibble]
  omega

/-- The high nibble comes first (40_feistel.md R113). -/
theorem byte_hexText_even (d : Bytes 32) {m : Nat} (hm : m < 32) :
    (hexText d).byte (2 * m) = hexDigit (d.byte m >>> 4) := by
  unfold hexText
  rw [Bytes.byte_build_of_lt (by omega), if_pos (by omega), show 2 * m / 2 = m by omega]

theorem byte_hexText_odd (d : Bytes 32) {m : Nat} (hm : m < 32) :
    (hexText d).byte (2 * m + 1) = hexDigit (d.byte m &&& 15) := by
  unfold hexText
  rw [Bytes.byte_build_of_lt (by omega), if_neg (by omega), show (2 * m + 1) / 2 = m by omega]

theorem isLowercaseHexCode_hexText (d : Bytes 32) {j : Nat} (hj : j < 64) :
    IsLowercaseHexCode ((hexText d).byte j) := by
  obtain ⟨m, rfl | rfl⟩ := Nat.even_or_odd' j
  · rw [byte_hexText_even d (by omega)]
    exact isLowercaseHexCode_hexDigit (toNat_highNibble_lt _)
  · rw [byte_hexText_odd d (by omega)]
    exact isLowercaseHexCode_hexDigit (toNat_lowNibble_lt _)

theorem isLowercaseHexCode_mix (h : Bytes 64 → Bytes 32) (v k : Bytes 64) {j : Nat} (hj : j < 64) :
    IsLowercaseHexCode ((mix h v k).byte j) := isLowercaseHexCode_hexText _ hj

/-- Settles O33: bytes 2m and 2m + 1 of the text are the digits of the two nibbles of byte m of the hash, and the digit of
a nibble is one of the sixteen codes. -/
theorem mixIsLowercaseHexOfTheHash : Obligations.MixIsLowercaseHexOfTheHash := by
  refine fun h v k => ⟨fun d m hm => ⟨?high, ?low⟩, rfl, fun j hj => isLowercaseHexCode_mix h v k hj⟩
  case high => rw [byte_hexText_even d hm, toNat_hexDigit (toNat_highNibble_lt _), toNat_highNibble]
  case low => rw [byte_hexText_odd d hm, toNat_hexDigit (toNat_lowNibble_lt _), toNat_lowNibble]

/-! ### The rounds, and the two output orders -/

section
variable (h : Bytes 64 → Bytes 32) (x : Bytes 128) (k : Bytes 64)

/-- Under LR the halves of the output are the two halves the rounds end with. -/
theorem halves_feistelCore_lr (r : Int) :
    (leftHalf (feistelCore h .lr x k r), rightHalf (feistelCore h .lr x k r)) =
      feistelRounds h k r.toNat 0 (leftHalf x, rightHalf x) := by
  simp [feistelCore, assembleOutput]

theorem feistelCore_lr_of_nonpos {r : Int} (hr : r ≤ 0) : feistelCore h .lr x k r = x := by
  unfold feistelCore
  rw [Int.toNat_of_nonpos hr]
  exact joinHalves_leftHalf_rightHalf x

/-- R118: RL exchanges the halves of LR's output. -/
theorem feistelCore_rl (r : Int) : feistelCore h .rl x k r =
    joinHalves (rightHalf (feistelCore h .lr x k r)) (leftHalf (feistelCore h .lr x k r)) := by
  simp [feistelCore, assembleOutput]

/-- The loop body of R117, on the output of the rounds before it. -/
theorem feistelCore_lr_succ (n : Nat) : feistelCore h .lr x k (n + 1) =
    joinHalves (rightHalf (feistelCore h .lr x k n))
      ((leftHalf (feistelCore h .lr x k n)).xor
        (mix h (rightHalf (feistelCore h .lr x k n)) (roundKey k n))) := by
  have last : feistelRounds h k (n + 1) 0 (leftHalf x, rightHalf x) =
      feistelRound h k n (leftHalf (feistelCore h .lr x k n), rightHalf (feistelCore h .lr x k n)) := by
    rw [feistelRounds_succ, Nat.zero_add, halves_feistelCore_lr, Int.toNat_natCast]
  calc feistelCore h .lr x k (n + 1)
      = assembleOutput .lr (feistelRounds h k (n + 1) 0 (leftHalf x, rightHalf x)) := rfl
    _ = _ := by rw [last]; rfl

theorem feistelCore_lr_one : feistelCore h .lr x k 1 =
    joinHalves (rightHalf x) ((leftHalf x).xor (mix h (rightHalf x) (roundKey k 0))) := by
  simpa only [Nat.cast_zero, zero_add, feistelCore_lr_of_nonpos h x k le_rfl] using feistelCore_lr_succ h x k 0

theorem feistelCore_lr_two {f0 f1 : Bytes 64} (h0 : f0 = mix h (rightHalf x) (roundKey k 0))
    (h1 : f1 = mix h ((leftHalf x).xor f0) (roundKey k 1)) :
    feistelCore h .lr x k 2 = joinHalves ((leftHalf x).xor f0) ((rightHalf x).xor f1) := by
  have second := feistelCore_lr_succ h x k 1
  rw [Nat.cast_one, feistelCore_lr_one, leftHalf_joinHalves, rightHalf_joinHalves, ← h0, ← h1] at second
  exact second

theorem leftHalf_feistelCore_lr_succ (n : Nat) :
    leftHalf (feistelCore h .lr x k (n + 1)) = rightHalf (feistelCore h .lr x k n) := by
  rw [feistelCore_lr_succ, leftHalf_joinHalves]

/-- After one round the second half is the first half of the input under the mask of round 0. -/
theorem rightHalf_feistelCore_lr_one_xor :
    (rightHalf (feistelCore h .lr x k 1)).xor (leftHalf x) = mix h (rightHalf x) (roundKey k 0) := by
  rw [feistelCore_lr_one, rightHalf_joinHalves, Bytes.xor_comm (leftHalf x), Bytes.xor_xor_cancel]

end

/-- Settles O34: R117's loop body is the last of n + 1 rounds; the closed forms of R125 are that body at rounds 0 and 1. -/
theorem feistelClosedForms : Obligations.FeistelClosedForms := by
  refine ⟨rfl, fun h x k => ⟨fun r => feistelCore_lr_of_nonpos h x k, feistelCore_lr_succ h x k, feistelCore_rl h x k,
    feistelCore_lr_one h x k, fun f0 f1 => feistelCore_lr_two h x k, leftHalf_feistelCore_lr_succ h x k, ?first, ?mask⟩⟩
  case first => rw [feistelCore_lr_one, leftHalf_joinHalves]
  case mask =>
    intro j hj
    rw [rightHalf_feistelCore_lr_one_xor]
    exact isLowercaseHexCode_mix h _ _ hj

/-! ### The key operand -/

theorem Device.effectiveKeyLen_pos {d : Device} (h : d.keyLen ≠ 0) : 0 < d.effectiveKeyLen := by
  have : d.keyLen.toNat ≠ 0 := fun h' => h (BitVec.eq_of_toNat_eq h')
  unfold Device.effectiveKeyLen
  omega

theorem Device.byte_expandedKey {d : Device} (h : d.keyLen ≠ 0) {j : Nat} (hj : j < 64) :
    d.expandedKey.byte j = d.windowByte .keyRaw (j % d.effectiveKeyLen) := by
  unfold Device.expandedKey
  rw [byte_expandKey _ _ _ hj, Bytes.toList_getD, Device.byte_window, if_pos (Nat.mod_lt j (effectiveKeyLen_pos h))]

/-- The clamp of R111 loses nothing: no index below the clamp is changed by it. -/
theorem mod_min_of_lt {j bound : Nat} (n : Nat) (hj : j < bound) : j % min n bound = j % n := by
  rcases Nat.le_total n bound with le | ge
  · rw [Nat.min_eq_left le]
  · rw [Nat.min_eq_right ge, Nat.mod_eq_of_lt hj, Nat.mod_eq_of_lt (Nat.lt_of_lt_of_le hj ge)]

/-- A key loaded as R111 says, with its own length or the clamped one in KEY_LEN, gives its own expansion. -/
theorem Device.expandedKey_of_loaded {d : Device} (h : d.keyLen ≠ 0) {user : List Byte}
    (loaded : ∀ j < min user.length 64, d.windowByte .keyRaw j = user.getD j 0)
    (len : d.keyLen.toNat = user.length ∨ d.keyLen.toNat = min user.length 64) :
    d.expandedKey = expandKey user user.length := by
  have clamped : d.effectiveKeyLen = min user.length 64 := by
    unfold Device.effectiveKeyLen
    omega
  apply Bytes.ext
  intro j hj
  have inKey : j % min user.length 64 < min user.length 64 := Nat.mod_lt j (clamped ▸ effectiveKeyLen_pos h)
  calc d.expandedKey.byte j
      = d.windowByte .keyRaw (j % min user.length 64) := by rw [byte_expandedKey h hj, clamped]
    _ = user.getD (j % min user.length 64) 0 := loaded _ inKey
    _ = user.getD (j % user.length) 0 := by rw [mod_min_of_lt _ hj]
    _ = (expandKey user user.length).byte j := (byte_expandKey _ _ _ hj).symm

/-- Settles O36: the key operand repeats the first Leff bytes of KEY_RAW, and the clamp loses no byte of a longer key. -/
theorem keyOperandRepeatsTheLoadedKey : Obligations.KeyOperandRepeatsTheLoadedKey :=
  fun d => ⟨Device.keyOperand_empty, fun h => ⟨d.expandedKey, Device.keyOperand_ok h,
    fun _ hj => Device.byte_expandedKey h hj,
    fun _ _ loaded len => Device.expandedKey_of_loaded h loaded len⟩⟩

end Sys2Proof.Machine

/-! PROOFS. The nonce‖counter block (41_counter_engine.md R150): its bytes from `byte_nonceCounterBlock`, its right half
from `byte_rightHalf`. -/

namespace Sys2Proof.Machine

theorem toNat_le64Byte (c : Word64) (m : Nat) : (le64Byte c m).toNat = c.toNat / 2 ^ (8 * m) % 256 := by
  rw [le64Byte, BitVec.toNat_ofNat, Nat.shiftRight_eq_div_pow]

theorem byte_nonceCounterBlock_nonce (n : Bytes 120) (c : Word64) {j : Nat} (hj : j < 120) :
    (nonceCounterBlock n c).byte j = n.byte j := by
  rw [byte_nonceCounterBlock n c j (by omega), if_pos hj]

theorem byte_nonceCounterBlock_counter (n : Bytes 120) (c : Word64) {m : Nat} (hm : m < 8) :
    (nonceCounterBlock n c).byte (120 + m) = le64Byte c m := by
  rw [byte_nonceCounterBlock n c _ (by omega), if_neg (by omega), Nat.add_sub_cancel_left]

theorem byte_rightHalf_nonceCounterBlock_nonce (n : Bytes 120) (c : Word64) {j : Nat} (hj : j < 56) :
    (rightHalf (nonceCounterBlock n c)).byte j = n.byte (64 + j) := by
  rw [byte_rightHalf _ _ (by omega), byte_nonceCounterBlock_nonce n c (by omega)]

theorem byte_rightHalf_nonceCounterBlock_counter (n : Bytes 120) (c : Word64) {m : Nat} (hm : m < 8) :
    (rightHalf (nonceCounterBlock n c)).byte (56 + m) = le64Byte c m := by
  rw [byte_rightHalf _ _ (by omega), ← Nat.add_assoc, byte_nonceCounterBlock_counter n c hm]

/-- Settles O37: R150's block is the nonce and then the counter's bytes, and byte 56 of its right half is byte 120 of it. -/
theorem nonceCounterBlockBytes : Obligations.NonceCounterBlockBytes := by
  refine fun n c => ⟨fun _ hj => byte_nonceCounterBlock_nonce n c hj, fun m hm => ?whole,
    fun _ hj => byte_rightHalf_nonceCounterBlock_nonce n c hj, fun m hm => ?right⟩
  case whole => rw [byte_nonceCounterBlock_counter n c hm, toNat_le64Byte]
  case right => rw [byte_rightHalf_nonceCounterBlock_counter n c hm, toNat_le64Byte]

end Sys2Proof.Machine

/-! PROOFS. Faults (60_exceptions.md): which fault an ENGINE step raises (R203), that fault entry changes nothing but STATE
and ERRCODE (R201), and that only a reset leaves FAULT (R202). -/

namespace Sys2Proof.Machine

/-! ### How an ENGINE step ends -/

/-- The first fault, in the order of R203, that applies to the word in PENDING; none where that command completes. -/
def State.firstFault (s : State) : Option FaultCode :=
  if 4 < s.dev.pending.toNat then some .badCmd
  else if 2 ≤ s.dev.pending.toNat ∧ s.dev.keyLen = 0 then some .keyEmpty
  else if s.dev.pending.toNat = 4 ∧ (s.dev.blockSize = 0 ∨ s.cfg.blockSizeMax < s.dev.blockSize.toNat) then
    some .blockSizeRange
  else if s.dev.pending.toNat = 4 ∧ (s.dev.chunkLen = 0 ∨ s.dev.blockSize.toNat < s.dev.chunkLen.toNat) then
    some .chunkLenRange
  else if s.dev.pending.toNat = 4 ∧ s.dev.counter.toNat = 2 ^ 64 - 1 then some .counterExhausted
  else none

/-- `t` is the end of an ENGINE step from `s`: with a fault, fault entry alone; without one, completion. -/
def State.EngineEnd (s t : State) : Option FaultCode → Prop
  | some c => t = s.faultEntry c
  | none => ∃ u : State, t = u.complete ∧ u.events = s.events ∧ u.faults = s.faults

theorem State.EngineEnd.events_eq {s t : State} {f : Option FaultCode} (h : s.EngineEnd t f) : t.events = s.events := by
  cases f with
  | some c => cases h; rfl
  | none => obtain ⟨u, rfl, events, -⟩ := h; exact events

/-- MIX_LENGTH is in no place of R203's order. -/
theorem State.firstFault_ne_mixLength (s : State) : s.firstFault ≠ some .mixLength := by
  unfold State.firstFault
  split_ifs <;> simp

/-- The two commands that check the key alone. -/
theorem State.firstFault_of_keyCommand {s : State} (h : s.dev.pending.toNat = 2 ∨ s.dev.pending.toNat = 3) :
    s.firstFault = if s.dev.keyLen = 0 then some .keyEmpty else none := by
  rcases h with h | h <;> simp [State.firstFault, h]

/-- R162 writes the checks of CTR_XOR in the order of R203. -/
theorem ctrXorChecks_eq_firstFault {s : State} (h : s.dev.pending.toNat = 4) :
    ctrXorChecks s = s.firstFault.elim (.ok s.dev.expandedKey) .error := by
  simp only [State.firstFault, h, Nat.lt_irrefl, if_false, Nat.reduceLeDiff, true_and]
  unfold ctrXorChecks
  rcases s.dev.keyOperand_cases with ⟨empty, operand⟩ | ⟨loaded, operand⟩
  · simp only [operand, if_pos empty, Option.elim]
  · simp only [operand, if_neg loaded]
    split_ifs <;> rfl

/-- FEISTEL and KS_GEN as the ENGINE performs them: KEY_EMPTY, or completion. -/
theorem State.engineEnd_of_keyCommand {s u : State} {o : Host.Outcome State Fault Refusal}
    (number : s.dev.pending.toNat = 2 ∨ s.dev.pending.toNat = 3)
    (empty : s.dev.keyLen = 0 → o = .next (s.faultEntry .keyEmpty))
    (loaded : s.dev.keyLen ≠ 0 → o = .next u.complete) (events : u.events = s.events) (faults : u.faults = s.faults) :
    ∃ t, o = .next t ∧ s.EngineEnd t s.firstFault := by
  rw [State.firstFault_of_keyCommand number]
  split_ifs with hk
  · exact ⟨_, empty hk, rfl⟩
  · exact ⟨_, loaded hk, u, rfl, events, faults⟩

/-- NOP and NONCE_GEN check no register. -/
theorem State.firstFault_of_toNat_le_one {s : State} (h : s.dev.pending.toNat ≤ 1) : s.firstFault = none := by
  unfold State.firstFault
  rw [if_neg (by omega), if_neg (by omega), if_neg (by omega), if_neg (by omega), if_neg (by omega)]

/-- A command performed by the ENGINE raises the first of its faults, or completes. -/
theorem exec_engineEnd {s : State} {i : Instr} (hi : i ≠ .softReset) (hp : s.dev.pending = encode i) :
    ∃ t, exec i s = .next t ∧ s.EngineEnd t s.firstFault := by
  have number : s.dev.pending.toNat = (encode i).toNat := congrArg BitVec.toNat hp
  cases i with
  | softReset => exact absurd rfl hi
  | nop =>
    rw [State.firstFault_of_toNat_le_one (number.trans_le (by decide))]
    exact ⟨_, exec_nop s, s, rfl, rfl, rfl⟩
  | nonceGen =>
    rw [State.firstFault_of_toNat_le_one (number.trans_le (by decide))]
    exact ⟨_, exec_nonceGen s, _, rfl, s.drawTaken_events, s.drawTaken_faults⟩
  | feistel => exact State.engineEnd_of_keyCommand (.inl number) exec_feistel_keyEmpty exec_feistel_ok rfl rfl
  | ksGen => exact State.engineEnd_of_keyCommand (.inr number) exec_ksGen_keyEmpty exec_ksGen_ok rfl rfl
  | ctrXor =>
    have checks := ctrXorChecks_eq_firstFault number
    cases hf : s.firstFault with
    | some c => exact ⟨_, exec_ctrXor_fault (by rw [checks, hf, Option.elim_some]), rfl⟩
    | none => exact ⟨_, exec_ctrXor_ok (by rw [checks, hf, Option.elim_none]), _, rfl, rfl, rfl⟩

/-- R93 numbers the five ENGINE commands from 0 to 4. -/
theorem exists_encode_toNat_eq : ∀ n ≤ 4, ∃ i, i ≠ .softReset ∧ (encode i).toNat = n
  | 0, _ => ⟨.nop, by decide, rfl⟩
  | 1, _ => ⟨.nonceGen, by decide, rfl⟩
  | 2, _ => ⟨.feistel, by decide, rfl⟩
  | 3, _ => ⟨.ksGen, by decide, rfl⟩
  | 4, _ => ⟨.ctrXor, by decide, rfl⟩

theorem exists_decode_of_toNat_le_four {w : Word} (h : w.toNat ≤ 4) : ∃ i, i ≠ .softReset ∧ decode w = .ok i := by
  obtain ⟨i, hi, number⟩ := exists_encode_toNat_eq w.toNat h
  exact ⟨i, hi, decode_eq_ok_iff.mpr (BitVec.eq_of_toNat_eq number.symm)⟩

/-- The ENGINE's turn while BUSY, with RST deasserted, ends with the first fault that applies, or completes. -/
theorem engineTurn_engineEnd {s : State} (hs : s.dev.seq = .busy) (hr : s.rst = false) :
    ∃ t, engineTurn s = .next t ∧ s.EngineEnd t s.firstFault := by
  rcases engineTurn_cases s with ⟨disabled, -⟩ | ⟨-, i, hi, decoded, performed⟩ | ⟨-, other, fault⟩
  · simp [State.engineEnabled_of_busy hs hr] at disabled
  · rw [performed]
    exact exec_engineEnd hi (decode_eq_ok_iff.mp decoded)
  · have large : 4 < s.dev.pending.toNat := by
      by_contra small
      obtain ⟨i, hi, decoded⟩ := exists_decode_of_toNat_le_four (Nat.le_of_not_lt small)
      exact hi (other i decoded)
    exact ⟨_, fault, by rw [State.firstFault, if_pos large]; rfl⟩

/-- The step that gives the ENGINE its turn: at an `engineTurn` event, or with no event left (log entry 4). -/
theorem step_eq_engineTurn {s : State} {es : List Event}
    (he : (s.events = [] ∧ es = []) ∨ s.events = .engineTurn :: es) : step s = engineTurn { s with events := es } := by
  rcases he with ⟨he, rfl⟩ | he
  · rw [step_nil he, ← he]
  · rw [step_engineTurn he, State.popEvent_of_events he]

/-- The ENGINE step, as a step of the machine. -/
theorem step_engineEnd {s : State} {es : List Event}
    (he : (s.events = [] ∧ es = []) ∨ s.events = .engineTurn :: es) (hs : s.dev.seq = .busy) (hr : s.rst = false) :
    ∃ t, step s = .next t ∧ State.EngineEnd { s with events := es } t s.firstFault := by
  rw [step_eq_engineTurn he]
  exact engineTurn_engineEnd (s := { s with events := es }) hs hr

/-- Settles O16: an ENGINE step that does not complete is fault entry, which touches STATE, ERRCODE and the record alone. -/
theorem faultEntryIsAllOrNothing : Obligations.FaultEntryIsAllOrNothing := by
  intro s t es he hs hr stepped faulted
  obtain ⟨t', stepped', ends⟩ := step_engineEnd he hs hr
  obtain rfl : t' = t := Host.Outcome.next.inj (stepped'.symm.trans stepped)
  cases hf : s.firstFault with
  | none =>
    rw [hf] at ends
    obtain ⟨u, rfl, -, -⟩ := ends
    cases faulted
  | some c =>
    rw [hf] at ends
    obtain rfl : t' = State.faultEntry { s with events := es } c := ends
    have raised : c ≠ .mixLength := fun h => s.firstFault_ne_mixLength (h ▸ hf)
    exact ⟨rfl, Device.statusWord_busy _, Device.statusWord_fault _, rfl, ⟨c, raised, rfl, rfl⟩,
      rfl, rfl, rfl, rfl, rfl, rfl⟩

/-- Settles O17: R203's order is `firstFault`, branch by branch. -/
theorem firstFaultInOrderIsReported : Obligations.FirstFaultInOrderIsReported := by
  intro s es he hs hr
  obtain ⟨t, stepped, ends⟩ := step_engineEnd he hs hr
  refine ⟨t, stepped, ends.events_eq, ?_⟩
  unfold State.firstFault at ends
  split_ifs at ends ⊢
  case neg =>
    obtain ⟨u, rfl, -, faults⟩ := ends
    exact ⟨rfl, rfl, faults⟩
  all_goals
    obtain rfl := ends
    exact ⟨rfl, rfl, rfl⟩

/-! ### The FAULT state -/

/-- `t` is still in the fault of `s`: STATE, ERRCODE and the record of faults have stayed. -/
def State.StaysInFault (s t : State) : Prop :=
  t.dev.seq = .fault ∧ t.dev.errcode = s.dev.errcode ∧ t.faults = s.faults

theorem Device.writeOperand_seq (d : Device) (cfg : Config) (v : Word) (p : Target) :
    (d.writeOperand cfg v p).seq = d.seq := by
  unfold Device.writeOperand
  split <;> rfl

theorem Device.writeOperand_errcode (d : Device) (cfg : Config) (v : Word) (p : Target) :
    (d.writeOperand cfg v p).errcode = d.errcode := by
  unfold Device.writeOperand
  split <;> rfl

/-- In FAULT the ENGINE's turn changes nothing: no command runs (R202). -/
theorem engineTurn_fault {s : State} (hs : s.dev.seq = .fault) : engineTurn s = .next s := by
  simp [engineTurn, State.engineEnabled, hs]

/-- In FAULT a host access is no way out, unless it is the CMD write of SOFT_RESET. -/
theorem hostAccess_fault {s : State} (hs : s.dev.seq = .fault) (a : Access) :
    ∃ t, hostAccess s a = .next t ∧
      (s.StaysInFault t ∨ (t.dev = Device.reset ∧ a = .wr 0x008 (encode .softReset))) := by
  rcases hostAccess_cases s a with ⟨r, answered⟩ | ⟨admitted, v, hk, ht, written⟩ | ⟨-, v, -, -, stored⟩
  · exact ⟨_, answered, .inl ⟨hs, rfl, rfl⟩⟩
  · rw [written, admitted_write_reg admitted hk ht]
    by_cases hv : v = encode .softReset
    · subst hv
      exact ⟨_, commandWrite_softReset (by simp [hs]), .inr ⟨rfl, rfl⟩⟩
    · exact ⟨_, commandWrite_fault hs hv, .inl ⟨hs, rfl, rfl⟩⟩
  · exact ⟨_, stored, .inl ⟨(Device.writeOperand_seq ..).trans hs, Device.writeOperand_errcode .., rfl⟩⟩

/-- In FAULT a step leaves the fault as it is, or it is one of the two resets. -/
theorem step_fault {s : State} (hs : s.dev.seq = .fault) :
    ∃ t, step s = .next t ∧
      (s.StaysInFault t ∨
        (t.dev = Device.reset ∧ ∃ es, s.events = .host (.wr 0x008 (encode .softReset)) :: es ∨
          (∃ l, s.events = .rst l :: es ∧ (l = true ∨ s.rst = true)))) := by
  rcases step_cases s with ⟨-, h⟩ | ⟨es, -, h⟩ | ⟨a, es, he, h⟩ | ⟨l, es, he, h⟩
  · exact ⟨s, h.trans (engineTurn_fault hs), .inl ⟨hs, rfl, rfl⟩⟩
  · exact ⟨_, h.trans (engineTurn_fault (s := s.popEvent) hs), .inl ⟨hs, rfl, rfl⟩⟩
  · obtain ⟨t, accessed, stays | ⟨reset, rfl⟩⟩ := hostAccess_fault (s := s.popEvent) hs a
    · exact ⟨t, h.trans accessed, .inl stays⟩
    · exact ⟨t, h.trans accessed, .inr ⟨reset, es, .inl he⟩⟩
  · refine ⟨_, h, ?_⟩
    rcases s.popEvent.driveReset_cases l with ⟨driven, resets⟩ | ⟨-, -, same⟩
    · rw [resets]
      exact .inr ⟨rfl, es, .inr ⟨l, he, driven⟩⟩
    · rw [same]
      exact .inl ⟨hs, rfl, rfl⟩

/-- R63's cases look at STATE only for BUSY, so the same accesses are refused in FAULT as in IDLE. -/
theorem State.refusesAccess_fault_eq_idle {s : State} (hs : s.dev.seq = .fault) (a : Access) :
    s.refusesAccess a = State.refusesAccess { s with dev := { s.dev with seq := .idle } } a := by
  have notBusy : (Seq.fault == Seq.busy) = (Seq.idle == Seq.busy) := by decide
  simp only [State.refusesAccess, hs, notBusy]

/-- Settles O19: a step in FAULT is `step_fault`; the ignored CMD write is R67's; and admission does not tell FAULT from
IDLE. -/
theorem faultStateIsSticky : Obligations.FaultStateIsSticky := by
  refine ⟨?sticky, ?ignored, fun _ a hs => State.refusesAccess_fault_eq_idle hs a⟩
  case sticky =>
    intro s t hs stepped
    obtain ⟨t', stepped', ends⟩ := step_fault hs
    obtain rfl : t' = t := Host.Outcome.next.inj (stepped'.symm.trans stepped)
    exact ends
  case ignored =>
    intro s es v hs hr he hv
    obtain ⟨-, ignored, -, -⟩ := cmdWriteActsByState s es v he hr
    exact ignored hs hv

end Sys2Proof.Machine

/-! PROOFS. Reset (70_reset_and_hazards.md): what the reset input RST does at each level (R230), and that RST and SOFT_RESET
set every state element to its reset value (R231). -/

namespace Sys2Proof.Machine

/-! ### The reset input -/

/-- RST driven high, or driven low while it is high, resets the FKE; the configuration and the records stay. -/
theorem step_rst_resets {s : State} {l : Bool} {es : List Event} (he : s.events = .rst l :: es)
    (hl : l = true ∨ s.rst = true) :
    step s = .next { s with dev := Device.reset, rst := l, events := es } := by
  rw [step_rst he, State.popEvent_of_events he]
  rcases State.driveReset_cases { s with events := es } l with ⟨-, resets⟩ | ⟨low, wasLow, -⟩
  · rw [resets]
    rfl
  · simp [low, show s.rst = false from wasLow] at hl

/-- While RST is asserted the ENGINE step is disabled, whatever STATE is. -/
theorem engineTurn_of_rst {s : State} (hr : s.rst = true) : engineTurn s = .next s := by
  simp [engineTurn, State.engineEnabled, hr]

/-- While RST is asserted, the step that gives the ENGINE its turn takes the event off and does nothing else. -/
theorem step_engineTurn_of_rst {s : State} {es : List Event}
    (he : (s.events = [] ∧ es = []) ∨ s.events = .engineTurn :: es) (hr : s.rst = true) :
    step s = .next { s with events := es } :=
  (step_eq_engineTurn he).trans (engineTurn_of_rst (s := { s with events := es }) hr)

/-- While STATE ≠ BUSY and RST is deasserted, a read is refused only for its shape or for a reserved offset. -/
theorem read_admitted_iff {s : State} {a : Access} (hs : s.dev.seq ≠ .busy) (hr : s.rst = false) (hk : a.kind = .read) :
    s.refusesAccess a = false ↔ a.wellFormed = true ∧ accessTarget s.cfg a ≠ .reserved := by
  cases hw : a.wellFormed with
  | false => simp [State.refusesAccess, hw]
  | true =>
    rw [← Bool.not_eq_true, State.refusesAccess_of_wellFormed hw]
    simp [isWrite_eq_false.mpr hk, hs, hr]

/-- Settles O31: R230 clause by clause, from what a host access, an ENGINE turn and a level of RST do under reset. -/
theorem resetInputAbandonsThePendingCommand : Obligations.ResetInputAbandonsThePendingCommand := by
  refine ⟨?access, ?engineEvent, ?engineIdle, ?asserted, ?deasserted, ?accepts⟩
  case access => exact fun s a es hr he => step_refused he ((s.refusesAccess_iff a).mpr (by simp [hr]))
  case engineEvent => exact fun s es hr he => step_engineTurn_of_rst (.inr he) hr
  case engineIdle => exact fun s hr he => (step_nil he).trans (engineTurn_of_rst hr)
  case asserted => exact fun s es he => ⟨_, step_rst_resets he (.inl rfl), rfl, rfl, rfl⟩
  case deasserted => exact fun s es hr he => step_rst_resets he (.inr hr)
  case accepts =>
    intro s a hd hr hk
    exact (read_admitted_iff (by simp [hd]) hr hk).symm

/-! ### The two resets -/

/-- RST asserted and then deasserted: the reset state, with RST low again. -/
theorem run_rst_pulse {s : State} {es : List Event} (he : s.events = .rst true :: .rst false :: es) :
    core.run 2 s = .next { s with dev := Device.reset, rst := false, events := es } :=
  run_two_of_step (step_rst_resets he (.inl rfl)) (step_rst_resets rfl (.inr rfl))

/-- ID and CONFIG read nothing but the configuration (10_state.md R37, R38). -/
theorem readReg_id_config_of_cfg_eq {s t : State} (h : t.cfg = s.cfg) :
    t.readReg .id = s.readReg .id ∧ t.readReg .config = s.readReg .config := by
  simp only [State.readReg, h, and_self]

/-- Settles O15: both resets end in `Device.reset`, whose elements are R231's values, and neither touches the configuration
that ID and CONFIG show. -/
theorem resetSetsEveryStateElement : Obligations.ResetSetsEveryStateElement := by
  refine ⟨?softReset, ?rst, Device.reset_seq, Device.statusWord_reset, Device.reset_done, Device.reset_errcode,
    Device.reset_pending, Device.reset_rounds, Device.reset_blockSize, Device.reset_chunkLen, Device.reset_keyLen,
    Device.reset_counter, Device.windowByte_reset, fun _ _ => readReg_id_config_of_cfg_eq⟩
  case softReset =>
    exact fun s => ⟨_, exec_softReset s, s.resetDevice_dev, ⟨rfl, rfl, rfl, rfl, rfl⟩, rfl, rfl⟩
  case rst => exact fun s es he => ⟨_, run_rst_pulse he, rfl, rfl, rfl⟩

end Sys2Proof.Machine

/-! PROOFS. The decoder (30_encoding.md R91, R93), and the whole step (20_memory.md section 6): what one step does to the FKE is
said once, in `StepEffect`, and the rules of the whole machine and its invariant are read off from it. -/

namespace Sys2Proof.Machine

/-! ### The decoder -/

/-- Settles O1: RSVD and OPC are all of a word, and no two commands share an opcode. -/
theorem decodeAcceptsExactlyTheCommandWords : Obligations.DecodeAcceptsExactlyTheCommandWords :=
  fun _ _ => decode_eq_ok_iff

/-- Settles O2: the six words are those of `encode`. -/
theorem sixWordsOfTheOpcodeMapDecode : Obligations.SixWordsOfTheOpcodeMapDecode :=
  ⟨decode_encode .nop, decode_encode .nonceGen, decode_encode .feistel, decode_encode .ksGen, decode_encode .ctrXor,
    decode_encode .softReset⟩

/-! ### When the ENGINE's turn does something -/

/-- In IDLE, in FAULT and under RST the ENGINE's turn changes nothing. -/
theorem engineTurn_of_disabled {s : State} (h : s.dev.seq ≠ .busy ∨ s.rst = true) : engineTurn s = .next s := by
  rcases h with hs | hr
  · simp [engineTurn, State.engineEnabled, hs]
  · exact engineTurn_of_rst hr

/-- While BUSY, with RST deasserted, the ENGINE's turn is the meaning of the command in PENDING. -/
theorem engineTurn_of_command {s : State} {i : Instr} (hs : s.dev.seq = .busy) (hr : s.rst = false) (hi : i ≠ .softReset)
    (hd : decode s.dev.pending = .ok i) : engineTurn s = exec i s := by
  rcases engineTurn_cases s with ⟨disabled, -⟩ | ⟨-, j, -, decoded, performed⟩ | ⟨-, other, -⟩
  · simp [State.engineEnabled_of_busy hs hr] at disabled
  · rw [performed, Except.ok.inj (decoded.symm.trans hd)]
  · exact absurd (other i hd) hi

/-- Settles O4: the step is the ENGINE's turn, and that is the meaning of the command in PENDING. -/
theorem stepRunsTheDecodedCommand : Obligations.StepRunsTheDecodedCommand := by
  intro s i hs hr hd _ hi
  refine ⟨fun he => (step_nil he).trans (engineTurn_of_command hs hr hi hd), fun es he => ?_⟩
  rw [step_eq_engineTurn (.inr he)]
  exact engineTurn_of_command (s := { s with events := es }) hs hr hi hd

/-- Settles O5: the word is SOFT_RESET's, and outside BUSY the CMD write performs it at once. -/
theorem stepRunsSoftResetAtTheCmdWrite : Obligations.StepRunsSoftResetAtTheCmdWrite := by
  intro s es w he hd hs hr
  obtain rfl := decode_eq_ok_iff.mp hd
  refine ⟨_, exec_softReset _, ?_⟩
  rw [step_wr_cmd he hs hr, commandWrite_softReset (s := s.popEvent) hs, State.popEvent_of_events he]
  rfl

/-- Settles O6: with the ENGINE step disabled, the step takes the event off and does nothing else. -/
theorem engineMovesOnlyWhileBusyAndNotInReset : Obligations.EngineMovesOnlyWhileBusyAndNotInReset := by
  intro s h
  refine ⟨fun he => (step_nil he).trans (engineTurn_of_disabled h), fun es he => ?_⟩
  rw [step_eq_engineTurn (.inr he)]
  exact engineTurn_of_disabled (s := { s with events := es }) h

/-- Settles O9: at the end of a run no event is left and STATE is not BUSY. -/
theorem endedRunIsQuiescent : Obligations.EndedRunIsQuiescent := by
  rintro s ⟨noEvents, notBusy, -⟩
  exact (step_nil noEvents).trans (engineTurn_of_disabled (.inl notBusy))

/-! ### What an ENGINE command and a step do to the FKE -/

/-- What a command that completes leaves of the registers and windows `d`, before the handshake. -/
inductive Device.Stores (cfg : Config) (d : Device) : Instr → Device → Prop
  | nop : d.Stores cfg .nop d
  | nonceGen (b : Bytes 120) : d.Stores cfg .nonceGen { d.storeWindow .nonce b with counter := 0 }
  | feistel (b : Bytes 128) : d.Stores cfg .feistel (d.storeWindow .ks b)
  | ksGen (b : Bytes 128) : d.Stores cfg .ksGen (d.storeWindow .ks b)
  | ctrXor (out : Bytes d.blockSize.toNat) (b : Bytes 128) (fits : d.blockSize.toNat ≤ cfg.blockSizeMax) :
      d.Stores cfg .ctrXor { (d.storeWindow .data out).storeWindow .ks b with counter := d.counter + 1 }

/-- What an ENGINE step makes of the device `d`: fault entry, or a command completes. -/
inductive Device.EngineEffect (cfg : Config) (d d' : Device) : Prop
  | fault (c : FaultCode) (raised : c ≠ .mixLength) (dev : d' = d.setFault c)
  | completed (i : Instr) (stored : Device) (pending : d.pending = encode i) (stores : d.Stores cfg i stored)
      (dev : d' = stored.setCompleted)

/-- An ENGINE step keeps RST, the configuration, the coming events and the answers, and takes no draw but NONCE_GEN's. -/
def State.EngineFrame (s t : State) : Prop :=
  t.rst = s.rst ∧ t.cfg = s.cfg ∧ t.events = s.events ∧ t.responses = s.responses ∧
    (s.dev.pending ≠ encode .nonceGen → s.sameDraws t)

theorem exec_engineEffect {s : State} {i : Instr} (hi : i ≠ .softReset) (hp : s.dev.pending = encode i) :
    ∃ t, exec i s = .next t ∧ s.EngineFrame t ∧ s.dev.EngineEffect s.cfg t.dev := by
  rcases exec_cases i s with ⟨reset, -⟩ | ⟨c, h, hc⟩ | ⟨rfl, h⟩ | ⟨rfl, h⟩ | ⟨rfl | rfl, b, h⟩ | ⟨rfl, fits, h⟩
  · exact absurd reset hi
  · exact ⟨_, h, ⟨rfl, rfl, rfl, rfl, fun _ => ⟨rfl, rfl⟩⟩, .fault c hc rfl⟩
  · exact ⟨_, h, ⟨rfl, rfl, rfl, rfl, fun _ => ⟨rfl, rfl⟩⟩, .completed _ _ hp .nop rfl⟩
  · exact ⟨_, h, ⟨s.drawTaken_rst, s.drawTaken_cfg, s.drawTaken_events, s.drawTaken_responses, fun other => absurd hp other⟩,
      .completed _ _ hp (.nonceGen s.drawBytes) rfl⟩
  · exact ⟨_, h, ⟨rfl, rfl, rfl, rfl, fun _ => ⟨rfl, rfl⟩⟩, .completed _ _ hp (.feistel b) rfl⟩
  · exact ⟨_, h, ⟨rfl, rfl, rfl, rfl, fun _ => ⟨rfl, rfl⟩⟩, .completed _ _ hp (.ksGen b) rfl⟩
  · exact ⟨_, h, ⟨rfl, rfl, rfl, rfl, fun _ => ⟨rfl, rfl⟩⟩, .completed _ _ hp (.ctrXor _ _ fits) rfl⟩

/-- Everything the ENGINE's turn does to the FKE while its step is enabled. -/
theorem engineTurn_engineEffect {s : State} (hs : s.dev.seq = .busy) (hr : s.rst = false) :
    ∃ t, engineTurn s = .next t ∧ s.EngineFrame t ∧ s.dev.EngineEffect s.cfg t.dev := by
  rcases engineTurn_cases s with ⟨disabled, -⟩ | ⟨-, i, hi, decoded, performed⟩ | ⟨-, -, fault⟩
  · simp [State.engineEnabled_of_busy hs hr] at disabled
  · rw [performed]
    exact exec_engineEffect hi (decode_eq_ok_iff.mp decoded)
  · exact ⟨_, fault, ⟨rfl, rfl, rfl, rfl, fun _ => ⟨rfl, rfl⟩⟩, .fault .badCmd (by decide) rfl⟩

theorem Device.EngineEffect.seq_ne_busy {cfg : Config} {d d' : Device} (h : d.EngineEffect cfg d') : d'.seq ≠ .busy := by
  cases h with
  | fault c _ dev => rw [dev]; simp
  | completed i d _ _ dev => rw [dev]; simp

/-- The step gives the ENGINE its turn: at an `engineTurn` event, or with no event left (log entry 4). -/
def State.AtEngineTurn (s : State) : Prop := s.events = [] ∨ ∃ es, s.events = .engineTurn :: es

/-- Everything a step can do to the FKE and to the draws, with the event that does it. -/
inductive StepEffect (s t : State) : Prop
  | same (dev : t.dev = s.dev) (rst : t.rst = s.rst) (draws : s.sameDraws t)
  | engine (turn : s.AtEngineTurn) (busy : s.dev.seq = .busy) (low : s.rst = false) (rst : t.rst = s.rst)
      (effect : s.dev.EngineEffect s.cfg t.dev) (draws : s.dev.pending ≠ encode .nonceGen → s.sameDraws t)
  | stored (a : Access) (v : Word) (es : List Event) (events : s.events = .host a :: es) (kind : a.kind = .write v)
      (admitted : s.refusesAccess a = false) (operand : accessTarget s.cfg a ≠ .reg .cmd) (rst : t.rst = s.rst)
      (dev : t.dev = s.dev.writeOperand s.cfg v (accessTarget s.cfg a)) (draws : s.sameDraws t)
  | accepted (v : Word) (es : List Event) (events : s.events = .host (.wr 0x008 v) :: es) (idle : s.dev.seq = .idle)
      (other : v ≠ encode .softReset) (low : s.rst = false) (rst : t.rst = s.rst) (dev : t.dev = s.dev.setAccepted v)
      (draws : s.sameDraws t)
  | softReset (es : List Event) (events : s.events = .host (.wr 0x008 (encode .softReset)) :: es)
      (notBusy : s.dev.seq ≠ .busy) (low : s.rst = false) (rst : t.rst = s.rst) (dev : t.dev = Device.reset)
      (draws : s.sameDraws t)
  | rst (l : Bool) (es : List Event) (events : s.events = .rst l :: es) (driven : l = true ∨ s.rst = true)
      (dev : t.dev = Device.reset) (draws : s.sameDraws t)

/-- The step that gives the ENGINE its turn. -/
theorem step_effect_engineTurn {s : State} (turn : s.AtEngineTurn) :
    ∃ t, step s = .next t ∧ t.cfg = s.cfg ∧ StepEffect s t := by
  obtain ⟨es, he⟩ : ∃ es, (s.events = [] ∧ es = []) ∨ s.events = .engineTurn :: es := by
    rcases turn with he | ⟨es, he⟩
    · exact ⟨[], .inl ⟨he, rfl⟩⟩
    · exact ⟨es, .inr he⟩
  rw [step_eq_engineTurn he]
  by_cases enabled : s.dev.seq = .busy ∧ s.rst = false
  · obtain ⟨busy, low⟩ := enabled
    obtain ⟨t, taken, ⟨rst, cfg, -, -, draws⟩, effect⟩ := engineTurn_engineEffect (s := { s with events := es }) busy low
    exact ⟨t, taken, cfg, .engine turn busy low rst effect draws⟩
  · have disabled : s.dev.seq ≠ .busy ∨ s.rst = true := by
      rwa [not_and_or, Bool.not_eq_false] at enabled
    exact ⟨_, engineTurn_of_disabled (s := { s with events := es }) disabled, rfl, .same rfl rfl ⟨rfl, rfl⟩⟩

/-- The step at a host access. -/
theorem step_effect_host {s : State} {a : Access} {es : List Event} (he : s.events = .host a :: es) :
    ∃ t, step s = .next t ∧ t.cfg = s.cfg ∧ StepEffect s t := by
  rw [step_host he]
  rcases hostAccess_cases s.popEvent a with ⟨r, answered⟩ | ⟨admitted, v, hk, ht, written⟩ | ⟨admitted, v, hk, ht, stored⟩
  · exact ⟨_, answered, rfl, .same rfl rfl ⟨rfl, rfl⟩⟩
  · have low : s.rst = false := (admitted_shape admitted).2.2.1
    obtain rfl : a = .wr 0x008 v := admitted_write_reg admitted hk ht
    rw [written]
    rcases commandWrite_cases s.popEvent v with ⟨-, h⟩ | ⟨notBusy, rfl, h⟩ | ⟨idle, other, h⟩ | ⟨-, -, h⟩
    · exact ⟨_, h, rfl, .same rfl rfl ⟨rfl, rfl⟩⟩
    · exact ⟨_, h, rfl, .softReset es he notBusy low rfl rfl ⟨rfl, rfl⟩⟩
    · exact ⟨_, h, rfl, .accepted v es he idle other low rfl rfl ⟨rfl, rfl⟩⟩
    · exact ⟨_, h, rfl, .same rfl rfl ⟨rfl, rfl⟩⟩
  · exact ⟨_, stored, rfl, .stored a v es he hk admitted ht rfl rfl ⟨rfl, rfl⟩⟩

/-- Every step answers a next state, of the same configuration, by one of the effects. -/
theorem step_effect (s : State) : ∃ t, step s = .next t ∧ t.cfg = s.cfg ∧ StepEffect s t := by
  rcases step_cases s with ⟨he, -⟩ | ⟨es, he, -⟩ | ⟨a, es, he, -⟩ | ⟨l, es, he, h⟩
  · exact step_effect_engineTurn (.inl he)
  · exact step_effect_engineTurn (.inr ⟨es, he⟩)
  · exact step_effect_host he
  · rcases s.popEvent.driveReset_cases l with ⟨driven, resets⟩ | ⟨-, -, unchanged⟩
    · exact ⟨_, h, by rw [resets]; exact ⟨rfl, .rst l es he driven rfl ⟨rfl, rfl⟩⟩⟩
    · exact ⟨_, h, by rw [unchanged]; exact ⟨rfl, .same rfl rfl ⟨rfl, rfl⟩⟩⟩

theorem step_effect_of_next {s t : State} (h : step s = .next t) : t.cfg = s.cfg ∧ StepEffect s t := by
  obtain ⟨t', stepped, cfg, effect⟩ := step_effect s
  obtain rfl : t' = t := Host.Outcome.next.inj (stepped.symm.trans h)
  exact ⟨cfg, effect⟩

/-- Settles O7: every effect is a next state's. -/
theorem everyStepAnswersANextState : Obligations.EveryStepAnswersANextState := by
  intro s
  obtain ⟨t, stepped, cfg, -⟩ := step_effect s
  exact ⟨t, stepped, cfg⟩

/-- Settles O8: each read of STATUS is admitted while BUSY and only answers, and the ENGINE step leaves BUSY. -/
theorem waitEndsAfterAnyNumberOfStatusReads : Obligations.WaitEndsAfterAnyNumberOfStatusReads := by
  intro n
  induction n with
  | zero =>
    intro s he hs hr
    obtain ⟨t, taken, ⟨-, -, -, responses, -⟩, effect⟩ := engineTurn_engineEffect hs hr
    exact ⟨t, run_succ_of_step ((step_nil he).trans taken), effect.seq_ne_busy, responses⟩
  | succ n ih =>
    intro s he hs hr
    have read : step s = .next { s with
        events := List.replicate n (.host (.rd 0x00C))
        responses := .data s.dev.statusWord :: s.responses } :=
      step_rd_reg_of_readableWhileBusy (r := .status) rfl hr he
    obtain ⟨t, ran, notBusy, responses⟩ := ih { s with
        events := List.replicate n (.host (.rd 0x00C))
        responses := .data s.dev.statusWord :: s.responses } rfl hs hr
    refine ⟨t, (run_succ_of_step read).trans ran, notBusy, ?_⟩
    rw [responses, List.replicate_succ', List.append_assoc]
    rfl

/-! ### The rules of the whole machine -/

theorem FaultCode.code_toNat_le {c : FaultCode} (h : c ≠ .mixLength) : c.code.toNat ≤ 5 := by
  revert h
  cases c <;> decide

/-- A command that completes touches, of the registers, COUNTER alone. -/
theorem Device.Stores.registers {cfg : Config} {d d' : Device} {i : Instr} (h : d.Stores cfg i d') :
    d' = { d with counter := d'.counter, mem := d'.mem } := by
  cases h <;> rfl

theorem Device.Stores.errcode {cfg : Config} {d d' : Device} {i : Instr} (h : d.Stores cfg i d') :
    d'.errcode = d.errcode := by
  rw [h.registers]

/-- Settles O20: only fault entry and a reset write ERRCODE. -/
theorem onlyTheFiveCodesAreEverRaised : Obligations.OnlyTheFiveCodesAreEverRaised := by
  intro s t stepped
  obtain ⟨-, effect⟩ := step_effect_of_next stepped
  cases effect with
  | same dev => exact .inl (by rw [dev])
  | engine _ _ _ _ effect =>
    cases effect with
    | fault c raised dev => exact .inr (by rw [dev]; exact FaultCode.code_toNat_le raised)
    | completed i d _ stores dev => exact .inl (by rw [dev, Device.setCompleted_errcode, stores.errcode])
  | stored a v es _ _ _ _ _ dev => exact .inl (by rw [dev, Device.writeOperand_errcode])
  | accepted v es _ _ _ _ _ dev => exact .inl (by rw [dev, Device.setAccepted_errcode])
  | softReset es _ _ _ _ dev => exact .inr (by rw [dev]; decide)
  | rst l es _ _ dev => exact .inr (by rw [dev]; decide)

/-- Only NONCE_GEN and CTR_XOR write COUNTER. -/
theorem Device.Stores.counter {cfg : Config} {d d' : Device} {i : Instr} (h : d.Stores cfg i d')
    (changed : d'.counter ≠ d.counter) :
    i = .nonceGen ∨ i = .ctrXor := by
  cases h with
  | nonceGen => exact .inl rfl
  | ctrXor => exact .inr rfl
  | nop => exact absurd rfl changed
  | feistel b => exact absurd rfl changed
  | ksGen b => exact absurd rfl changed

/-- An operand write changes COUNTER only at one of its two halves. -/
theorem Device.writeOperand_counter {d : Device} {cfg : Config} {v : Word} {p : Target}
    (changed : (d.writeOperand cfg v p).counter ≠ d.counter) : p = .reg .counterLo ∨ p = .reg .counterHi := by
  revert changed
  unfold Device.writeOperand
  split <;> simp

/-- Settles O42: the effects of a step on COUNTER, one by one. -/
theorem counterHasOnlyItsListedWriters : Obligations.CounterHasOnlyItsListedWriters := by
  intro s t stepped changed
  obtain ⟨-, effect⟩ := step_effect_of_next stepped
  cases effect with
  | same dev => exact absurd (by rw [dev]) changed
  | engine turn busy _ _ effect =>
    cases effect with
    | fault c _ dev => exact absurd (by rw [dev]; rfl) changed
    | completed i d pending stores dev =>
      rw [dev] at changed
      refine .inl ⟨turn, busy, ?_⟩
      rcases stores.counter changed with rfl | rfl
      · exact .inl pending
      · exact .inr pending
  | stored a v es events kind admitted _ _ dev =>
    rw [dev] at changed
    refine .inr (.inl ⟨es, v, ?_⟩)
    rcases Device.writeOperand_counter changed with ht | ht
    · exact .inl (by rw [events, admitted_write_reg admitted kind ht]; rfl)
    · exact .inr (by rw [events, admitted_write_reg admitted kind ht]; rfl)
  | accepted v es _ _ _ _ _ dev => exact absurd (by rw [dev]; rfl) changed
  | softReset es events => exact .inr (.inr (.inl ⟨es, events⟩))
  | rst l es events => exact .inr (.inr (.inr ⟨es, l, events⟩))

/-- A command that completes leaves every byte below KS, but NONCE_GEN those of NONCE. -/
theorem Device.Stores.read_below_ks {cfg : Config} {d d' : Device} {i : Instr} (h : d.Stores cfg i d') {x : Nat}
    (hx : x < Window.ks.base) (hn : i = .nonceGen → x < Window.nonce.base ∨ Window.nonce.base + 120 ≤ x) :
    d'.mem.read x = d.mem.read x := by
  have ks : ¬ (Window.ks.base ≤ x ∧ x < Window.ks.base + 128) := by omega
  have data : ∀ n, ¬ (Window.data.base ≤ x ∧ x < Window.data.base + n) := by
    intro n
    simp only [Window.base] at hx ⊢
    omega
  cases h with
  | nop => rfl
  | nonceGen b =>
    have outside := hn rfl
    exact (Device.read_storeWindow ..).trans (if_neg (by omega))
  | feistel b => exact (Device.read_storeWindow ..).trans (if_neg ks)
  | ksGen b => exact (Device.read_storeWindow ..).trans (if_neg ks)
  | ctrXor out b =>
    exact ((Device.read_storeWindow ..).trans (if_neg ks)).trans ((Device.read_storeWindow ..).trans (if_neg (data _)))

/-- Settles O43: fault entry writes STATE and ERRCODE, and a command that completes stores to NONCE, KS, DATA and COUNTER
alone. -/
theorem engineNeverWritesTheHostsOperands : Obligations.EngineNeverWritesTheHostsOperands := by
  intro s t turn stepped
  have noEvent : ∀ e es, s.events = e :: es → e = .engineTurn := by
    rintro e es he
    rcases turn with h | ⟨es', h⟩
    · rw [h] at he
      cases he
    · rw [h] at he
      cases he
      rfl
  obtain ⟨-, effect⟩ := step_effect_of_next stepped
  cases effect with
  | same dev => rw [dev]; exact ⟨⟨rfl, rfl, rfl, rfl⟩, rfl, fun _ _ => rfl, fun _ _ => rfl⟩
  | engine _ _ _ _ effect =>
    cases effect with
    | fault c _ dev => rw [dev]; exact ⟨⟨rfl, rfl, rfl, rfl⟩, rfl, fun _ _ => rfl, fun _ _ => rfl⟩
    | completed i d _ stores dev =>
      have bytes : ∀ x < Window.ks.base, (x < Window.nonce.base ∨ Window.nonce.base + 120 ≤ x) →
          t.dev.mem.read x = s.dev.mem.read x := by
        intro x below outside
        rw [dev]
        exact stores.read_below_ks below fun _ => outside
      refine ⟨?_, ?_, fun j hj => bytes _ ?_ (.inl ?_), fun j hj => bytes _ ?_ (.inr ?_)⟩
      · rw [dev, stores.registers]
        exact ⟨rfl, rfl, rfl, rfl⟩
      · rw [dev, stores.registers]
        rfl
      all_goals
        simp only [Window.base]
        omega
  | stored a v es events => cases noEvent _ _ events
  | accepted v es events => cases noEvent _ _ events
  | softReset es events => cases noEvent _ _ events
  | rst l es events => cases noEvent _ _ events

/-! ### The invariant -/

/-- The windows' bytes are in canonical form and lie in the windows of the address map. -/
def Mem.InWindows (cfg : Config) (m : Mem) : Prop := m.wf ∧ ∀ c ∈ m, inSomeWindow cfg c.1

/-- Bytes written inside one window stay in the windows. -/
theorem Mem.InWindows.writeAll {cfg : Config} {m : Mem} (h : m.InWindows cfg) (w : Window) {x : Nat} {bs : List Byte}
    (inside : ∀ y, x ≤ y → y < x + bs.length → w.base ≤ y ∧ y < w.base + w.size cfg) :
    (m.writeAll x bs).InWindows cfg := by
  obtain ⟨wf, within⟩ := h
  refine ⟨Mem.wf_writeAll wf x bs, fun c hc => ?_⟩
  rcases Mem.mem_writeAll hc with old | ⟨above, below⟩
  · exact within c old
  · exact ⟨w, w.mem_all, inside c.1 above below⟩

theorem Mem.InWindows.storeWindow {cfg : Config} {d : Device} (h : d.mem.InWindows cfg) (w : Window) {n : Nat} (b : Bytes n)
    (fits : n ≤ w.size cfg) : (d.storeWindow w b).mem.InWindows cfg := by
  refine Mem.InWindows.writeAll h w fun y above below => ?_
  rw [Vector.length_toList] at below
  omega

/-- Every store of a command lies in its window. -/
theorem Device.Stores.inWindows {cfg : Config} {d d' : Device} {i : Instr} (h : d.Stores cfg i d')
    (hm : d.mem.InWindows cfg) : d'.mem.InWindows cfg := by
  cases h with
  | nop => exact hm
  | nonceGen b => exact Mem.InWindows.storeWindow hm .nonce b le_rfl
  | feistel b => exact Mem.InWindows.storeWindow hm .ks b le_rfl
  | ksGen b => exact Mem.InWindows.storeWindow hm .ks b le_rfl
  | ctrXor out b fits =>
    exact Mem.InWindows.storeWindow (d := d.storeWindow .data out) (Mem.InWindows.storeWindow hm .data out fits) .ks b
      le_rfl

theorem Mem.InWindows.writeWindowWord {cfg : Config} {d : Device} (h : d.mem.InWindows cfg) (w : Window) (k : Nat)
    (v : Word) : (d.writeWindowWord cfg w k v).mem.InWindows cfg := by
  refine Mem.InWindows.writeAll h w fun y above below => ?_
  rw [List.length_take] at below
  omega

/-- Every operand write stores inside a window, if it stores to one at all. -/
theorem Mem.InWindows.writeOperand {cfg : Config} {d : Device} (h : d.mem.InWindows cfg) (v : Word) (p : Target) :
    (d.writeOperand cfg v p).mem.InWindows cfg := by
  cases p with
  | reg r => cases r <;> exact h
  | windowWord w k => cases w <;> first | exact h | exact h.writeWindowWord _ k v
  | reserved => exact h

theorem Device.writeOperand_done (d : Device) (cfg : Config) (v : Word) (p : Target) :
    (d.writeOperand cfg v p).done = d.done := by
  unfold Device.writeOperand
  split <;> rfl

theorem Device.writeOperand_pending (d : Device) (cfg : Config) (v : Word) (p : Target) :
    (d.writeOperand cfg v p).pending = d.pending := by
  unfold Device.writeOperand
  split <;> rfl

/-- The flags' invariant looks at STATE, ERRCODE, DONE and PENDING alone. -/
theorem Device.sequencerInv.congr {d d' : Device} (h : d.sequencerInv) (seq : d'.seq = d.seq)
    (errcode : d'.errcode = d.errcode) (done : d'.done = d.done) (pending : d'.pending = d.pending) : d'.sequencerInv := by
  unfold Device.sequencerInv
  rw [seq, errcode, done, pending]
  exact h

/-- A code that is raised is one of the five of 60_exceptions.md R200. -/
theorem FaultCode.code_of_raised {c : FaultCode} (h : c ≠ .mixLength) :
    c.code = 1 ∨ c.code = 2 ∨ c.code = 3 ∨ c.code = 4 ∨ c.code = 5 := by
  revert h
  cases c <;> decide

/-- From BUSY, an ENGINE step leaves the windows and the flags as the invariant says. -/
theorem Device.EngineEffect.keeps {cfg : Config} {d d' : Device} (h : d.EngineEffect cfg d') (busy : d.seq = .busy)
    (hm : d.mem.InWindows cfg) (flags : d.sequencerInv) : d'.mem.InWindows cfg ∧ d'.sequencerInv := by
  obtain ⟨-, inBusy, -⟩ := flags
  obtain ⟨noCode, notDone, -⟩ := inBusy busy
  cases h with
  | fault c raised dev =>
    rw [dev]
    refine ⟨hm, ?_, ?_, fun _ => ⟨FaultCode.code_of_raised raised, notDone⟩⟩ <;> simp
  | completed i d pending stores dev =>
    rw [dev]
    refine ⟨stores.inWindows hm, fun _ => stores.errcode.trans noCode, ?_, ?_⟩ <;> simp

theorem Device.reset_inWindows (cfg : Config) : Device.reset.mem.InWindows cfg := ⟨reset_mem_wf, by simp⟩

theorem Device.reset_sequencerInv : Device.reset.sequencerInv := by decide

/-- Settles O44: the reset values of R231. -/
theorem resetMeetsTheInvariant : Obligations.ResetMeetsTheInvariant :=
  ⟨reset_mem_wf, by simp, Device.reset_sequencerInv, fun _ => rfl⟩

/-- Settles O45: each effect of a step keeps the windows and the flags; while RST is asserted none changes a state element. -/
theorem everyStepKeepsTheInvariant : Obligations.EveryStepKeepsTheInvariant := by
  rintro s t ⟨wf, within, flags, inReset⟩ stepped
  have bytes : s.dev.mem.InWindows s.cfg := ⟨wf, within⟩
  obtain ⟨cfg, effect⟩ := step_effect_of_next stepped
  suffices kept : t.dev.mem.InWindows s.cfg ∧ t.dev.sequencerInv ∧ (t.rst = true → t.dev = Device.reset) by
    obtain ⟨⟨wf', within'⟩, flags', inReset'⟩ := kept
    exact ⟨wf', by rwa [cfg], flags', inReset'⟩
  cases effect with
  | same dev rst => rw [dev, rst]; exact ⟨bytes, flags, inReset⟩
  | engine _ busy low rst effect =>
    obtain ⟨bytes', flags'⟩ := effect.keeps busy bytes flags
    exact ⟨bytes', flags', by simp [rst, low]⟩
  | stored a v es _ _ admitted _ rst dev =>
    obtain ⟨-, -, low, -⟩ := admitted_shape admitted
    rw [dev]
    exact ⟨bytes.writeOperand v _, flags.congr (Device.writeOperand_seq ..) (Device.writeOperand_errcode ..)
      (Device.writeOperand_done ..) (Device.writeOperand_pending ..), by simp [rst, low]⟩
  | accepted v es _ idle other low rst dev =>
    obtain ⟨inIdle, -, -⟩ := flags
    rw [dev]
    refine ⟨bytes, ⟨by simp, fun _ => ⟨inIdle idle, rfl, other⟩, by simp⟩, by simp [rst, low]⟩
  | softReset es _ _ _ _ dev => rw [dev]; exact ⟨Device.reset_inWindows _, Device.reset_sequencerInv, fun _ => rfl⟩
  | rst l es _ _ dev => rw [dev]; exact ⟨Device.reset_inWindows _, Device.reset_sequencerInv, fun _ => rfl⟩

end Sys2Proof.Machine

/-! PROOFS. The commands (40_feistel.md section 3, 41_counter_engine.md sections 1 to 3, 42_control.md): what each leaves in the
registers and windows when it completes, and what follows for CTR_XOR performed again and again. -/

namespace Sys2Proof.Machine

/-! ### A byte string stored in a window -/

theorem Device.windowByte_storeWindow {n : Nat} (d : Device) (w : Window) (b : Bytes n) {j : Nat} (hj : j < n) :
    (d.storeWindow w b).windowByte w j = b.byte j := by
  unfold Device.windowByte
  rw [Device.read_storeWindow, if_pos (by omega), Nat.add_sub_cancel_left]

theorem Device.read_storeWindow_outside {n : Nat} (d : Device) (w : Window) (b : Bytes n) {x : Nat}
    (hx : x < w.base ∨ w.base + n ≤ x) : (d.storeWindow w b).mem.read x = d.mem.read x := by
  rw [Device.read_storeWindow, if_neg (by omega)]

/-! ### NOP and NONCE_GEN -/

/-- Settles O10: NOP's rule is completion alone. -/
theorem nopChangesOnlyTheHandshake : Obligations.NopChangesOnlyTheHandshake :=
  fun s => ⟨_, exec_nop s, ⟨rfl, rfl, rfl, rfl⟩, ⟨rfl, rfl, rfl, rfl⟩, rfl, fun _ => rfl, ⟨rfl, rfl, rfl, rfl, rfl⟩,
    rfl, rfl⟩

theorem State.drawBytes_of_bench {s : State} {d : Bytes 120} {ds : List (Bytes 120)} (h : s.bench = d :: ds) :
    s.drawBytes = d := by
  simp only [State.drawBytes, h]

theorem State.drawBytes_of_no_bench {s : State} (h : s.bench = []) : s.drawBytes = Config.entropy s.draws := by
  simp only [State.drawBytes, h]

/-- A draw that the test bench has fixed is taken off its list. -/
theorem State.drawTaken_of_bench {s : State} {d : Bytes 120} {ds : List (Bytes 120)} (h : s.bench = d :: ds) :
    s.drawTaken = { s with bench := ds } := by
  simp only [State.drawTaken, h]

theorem State.drawTaken_of_no_bench {s : State} (h : s.bench = []) : s.drawTaken = { s with draws := s.draws + 1 } := by
  simp only [State.drawTaken, h]

/-- Settles O11: NONCE is stored whole, and the draw is the bench's first or the next free one. -/
theorem nonceGenLoadsTheDrawAndClearsCounter : Obligations.NonceGenLoadsTheDrawAndClearsCounter := by
  intro s
  refine ⟨_, exec_nonceGen s, rfl, ?bench, ?free, ⟨rfl, rfl, rfl, rfl⟩, ⟨rfl, rfl, rfl, rfl⟩,
    fun x hx => Device.read_storeWindow_outside _ _ _ hx,
    s.drawTaken_rst, s.drawTaken_cfg, s.drawTaken_events, s.drawTaken_responses, s.drawTaken_faults⟩
  case bench =>
    intro d ds h
    refine ⟨fun j hj => (Device.windowByte_storeWindow s.dev .nonce _ hj).trans ?_, ?_, ?_⟩
    · rw [State.drawBytes_of_bench h]
    · simp [State.drawTaken_of_bench h]
    · simp [State.drawTaken_of_bench h]
  case free =>
    intro h
    refine ⟨fun j hj => (Device.windowByte_storeWindow s.dev .nonce _ hj).trans ?_, ?_, ?_⟩
    · rw [State.drawBytes_of_no_bench h]
    · simp [State.drawTaken_of_no_bench h, h]
    · simp [State.drawTaken_of_no_bench h]

/-! ### FEISTEL and KS_GEN -/

theorem State.feistelOfFbuf_expandedKey {s : State} (h : s.dev.keyLen ≠ 0) :
    s.feistelOfFbuf s.dev.expandedKey =
      feistelCore Config.h256 s.cfg.outputOrder (s.dev.window .fbuf 128)
        (expandKey (s.dev.window .keyRaw 64).toList (min s.dev.keyLen.toNat 64)) s.dev.rounds.toInt := by
  rw [s.dev.expandedKey_eq h]
  rfl

theorem State.currentKeystream_expandedKey {s : State} (h : s.dev.keyLen ≠ 0) :
    s.currentKeystream s.dev.expandedKey =
      feistelCore Config.h256 s.cfg.outputOrder (nonceCounterBlock (s.dev.window .nonce 120) s.dev.counter)
        (expandKey (s.dev.window .keyRaw 64).toList (min s.dev.keyLen.toNat 64)) s.dev.rounds.toInt := by
  rw [s.dev.expandedKey_eq h]
  rfl

/-- Settles O12: the rule of FEISTEL stores to KS and then completes. -/
theorem feistelWritesTheImageOfFbufToKs : Obligations.FeistelWritesTheImageOfFbufToKs := by
  intro s hk
  refine ⟨_, exec_feistel_ok hk, fun j hj => ?_, ⟨rfl, rfl, rfl, rfl⟩, ⟨rfl, rfl, rfl, rfl⟩, rfl,
    fun x hx => Device.read_storeWindow_outside _ _ _ hx, ⟨rfl, rfl, rfl, rfl, rfl⟩, rfl, rfl⟩
  rw [← State.feistelOfFbuf_expandedKey hk]
  exact Device.windowByte_storeWindow s.dev .ks _ hj

/-- Settles O13: the rule of KS_GEN stores to KS and then completes; it does not look at COUNTER's value. -/
theorem ksGenWritesTheKeystreamBlockToKs : Obligations.KsGenWritesTheKeystreamBlockToKs := by
  intro s hk
  refine ⟨_, exec_ksGen_ok hk, fun j hj => ?_, ⟨rfl, rfl, rfl, rfl⟩, ⟨rfl, rfl, rfl, rfl⟩, rfl,
    fun x hx => Device.read_storeWindow_outside _ _ _ hx, ⟨rfl, rfl, rfl, rfl, rfl⟩, rfl, rfl⟩
  rw [← State.currentKeystream_expandedKey hk]
  exact Device.windowByte_storeWindow s.dev .ks _ hj

/-- Without a round the primitive gives FBUF back, under LR. -/
theorem State.feistelOfFbuf_of_no_rounds {s : State} (hr : s.dev.rounds.toInt ≤ 0) (ho : s.cfg.outputOrder = .lr)
    (k64 : Bytes 64) : s.feistelOfFbuf k64 = s.dev.window .fbuf 128 := by
  unfold State.feistelOfFbuf
  rw [ho]
  exact feistelCore_lr_of_nonpos _ _ _ hr

/-- Without a round the keystream block is the nonce‖counter block itself, under LR. -/
theorem State.currentKeystream_of_no_rounds {s : State} (hr : s.dev.rounds.toInt ≤ 0) (ho : s.cfg.outputOrder = .lr)
    (k64 : Bytes 64) : s.currentKeystream k64 = nonceCounterBlock (s.dev.window .nonce 120) s.dev.counter := by
  unfold State.currentKeystream keystreamBlock
  rw [ho]
  exact feistelCore_lr_of_nonpos _ _ _ hr

/-- Settles O35: with `r ≤ 0` the loop of R117 is empty, so the commands store what they were given. -/
theorem noRoundsGiveTheInputBack : Obligations.NoRoundsGiveTheInputBack := by
  refine ⟨fun h x k r hr => ⟨feistelCore_lr_of_nonpos h x k hr, ?rl⟩, fun s hr ho hk =>
    ⟨⟨_, exec_feistel_ok hk, rfl, fun j hj => (Device.windowByte_storeWindow s.dev .ks _ hj).trans ?feistel⟩,
      ⟨_, exec_ksGen_ok hk, rfl,
        fun j hj => (Device.windowByte_storeWindow s.dev .ks _ (by omega)).trans ?nonce,
        fun m hm => (congrArg BitVec.toNat (Device.windowByte_storeWindow s.dev .ks _ (by omega))).trans ?counter⟩⟩⟩
  case rl => rw [feistelCore_rl, feistelCore_lr_of_nonpos h x k hr]
  case feistel => rw [State.feistelOfFbuf_of_no_rounds hr ho, Device.byte_window, if_pos hj]
  case nonce =>
    rw [State.currentKeystream_of_no_rounds hr ho, byte_nonceCounterBlock_nonce _ _ hj, Device.byte_window, if_pos hj]
  case counter =>
    rw [State.currentKeystream_of_no_rounds hr ho, byte_nonceCounterBlock_counter _ _ hm, toNat_le64Byte]

/-! ### CTR_XOR: its checks -/

theorem ctrXorChecks_keyEmpty {s : State} (h : s.dev.keyLen = 0) : ctrXorChecks s = .error .keyEmpty := by
  unfold ctrXorChecks
  rw [Device.keyOperand_empty h]

/-- Settles O18: the three commands begin with KEY_OPERAND, and its fault is fault entry alone. -/
theorem emptyKeyFaultsEveryKeyCommand : Obligations.EmptyKeyFaultsEveryKeyCommand := by
  rintro i s (rfl | rfl | rfl) hk
  · exact exec_feistel_keyEmpty hk
  · exact exec_ksGen_keyEmpty hk
  · exact exec_ctrXor_fault (ctrXorChecks_keyEmpty hk)

/-- The four checks of CTR_XOR pass (41_counter_engine.md R162). -/
structure State.CtrXorReady (s : State) : Prop where
  keyed : s.dev.keyLen ≠ 0
  blockSize_ne : s.dev.blockSize ≠ 0
  blockSize_le : s.dev.blockSize.toNat ≤ s.cfg.blockSizeMax
  chunkLen_ne : s.dev.chunkLen ≠ 0
  chunkLen_le : s.dev.chunkLen.toNat ≤ s.dev.blockSize.toNat
  counter_lt : s.dev.counter.toNat < 2 ^ 64 - 1

theorem State.CtrXorReady.exec {s : State} (h : s.CtrXorReady) : exec .ctrXor s = .next s.afterCtrXor :=
  exec_ctrXor_ok (ctrXorChecks_ok h.keyed h.blockSize_ne h.blockSize_le h.chunkLen_ne h.chunkLen_le h.counter_lt.ne)

/-- CTR_XOR completes just where its checks pass, and else it faults. -/
theorem exec_ctrXor_cases (s : State) :
    (s.CtrXorReady ∧ exec .ctrXor s = .next s.afterCtrXor) ∨
    (∃ c, exec .ctrXor s = .next (s.faultEntry c)) := by
  rcases ctrXorChecks_cases s with ⟨c, h, -⟩ | ⟨h, keyed, size, fits, chunk, inBlock, counter⟩
  · exact .inr ⟨c, exec_ctrXor_fault h⟩
  · have below := s.dev.counter.isLt
    exact .inl ⟨⟨keyed, size, fits, chunk, inBlock, by omega⟩, exec_ctrXor_ok h⟩

/-- Where CTR_XOR ends in IDLE, its checks passed. -/
theorem ready_of_ctrXor_idle {s t : State} (h : exec .ctrXor s = .next t) (idle : t.dev.seq = .idle) :
    s.CtrXorReady ∧ t = s.afterCtrXor := by
  rcases exec_ctrXor_cases s with ⟨ready, completes⟩ | ⟨c, faults⟩
  · exact ⟨ready, Host.Outcome.next.inj (h.symm.trans completes)⟩
  · obtain rfl : t = s.faultEntry c := Host.Outcome.next.inj (h.symm.trans faults)
    cases idle

/-! ### CTR_XOR: what it leaves -/

theorem State.CtrXorReady.counter {s : State} (h : s.CtrXorReady) :
    s.afterCtrXor.dev.counter.toNat = s.dev.counter.toNat + 1 := by
  have := h.counter_lt
  show (s.dev.counter + 1).toNat = _
  rw [BitVec.toNat_add]
  exact Nat.mod_eq_of_lt (by simpa using by omega)

theorem State.afterCtrXor_windowByte_ks (s : State) {j : Nat} (hj : j < 128) :
    s.afterCtrXor.dev.windowByte .ks j = (s.currentKeystream s.dev.expandedKey).byte j := by
  unfold Device.windowByte
  rw [State.afterCtrXor_read, if_pos (by simp only [Window.base]; omega)]
  simp only [Window.base, Nat.add_sub_cancel_left]

/-- The output block, byte by byte (41_counter_engine.md R153, R154). -/
theorem State.afterCtrXor_windowByte_data (s : State) {j : Nat} (hj : j < s.dev.blockSize.toNat) :
    s.afterCtrXor.dev.windowByte .data j = (if j < s.dev.chunkLen.toNat then s.dev.windowByte .data j else 0) ^^^
      (s.currentKeystream s.dev.expandedKey).byte (j % 128) := by
  unfold Device.windowByte
  rw [State.afterCtrXor_read, if_neg (by simp only [Window.base]; omega), if_pos (by simp only [Window.base]; omega)]
  simp only [Window.base, Nat.add_sub_cancel_left]
  unfold State.currentOutput
  rw [byte_outputBlock _ _ _ _ _ hj, Device.byte_window, if_pos hj]
  rfl

/-- CTR_XOR stores to KS and to DATA[0..BLOCK_SIZE) alone. -/
theorem State.afterCtrXor_read_outside (s : State) {x : Nat} (ks : x < Window.ks.base ∨ Window.ks.base + 128 ≤ x)
    (data : x < Window.data.base ∨ Window.data.base + s.dev.blockSize.toNat ≤ x) :
    s.afterCtrXor.dev.mem.read x = s.dev.mem.read x := by
  simp only [Window.base] at ks data
  rw [State.afterCtrXor_read, if_neg (by omega), if_neg (by omega)]

theorem State.afterCtrXor_windowByte_nonce (s : State) {j : Nat} (hj : j < 120) :
    s.afterCtrXor.dev.windowByte .nonce j = s.dev.windowByte .nonce j :=
  s.afterCtrXor_read_outside (by simp only [Window.base]; omega) (by simp only [Window.base]; omega)

theorem State.afterCtrXor_windowByte_keyRaw (s : State) {j : Nat} (hj : j < 64) :
    s.afterCtrXor.dev.windowByte .keyRaw j = s.dev.windowByte .keyRaw j :=
  s.afterCtrXor_read_outside (by simp only [Window.base]; omega) (by simp only [Window.base]; omega)

/-- Settles O14: the checks pass, and the stores are R162's. -/
theorem ctrXorProcessesOneBlock : Obligations.CtrXorProcessesOneBlock := by
  intro s hk hb hb' hc hc' hn
  have ready : s.CtrXorReady := ⟨hk, hb, hb', hc, hc', hn⟩
  exact ⟨s.afterCtrXor, _, ready.exec, State.currentKeystream_expandedKey hk,
    fun j hj => s.afterCtrXor_windowByte_data hj, fun j hj => s.afterCtrXor_windowByte_ks hj, ready.counter,
    ⟨rfl, rfl, rfl, rfl⟩, ⟨rfl, rfl, rfl, rfl⟩, fun x ks data => s.afterCtrXor_read_outside ks data,
    ⟨rfl, rfl, rfl, rfl, rfl⟩, rfl, rfl⟩

/-- Settles O40: a CTR_XOR that completes has passed the check of COUNTER, and fault entry leaves COUNTER. -/
theorem ctrXorNeverWrapsTheCounter : Obligations.CtrXorNeverWrapsTheCounter := by
  intro s
  rcases exec_ctrXor_cases s with ⟨ready, completes⟩ | ⟨c, faults⟩
  · refine ⟨_, completes, .inl ⟨rfl, ready.counter⟩, fun exhausted => ?_⟩
    have := ready.counter_lt
    omega
  · refine ⟨_, faults, .inr ⟨rfl, rfl, rfl⟩, fun exhausted => ⟨rfl, fun hk hb hb' hc hc' => ?_⟩⟩
    have checks : ctrXorChecks s = .error .counterExhausted := by
      unfold ctrXorChecks
      rw [Device.keyOperand_ok hk]
      simp only
      rw [if_neg (by simp only [hb, false_or]; omega), if_neg (by simp only [hc, false_or]; omega), if_pos exhausted]
    rw [Host.Outcome.next.inj (faults.symm.trans (exec_ctrXor_fault checks))]
    rfl

/-! ### What the keystream block depends on -/

theorem Device.effectiveKeyLen_le (d : Device) : d.effectiveKeyLen ≤ 64 := Nat.min_le_right _ _

theorem Device.expandedKey_congr {d d' : Device} (hk : d.keyLen ≠ 0) (len : d'.keyLen = d.keyLen)
    (bytes : ∀ j < 64, d'.windowByte .keyRaw j = d.windowByte .keyRaw j) : d'.expandedKey = d.expandedKey := by
  have sameLen : d'.effectiveKeyLen = d.effectiveKeyLen := by
    unfold Device.effectiveKeyLen
    rw [len]
  apply Bytes.ext
  intro j hj
  rw [Device.byte_expandedKey hk hj, Device.byte_expandedKey (by rwa [len]) hj, sameLen]
  exact bytes _ ((Nat.mod_lt _ (Device.effectiveKeyLen_pos hk)).trans_le d.effectiveKeyLen_le)

theorem Device.window_congr {d d' : Device} {w : Window} {n : Nat}
    (bytes : ∀ j < n, d'.windowByte w j = d.windowByte w j) : d'.window w n = d.window w n := by
  apply Bytes.ext
  intro j hj
  rw [Device.byte_window, Device.byte_window, if_pos hj, if_pos hj, bytes j hj]

/-- NONCE, COUNTER, the expanded key, ROUNDS and the output order are all that the keystream block depends on (R151). -/
theorem State.currentKeystream_congr {s s' : State} (order : s'.cfg.outputOrder = s.cfg.outputOrder)
    (nonce : ∀ j < 120, s'.dev.windowByte .nonce j = s.dev.windowByte .nonce j) (counter : s'.dev.counter = s.dev.counter)
    (rounds : s'.dev.rounds = s.dev.rounds) (k64 : Bytes 64) : s'.currentKeystream k64 = s.currentKeystream k64 := by
  unfold State.currentKeystream Device.roundCount
  rw [order, Device.window_congr nonce, counter, rounds]

/-- Settles O41: both commands completed, so both key operands are expanded keys, and the output is R154's of equal operands. -/
theorem outputBlockDependsOnlyOnItsOperands : Obligations.OutputBlockDependsOnlyOnItsOperands := by
  intro s s' t t' order nonce counter key rounds size chunk data h h' idle idle'
  obtain ⟨ready, rfl⟩ := ready_of_ctrXor_idle h idle
  obtain ⟨ready', rfl⟩ := ready_of_ctrXor_idle h' idle'
  have sameKey : s'.dev.expandedKey = s.dev.expandedKey :=
    Except.ok.inj ((Device.keyOperand_ok ready'.keyed).symm.trans (key.trans (Device.keyOperand_ok ready.keyed)))
  have sameStream : s'.currentKeystream s'.dev.expandedKey = s.currentKeystream s.dev.expandedKey := by
    rw [sameKey]
    exact State.currentKeystream_congr order nonce counter rounds _
  refine ⟨fun j hj => ?_, fun j hj => ?_⟩
  · rw [s.afterCtrXor_windowByte_data hj, s'.afterCtrXor_windowByte_data (by rwa [size]), sameStream, chunk]
    congr 1
    split
    · next inChunk => exact data j inChunk
    · rfl
  · rw [s.afterCtrXor_windowByte_ks hj, s'.afterCtrXor_windowByte_ks hj, sameStream]

/-! ### CTR_XOR performed again -/

/-- The state after CTR_XOR has the key and the nonce of the state before. -/
theorem State.afterCtrXor_expandedKey {s : State} (h : s.dev.keyLen ≠ 0) :
    s.afterCtrXor.dev.expandedKey = s.dev.expandedKey :=
  Device.expandedKey_congr h rfl fun _ hj => s.afterCtrXor_windowByte_keyRaw hj

/-- COUNTER written back and CHUNK_LEN = BLOCK_SIZE, after a CTR_XOR (41_counter_engine.md R155). -/
def State.rewound (s : State) : State :=
  { s.afterCtrXor with dev := { s.afterCtrXor.dev with counter := s.dev.counter, chunkLen := s.dev.blockSize } }

theorem State.CtrXorReady.rewound {s : State} (h : s.CtrXorReady) : s.rewound.CtrXorReady :=
  ⟨h.keyed, h.blockSize_ne, h.blockSize_le, h.blockSize_ne, le_rfl, h.counter_lt⟩

/-- The second CTR_XOR runs under the keystream block of the first. -/
theorem State.rewound_currentKeystream {s : State} (h : s.dev.keyLen ≠ 0) :
    s.rewound.currentKeystream s.rewound.dev.expandedKey = s.currentKeystream s.dev.expandedKey := by
  have sameKey : s.rewound.dev.expandedKey = s.dev.expandedKey := State.afterCtrXor_expandedKey h
  rw [sameKey]
  exact State.currentKeystream_congr (s := s) (s' := s.rewound) rfl (fun _ hj => s.afterCtrXor_windowByte_nonce hj) rfl rfl _

/-- Settles O38: the second command XORs the same keystream to the output of the first. -/
theorem ctrXorTwiceReturnsThePaddedChunk : Obligations.CtrXorTwiceReturnsThePaddedChunk := by
  intro s hk hb hb' hc hc' hn
  have ready : s.CtrXorReady := ⟨hk, hb, hb', hc, hc', hn⟩
  refine ⟨s.afterCtrXor, s.rewound.afterCtrXor, ready.exec, ready.rewound.exec, fun j hj => ?_, rfl, rfl⟩
  have first : s.rewound.dev.windowByte .data j = _ := s.afterCtrXor_windowByte_data hj
  have inChunk : j < s.rewound.dev.chunkLen.toNat := hj
  rw [s.rewound.afterCtrXor_windowByte_data hj, if_pos inChunk, first, State.rewound_currentKeystream hk,
    BitVec.xor_assoc, BitVec.xor_self, BitVec.xor_zero]

theorem performTimes_succ {i : Instr} {s t : State} (h : exec i s = .next t) (k : Nat) :
    performTimes i (k + 1) s = performTimes i k t := by
  rw [performTimes, h]

/-- Settles O39: by induction on the number of commands, each of which advances COUNTER by 1 and keeps the other operands. -/
theorem consecutiveBlocksUseConsecutiveCounters : Obligations.ConsecutiveBlocksUseConsecutiveCounters := by
  intro k
  induction k with
  | zero => exact fun s _ _ _ _ _ _ => ⟨s, rfl, rfl, rfl, ⟨rfl, rfl, rfl, rfl⟩, by omega⟩
  | succ k ih =>
    intro s hk hb hb' hc hc' hn
    have ready : s.CtrXorReady := ⟨hk, hb, hb', hc, hc', by omega⟩
    obtain ⟨t, performed, counter, faults, operands, ks⟩ :=
      ih s.afterCtrXor hk hb hb' hc hc' (by rw [ready.counter]; omega)
    refine ⟨t, (performTimes_succ ready.exec k).trans performed, ?_, faults, operands, fun m hm j hj => ?_⟩
    · rw [counter, ready.counter]
      omega
    obtain rfl : k = m := Nat.succ.inj hm
    cases k with
    | zero =>
      obtain rfl : s.afterCtrXor = t := Host.Outcome.next.inj performed
      rw [s.afterCtrXor_windowByte_ks hj, State.currentKeystream_expandedKey hk, BitVec.add_zero]
    | succ k =>
      have nonce : s.afterCtrXor.dev.window .nonce 120 = s.dev.window .nonce 120 :=
        Device.window_congr fun _ hj => s.afterCtrXor_windowByte_nonce hj
      have key : s.afterCtrXor.dev.window .keyRaw 64 = s.dev.window .keyRaw 64 :=
        Device.window_congr fun _ hj => s.afterCtrXor_windowByte_keyRaw hj
      have next : s.afterCtrXor.dev.counter + BitVec.ofNat 64 k = s.dev.counter + BitVec.ofNat 64 (k + 1) := by
        show s.dev.counter + 1 + BitVec.ofNat 64 k = _
        rw [BitVec.ofNat_add, BitVec.add_assoc, BitVec.add_comm 1]
        rfl
      have last := ks k rfl j hj
      rw [nonce, key, next] at last
      exact last

end Sys2Proof.Machine

/-! PROOFS. The register block (20_memory.md sections 3 and 5): reads only answer, operands and halves of COUNTER are stored and
read back, window words are little-endian, and the key is never read back. -/

namespace Sys2Proof.Machine

/-! ### Reads -/

/-- What a read is answered: a bus error, or the value of the element it is aimed at. -/
theorem step_read {s : State} {a : Access} {es : List Event} (he : s.events = .host a :: es) (hk : a.kind = .read) :
    ∃ r, step s = .next { s with events := es, responses := r :: s.responses } ∧
      (r = .data (s.readTarget (accessTarget s.cfg a)) ∨ r = .busError) := by
  cases h : s.refusesAccess a with
  | true => exact ⟨_, step_refused he h, .inr rfl⟩
  | false =>
    refine ⟨_, ?_, .inl rfl⟩
    rw [step_host he, hostAccess_read (s := s.popEvent) h hk, State.popEvent_of_events he]
    rfl

/-- CMD and the words of KEY_RAW are write-only. -/
theorem State.readTarget_of_writeOnly (s : State) {o : Nat}
    (h : (0x008 ≤ o ∧ o < 0x00C) ∨ (0x040 ≤ o ∧ o < 0x080)) : s.readTarget (target s.cfg o) = 0 := by
  rcases h with cmd | key
  · rw [(target_eq_reg s.cfg o .cmd).mpr cmd]
    rfl
  · have ht : target s.cfg o = .windowWord .keyRaw ((o - 0x040) / 4) :=
      (target_eq_windowWord ..).mpr ⟨key.1, by simpa [Window.base, Window.words, Window.size] using key.2, rfl⟩
    rw [ht]
    rfl

/-- Settles O23: an admitted read changes nothing but the answers, and its value is that of `readTarget`. -/
theorem readsHaveNoSideEffect : Obligations.ReadsHaveNoSideEffect := by
  intro s a es he hk
  obtain ⟨r, stepped, answer⟩ := step_read he hk
  refine ⟨r, stepped, fun writeOnly => ?_⟩
  have zero : s.readTarget (accessTarget s.cfg a) = 0 := by
    apply s.readTarget_of_writeOnly
    rcases writeOnly with cmd | key
    · exact .inl (by rw [cmd]; decide)
    · exact .inr key
  rwa [zero] at answer

/-! ### A register written and read back -/

/-- A write to a writable register other than CMD, and then a read of it. -/
theorem run_wr_rd_reg {s : State} {es : List Event} {r : Reg} {v : Word} (hr : s.rst = false) (hs : s.dev.seq ≠ .busy)
    (ho : (Target.reg r).readOnly = false) (hc : r ≠ .cmd)
    (he : s.events = .host (.wr (BitVec.ofNat 12 r.offset) v) :: .host (.rd (BitVec.ofNat 12 r.offset)) :: es) :
    core.run 2 s = .next { s with
      dev := s.dev.writeOperand s.cfg v (.reg r)
      events := es
      responses := .data (State.readReg { s with dev := s.dev.writeOperand s.cfg v (.reg r) } r) :: .completed ::
        s.responses } := by
  have aligned : (BitVec.ofNat 12 r.offset).toNat % 4 = 0 := by cases r <;> decide
  have stands := target_reg_offset s.cfg r
  have written := step_wr he (wr_admitted aligned hs hr (by rw [stands]; simp) (by rwa [stands]))
    (by rw [stands]; simpa using hc)
  rw [stands] at written
  refine run_two_of_step written ((step_rd rfl ?_).trans (by rw [stands]; rfl))
  exact rd_admitted aligned (by rwa [Device.writeOperand_seq]) hr (by rw [stands]; simp)

/-- Settles O24: each of the four registers holds whatever word is written to it. -/
theorem operandWritesStoreAndReadBack : Obligations.OperandWritesStoreAndReadBack := by
  intro s es v hr hs
  exact ⟨run_wr_rd_reg (r := .rounds) hr hs rfl (by decide), run_wr_rd_reg (r := .blockSize) hr hs rfl (by decide),
    run_wr_rd_reg (r := .chunkLen) hr hs rfl (by decide), run_wr_rd_reg (r := .keyLen) hr hs rfl (by decide)⟩

/-! ### The halves of COUNTER -/

theorem toNat_counterOf (hi lo : Word) : (counterOf hi lo).toNat = hi.toNat * 2 ^ 32 + lo.toNat := by
  unfold counterOf
  rw [BitVec.toNat_append, ← Nat.shiftLeft_add_eq_or_of_lt lo.isLt, Nat.shiftLeft_eq]

theorem Device.toNat_counterHi (d : Device) : d.counterHi.toNat = d.counter.toNat / 2 ^ 32 := by
  have := d.counter.isLt
  unfold Device.counterHi
  rw [BitVec.extractLsb'_toNat, Nat.shiftRight_eq_div_pow]
  exact Nat.mod_eq_of_lt (by omega)

theorem Device.toNat_counterLo (d : Device) : d.counterLo.toNat = d.counter.toNat % 2 ^ 32 := by
  unfold Device.counterLo
  rw [BitVec.extractLsb'_toNat, Nat.shiftRight_zero]

/-- The low half reads back what is written to it. -/
theorem extractLsb'_low_counterOf (hi lo : Word) : (counterOf hi lo).extractLsb' 0 32 = lo := by
  unfold counterOf
  rw [BitVec.extractLsb'_append_eq_of_add_le (by decide), BitVec.extractLsb'_eq_self]

/-- The high half reads back what is written to it. -/
theorem extractLsb'_high_counterOf (hi lo : Word) : (counterOf hi lo).extractLsb' 32 32 = hi := by
  unfold counterOf
  rw [BitVec.extractLsb'_append_eq_of_le (by decide)]
  exact BitVec.extractLsb'_eq_self

/-- Settles O25: COUNTER is its two halves, and a write puts the other half back as it was. -/
theorem counterHalvesAreWrittenAlone : Obligations.CounterHalvesAreWrittenAlone := by
  intro s es v hr hs
  refine ⟨fun he => ⟨_, run_wr_rd_reg (r := .counterLo) hr hs rfl (by decide) he, ?_, ?_, rfl⟩,
    fun he => ⟨_, run_wr_rd_reg (r := .counterHi) hr hs rfl (by decide) he, ?_, ?_, rfl⟩⟩
  · exact congrArg (fun w => .data w :: .completed :: s.responses) (extractLsb'_low_counterOf s.dev.counterHi v)
  · rw [← s.dev.toNat_counterHi]
    exact toNat_counterOf _ _
  · exact congrArg (fun w => .data w :: .completed :: s.responses) (extractLsb'_high_counterOf v s.dev.counterLo)
  · rw [← s.dev.toNat_counterLo]
    exact toNat_counterOf _ _

/-! ### Window words -/

/-- An admitted write of a word of a window: its bytes are stored, and nothing else happens. -/
theorem step_wr_window {s : State} {es : List Event} {w : Window} {k : Nat} {v : Word} (hr : s.rst = false)
    (hs : s.dev.seq ≠ .busy) (hw : w ≠ .ks) (hk : 4 * k < w.size s.cfg)
    (he : s.events = .host (.wr (BitVec.ofNat 12 (w.base + 4 * k)) v) :: es) :
    step s = .next { s with
      dev := s.dev.writeWindowWord s.cfg w k v
      events := es
      responses := .completed :: s.responses } := by
  obtain ⟨offset, aligned, stands⟩ := window_word_offset s.cfg w k hk
  rw [← offset] at aligned stands
  have writable : (Target.windowWord w k).readOnly = false := by cases w <;> first | rfl | exact absurd rfl hw
  rw [step_wr he (wr_admitted aligned hs hr (by rw [stands]; simp) (by rwa [stands])) (by rw [stands]; simp), stands]
  cases w <;> first | rfl | exact absurd rfl hw

/-- Settles O26: the write is `writeWindowWord`, and that is read byte by byte. -/
theorem windowWordWritesAreLittleEndian : Obligations.WindowWordWritesAreLittleEndian := by
  intro s es w k v hr hs hw hk he
  refine ⟨_, step_wr_window hr hs hw hk he, fun i hi inside => ?_, fun x outside => ?_, rfl, rfl⟩
  · unfold Device.windowByte
    rw [Device.read_writeWindowWord, if_pos (by omega), ← Nat.add_assoc, Nat.add_sub_cancel_left]
    rfl
  · rw [Device.read_writeWindowWord, if_neg (by omega)]

/-- Every window but KEY_RAW is read through the port's bytes. -/
theorem State.readWindowWord_eq {w : Window} (hw : w ≠ .keyRaw) (s : State) (k : Nat) :
    s.readWindowWord w k = wordOfBytes (s.portByte w (4 * k)) (s.portByte w (4 * k + 1)) (s.portByte w (4 * k + 2))
      (s.portByte w (4 * k + 3)) := by
  cases w <;> first | rfl | exact absurd rfl hw

/-- The bytes of a window word as it is read. -/
theorem State.byteOfWord_readWindowWord {w : Window} (hw : w ≠ .keyRaw) (s : State) (k : Nat) {i : Nat} (hi : i < 4) :
    byteOfWord (s.readWindowWord w k) i = s.portByte w (4 * k + i) := by
  rw [State.readWindowWord_eq hw]
  obtain rfl | rfl | rfl | rfl : i = 0 ∨ i = 1 ∨ i = 2 ∨ i = 3 := by omega
  · exact byteOfWord_wordOfBytes_zero _ _ _ _
  · exact byteOfWord_wordOfBytes_one _ _ _ _
  · exact byteOfWord_wordOfBytes_two _ _ _ _
  · exact byteOfWord_wordOfBytes_three _ _ _ _

/-- Settles O27: the value is `readWindowWord`, and that is the window's bytes as the port sees them. -/
theorem windowWordReadsAreLittleEndian : Obligations.WindowWordReadsAreLittleEndian := by
  intro s es w k hr hs hw hk he
  obtain ⟨offset, aligned, stands⟩ := window_word_offset s.cfg w k hk
  rw [← offset] at aligned stands
  refine ⟨s.readWindowWord w k, ?_, fun i hi => State.byteOfWord_readWindowWord hw s k hi⟩
  rw [step_rd he (rd_admitted aligned hs hr (by rw [stands]; simp)), stands]
  rfl

/-! ### The key cannot be read back -/

/-- The state with other bytes in its windows. -/
def State.withMem (s : State) (m : Mem) : State := { s with dev := { s.dev with mem := m } }

/-- No element that is read looks at a byte of KEY_RAW. -/
theorem State.readTarget_withMem {s : State} {m : Mem} (same : ∀ x, x < 0x040 ∨ 0x080 ≤ x → m.read x = s.dev.mem.read x)
    (p : Target) : (s.withMem m).readTarget p = s.readTarget p := by
  have bytes : ∀ w : Window, w ≠ .keyRaw → (s.withMem m).portByte w = s.portByte w := by
    intro w hw
    funext j
    have above : 0x080 ≤ w.base + j := by
      cases w <;> first | exact absurd rfl hw | (simp only [Window.base]; omega)
    have byte : (s.withMem m).dev.windowByte w j = s.dev.windowByte w j := same _ (.inr above)
    unfold State.portByte
    rw [byte]
    rfl
  cases p with
  | reg r => cases r <;> rfl
  | reserved => rfl
  | windowWord w k =>
    show (s.withMem m).readWindowWord w k = s.readWindowWord w k
    by_cases hw : w = .keyRaw
    · rw [hw]
      rfl
    · rw [State.readWindowWord_eq hw, State.readWindowWord_eq hw, bytes w hw]

/-- What the register block answers to an access. -/
def State.answer (s : State) (a : Access) : Response :=
  if s.refusesAccess a then .busError
  else if isWrite a then .completed
  else .data (s.readTarget (accessTarget s.cfg a))

theorem writeTarget_completed {s : State} (hs : s.dev.seq ≠ .busy) (p : Target) (v : Word) :
    ∃ t, writeTarget s p v = .next t ∧ t.responses = .completed :: s.responses := by
  unfold writeTarget
  split
  · rcases commandWrite_cases s v with ⟨busy, -⟩ | ⟨-, -, h⟩ | ⟨-, -, h⟩ | ⟨-, -, h⟩
    · exact absurd busy hs
    all_goals exact ⟨_, h, rfl⟩
  · exact ⟨_, rfl, rfl⟩

theorem hostAccess_answer (s : State) (a : Access) :
    ∃ t, hostAccess s a = .next t ∧ t.responses = s.answer a :: s.responses := by
  unfold State.answer
  cases h : s.refusesAccess a with
  | true => exact ⟨_, hostAccess_refused h, rfl⟩
  | false =>
    cases hk : a.kind with
    | read => exact ⟨_, hostAccess_read h hk, by simp [isWrite_eq_false.mpr hk]⟩
    | write v =>
      have write : isWrite a = true := isWrite_eq_true.mpr (by simp [hk])
      obtain ⟨t, written, responses⟩ := writeTarget_completed (admitted_write_not_busy h hk) (accessTarget s.cfg a) v
      exact ⟨t, (hostAccess_write h hk).trans written, by simp [responses, write]⟩

/-- Settles O30: admission looks at no byte of a window, and what is read is no byte of the key. -/
theorem keyBytesAreNeverReadBack : Obligations.KeyBytesAreNeverReadBack := by
  intro s m a es same he
  obtain ⟨t, accessed, answered⟩ := hostAccess_answer s.popEvent a
  obtain ⟨t', accessed', answered'⟩ := hostAccess_answer (s.withMem m).popEvent a
  refine ⟨t, t', (step_host he).trans accessed, (step_host (s := s.withMem m) he).trans accessed', ?_⟩
  have value : (s.withMem m).popEvent.readTarget = s.popEvent.readTarget :=
    funext (State.readTarget_withMem (s := s.popEvent) same)
  have admission : (s.withMem m).popEvent.refusesAccess a = s.popEvent.refusesAccess a := rfl
  rw [answered, answered']
  unfold State.answer
  rw [value, admission]
  rfl

end Sys2Proof.Machine

/-! PROOFS. Containers (41_counter_engine.md section 4): the file of a container parses back, whole or in windows, the header is
validated first, and ENCRYPT and DECRYPT are refused just where their requirements fail. -/

namespace Sys2Proof.Machine

/-! ### Lists of blocks of one length -/

theorem length_flatten_of_length_eq {bs : Nat} {blocks : List (List Byte)} (h : ∀ b ∈ blocks, b.length = bs) :
    blocks.flatten.length = blocks.length * bs := by
  rw [List.length_flatten, List.map_congr_left h, List.map_const', List.sum_replicate, smul_eq_mul]

theorem drop_flatten_of_length_eq {bs : Nat} {blocks : List (List Byte)} (h : ∀ b ∈ blocks, b.length = bs) (k : Nat) :
    blocks.flatten.drop (k * bs) = (blocks.drop k).flatten := by
  induction k generalizing blocks with
  | zero => simp
  | succ k ih =>
    cases blocks with
    | nil => simp
    | cons b blocks =>
      obtain rfl : b.length = bs := h b List.mem_cons_self
      rw [List.flatten_cons, Nat.succ_mul, Nat.add_comm, List.drop_append, List.drop_eq_nil_of_le (by omega),
        List.nil_append, Nat.add_sub_cancel_left, ih fun b' hb => h b' (List.mem_cons_of_mem _ hb), List.drop_succ_cons]

/-- Block `k` of blocks joined. -/
theorem take_drop_flatten {bs : Nat} {blocks : List (List Byte)} (h : ∀ b ∈ blocks, b.length = bs) {k : Nat}
    (hk : k < blocks.length) : (blocks.flatten.drop (k * bs)).take bs = blocks[k] := by
  rw [drop_flatten_of_length_eq h, List.drop_eq_getElem_cons hk, List.flatten_cons,
    List.take_left' (h _ (List.getElem_mem hk))]

/-! ### The header of a serialized container -/

/-- A word that lies in a file is the field at its offset. -/
theorem fileWord_append (above rest : List Byte) (v : Word) :
    fileWord (above ++ bytesOfWord v ++ rest) above.length = v := by
  have byte : ∀ i < 4, (above ++ bytesOfWord v ++ rest).getD (above.length + i) 0 = (bytesOfWord v).getD i 0 := by
    intro i hi
    rw [List.getD_append _ _ _ _ (by simp; omega), List.getD_append_right _ _ _ _ (by omega), Nat.add_sub_cancel_left]
  have first := byte 0 (by decide)
  rw [Nat.add_zero] at first
  unfold fileWord
  rw [first, byte 1 (by decide), byte 2 (by decide), byte 3 (by decide)]
  exact wordOfBytes_byteOfWord v

/-- A field that holds a small number is read as that number. -/
theorem asI32_ofNat {n : Nat} (h : n < 2 ^ 31) : asI32 (BitVec.ofNat 32 n) = n := by
  have value : (BitVec.ofNat 32 n).toNat = n := by
    rw [BitVec.toNat_ofNat]
    exact Nat.mod_eq_of_lt (by omega)
  unfold asI32
  rw [BitVec.toInt_eq_toNat_of_lt (by omega), value]

/-- The container passes the checks of R172 and its blocks are whole. -/
structure Container.WellFormed (cfg : Config) (c : Container) : Prop where
  nonce : c.nonce.length = 120
  one_le : 1 ≤ c.blockSize
  le_max : c.blockSize ≤ cfg.blockSizeMax
  blocks : ∀ b ∈ c.blocks, b.length = c.blockSize

/-- The fields that the file of a container has in its header. -/
def Container.header (c : Container) : Header :=
  { blockSize := c.blockSize, nonceSize := 120, rounds := c.rounds, totalBlocks := c.blocks.length }

section
variable {cfg : Config} {c : Container}

theorem Container.fileWord_blockSize (c : Container) : fileWord c.serialize 0 = BitVec.ofNat 32 c.blockSize := by
  have field := fileWord_append [] (bytesOfWord (BitVec.ofNat 32 c.nonce.length) ++ bytesOfWord c.rounds ++ c.nonce ++
    c.blocks.flatten) (BitVec.ofNat 32 c.blockSize)
  simpa only [Container.serialize, List.nil_append, List.length_nil, List.append_assoc] using field

theorem Container.fileWord_nonceSize (c : Container) : fileWord c.serialize 4 = BitVec.ofNat 32 c.nonce.length := by
  have field := fileWord_append (bytesOfWord (BitVec.ofNat 32 c.blockSize)) (bytesOfWord c.rounds ++ c.nonce ++
    c.blocks.flatten) (BitVec.ofNat 32 c.nonce.length)
  simpa only [Container.serialize, length_bytesOfWord, List.append_assoc] using field

theorem Container.fileWord_rounds (c : Container) : fileWord c.serialize 8 = c.rounds := by
  have field := fileWord_append (bytesOfWord (BitVec.ofNat 32 c.blockSize) ++
    bytesOfWord (BitVec.ofNat 32 c.nonce.length)) (c.nonce ++ c.blocks.flatten) c.rounds
  simpa only [Container.serialize, List.length_append, length_bytesOfWord, List.append_assoc] using field

theorem Container.drop_header (c : Container) (k : Nat) :
    c.serialize.drop (12 + k) = (c.nonce ++ c.blocks.flatten).drop k := by
  rw [← List.drop_drop]
  unfold Container.serialize
  rw [List.append_assoc, List.drop_left' (by simp)]

theorem Container.WellFormed.length_serialize (h : c.WellFormed cfg) :
    c.serialize.length = 132 + c.blocks.length * c.blockSize := by
  simp only [Container.serialize, List.length_append, length_bytesOfWord, h.nonce, length_flatten_of_length_eq h.blocks]

/-- The checks of the header pass, in their order. -/
theorem Container.WellFormed.parseHeader_serialize (h : c.WellFormed cfg) :
    parseHeader cfg c.serialize = .ok c.header := by
  have inRange := cfg.le_3072
  have one_le := h.one_le
  have le_max := h.le_max
  have size : asI32 (fileWord c.serialize 0) = (c.blockSize : Int) := by
    rw [c.fileWord_blockSize, asI32_ofNat (by omega)]
  have nonceSize : asI32 (fileWord c.serialize 4) = (120 : Nat) := by
    rw [c.fileWord_nonceSize, h.nonce, asI32_ofNat (by omega)]
  have payload : c.serialize.length - 12 - 120 = c.blocks.length * c.blockSize := by
    rw [h.length_serialize]
    omega
  have whole : 132 ≤ c.serialize.length := by
    rw [h.length_serialize]
    omega
  unfold parseHeader
  simp only [size, nonceSize, c.fileWord_rounds, Int.toNat_natCast, payload]
  rw [if_neg (by omega), if_neg (by simp), if_neg (by omega), if_neg (by simp), Nat.mul_div_cancel _ (by omega)]
  rfl

/-- Blocks `k .. k + n` of the file of a container. -/
theorem Container.WellFormed.blocksFrom_serialize (h : c.WellFormed cfg) {k n : Nat} (hn : k + n ≤ c.blocks.length) :
    c.header.blocksFrom c.serialize k n = { c with blocks := (c.blocks.drop k).take n } := by
  have nonce : (c.serialize.drop 12).take 120 = c.nonce := by
    rw [c.drop_header 0, List.drop_zero, List.take_left' h.nonce]
  have blocks : ((List.range n).map fun j => (c.serialize.drop (c.header.blockOffset (k + j))).take c.blockSize) =
      (c.blocks.drop k).take n := by
    apply List.ext_getElem
    · simp only [List.length_map, List.length_range, List.length_take, List.length_drop]
      omega
    · intro j hj _
      simp only [List.length_map, List.length_range] at hj
      simp only [List.getElem_map, List.getElem_range, List.getElem_take, List.getElem_drop]
      rw [← take_drop_flatten h.blocks (by omega)]
      congr 1
      show c.serialize.drop (12 + 120 + (k + j) * c.blockSize) = _
      rw [Nat.add_assoc, c.drop_header, ← List.drop_drop, List.drop_left' h.nonce]
  unfold Header.blocksFrom
  exact congrArg₂ (fun N B => Container.mk c.blockSize c.rounds N B) nonce blocks

end

/-- Settles O46: the header parses, and the blocks of the file are all of the container's. -/
theorem serializedContainerParsesBack : Obligations.SerializedContainerParsesBack := by
  intro cfg c nonce one_le le_max blocks
  have h : c.WellFormed cfg := ⟨nonce, one_le, le_max, blocks⟩
  unfold parseContainer
  rw [h.parseHeader_serialize]
  show Except.ok (c.header.blocksFrom c.serialize 0 c.blocks.length) = .ok c
  rw [h.blocksFrom_serialize (by omega), List.drop_zero, List.take_length]

/-- Settles O47: the windows are blocks 0 to n and N - n to N. -/
theorem windowsOfASerializedContainer : Obligations.WindowsOfASerializedContainer := by
  intro cfg c n nonce one_le le_max blocks
  have h : c.WellFormed cfg := ⟨nonce, one_le, le_max, blocks⟩
  unfold headWindow tailWindow
  simp only [h.parseHeader_serialize]
  refine ⟨fun inRange => ?_, fun outside => ⟨if_pos outside, if_pos outside⟩⟩
  have enough : ¬ c.header.totalBlocks < n := by simpa [Container.header] using inRange
  have total : c.header.totalBlocks = c.blocks.length := rfl
  rw [if_neg enough, if_neg enough, total, h.blocksFrom_serialize (by omega), h.blocksFrom_serialize (by omega),
    List.drop_zero, List.take_of_length_le (l := c.blocks.drop (c.blocks.length - n)) (by rw [List.length_drop]; omega)]
  exact ⟨rfl, rfl⟩

/-! ### Refusals -/

/-- A window of a file whose header is refused is refused for the same reason. -/
theorem windows_of_parseHeader_error {cfg : Config} {file : List Byte} {e : HostRefusal}
    (h : parseHeader cfg file = .error e) (n : Nat) :
    headWindow cfg file n = .error e ∧ tailWindow cfg file n = .error e := by
  unfold headWindow tailWindow
  rw [h]
  exact ⟨rfl, rfl⟩

/-- Settles O48: each clause is one branch of `parseHeader`, the branches before it excluded. -/
theorem windowReadsAreValidatedFirst : Obligations.WindowReadsAreValidatedFirst := by
  rintro cfg file n bs ns header rfl rfl
  refine ⟨fun short => ?_, fun long other => ?_, fun long nonce range => ?_, fun long nonce one_le le_max remainder => ?_⟩
  all_goals
    refine windows_of_parseHeader_error ?_ n
    unfold parseHeader asI32
    simp only
  · rw [if_pos (.inr short)]
  · rw [if_neg (by omega), if_pos other]
  · rw [if_neg (by omega), if_neg (by omega), if_pos range]
  · rw [if_neg (by omega), if_neg (by omega), if_neg (by omega), if_pos]
    intro whole
    apply remainder
    have payload : (file.length : Int) - 132 = ((file.length - 12 - 120 : Nat) : Int) := by omega
    rw [nonce] at whole
    rw [payload, ← Int.toNat_of_nonneg (show 0 ≤ (fileWord file 0).toInt by omega), ← Int.natCast_mod]
    exact congrArg Nat.cast whole

theorem State.processBlock_not_refused (s : State) (polls bs : Nat) (why : HostRefusal) :
    s.processBlock polls bs ≠ .refused why := by
  unfold State.processBlock
  simp only
  split <;> simp

/-- Once the chunks are begun, no refusal comes. -/
theorem encryptChunks_not_refused (polls : Schedule) (bs : Nat) (chunks : List (List Byte)) (i : Nat) (s : State)
    (why : HostRefusal) : encryptChunks polls bs i chunks s ≠ .refused why := by
  induction chunks generalizing i s why with
  | nil => simp [encryptChunks]
  | cons c cs ih =>
    unfold encryptChunks
    split
    · next h => exact absurd h (State.processBlock_not_refused _ _ _ _)
    · simp
    · split
      · next h => exact absurd h (ih _ _ _)
      · simp
      · simp

/-- Once the blocks are begun, no refusal comes. -/
theorem decryptBlocks_not_refused (polls : Schedule) (bs : Nat) (blocks : List (List Byte)) (i : Nat) (s : State)
    (why : HostRefusal) : decryptBlocks polls bs i blocks s ≠ .refused why := by
  induction blocks generalizing i s why with
  | nil => simp [decryptBlocks]
  | cons b rest ih =>
    unfold decryptBlocks
    split
    · next h => exact absurd h (State.processBlock_not_refused _ _ _ _)
    · simp
    · split
      · next h => exact absurd h (ih _ _ _)
      · simp
      · simp

/-- Settles O49: the requirements are the branches before the first command, and after them no refusal comes. -/
theorem hostProceduresRefuseExactlyTheirRequirements : Obligations.HostProceduresRefuseExactlyTheirRequirements := by
  refine ⟨fun polls s msg key bs r => ?_, fun polls s c key startBlock => ?_⟩
  · unfold hostEncrypt
    split_ifs with emptyKey size
    · simp [emptyKey]
    · refine iff_of_true ⟨_, rfl⟩ ?_
      omega
    · refine iff_of_false ?_ (by simp only [emptyKey, false_or]; omega)
      rintro ⟨why, h⟩
      simp only at h
      split at h
      · next h' => exact absurd h' (encryptChunks_not_refused _ _ _ _ _ _)
      · cases h
      · cases h
  · unfold hostDecrypt
    split_ifs with emptyKey negative nonce size range
    · simp [emptyKey]
    · exact iff_of_true ⟨_, rfl⟩ (.inr (.inl negative))
    · exact iff_of_true ⟨_, rfl⟩ (.inr (.inr (.inl nonce)))
    · refine iff_of_true ⟨_, rfl⟩ ?_
      omega
    · refine iff_of_true ⟨_, rfl⟩ ?_
      omega
    · refine iff_of_false ?_ (by simp only [emptyKey, false_or]; omega)
      rintro ⟨why, h⟩
      exact decryptBlocks_not_refused _ _ _ _ _ _ h

end Sys2Proof.Machine

/-! PROOFS. The host's procedures (41_counter_engine.md R167, R168): what one block, a run of blocks, ENCRYPT and DECRYPT give as
pure functions of the operands; from these the round trip and the consistency of windows. -/

namespace Sys2Proof.Machine

/-! ### Counter mode as a pure function -/

/-- The operands of a run of CTR_XOR commands but for the counter and the chunks. -/
structure StreamOperands where
  key : Bytes 64
  nonce : Bytes 120
  rounds : Word
  blockSize : Nat

/-- The keystream block of a counter (41_counter_engine.md R151). -/
def StreamOperands.stream (p : StreamOperands) (o : OutputOrder) (counter : Nat) : Bytes 128 :=
  keystreamBlock Config.h256 o p.nonce (BitVec.ofNat 64 counter) p.key (asI32 p.rounds)

/-- The chunk padded with zeros to the block size (41_counter_engine.md R153). -/
def padBlock (bs : Nat) (chunk : List Byte) : List Byte := (List.range bs).map fun j => chunk.getD j 0

/-- The output block of a chunk (41_counter_engine.md R154). -/
def StreamOperands.cipher (p : StreamOperands) (o : OutputOrder) (counter : Nat) (chunk : List Byte) : List Byte :=
  (List.range p.blockSize).map fun j => chunk.getD j 0 ^^^ (p.stream o counter).byte (j % 128)

/-- The output blocks of chunks under consecutive counters (41_counter_engine.md R164). -/
def StreamOperands.ciphers (p : StreamOperands) (o : OutputOrder) : Nat → List (List Byte) → List (List Byte)
  | _, [] => []
  | counter, chunk :: chunks => p.cipher o counter chunk :: p.ciphers o (counter + 1) chunks

section
variable (p : StreamOperands) (o : OutputOrder)

theorem StreamOperands.length_cipher (counter : Nat) (chunk : List Byte) :
    (p.cipher o counter chunk).length = p.blockSize := by
  simp [StreamOperands.cipher]

theorem getD_map_range (f : Nat → Byte) {n j : Nat} (hj : j < n) : ((List.range n).map f).getD j 0 = f j := by
  simp [List.getD, hj]

/-- R155: the same keystream twice leaves the padded chunk. -/
theorem StreamOperands.cipher_cipher (counter : Nat) (chunk : List Byte) :
    p.cipher o counter (p.cipher o counter chunk) = padBlock p.blockSize chunk := by
  unfold StreamOperands.cipher padBlock
  apply List.map_congr_left
  intro j hj
  rw [getD_map_range _ (List.mem_range.mp hj), BitVec.xor_assoc, BitVec.xor_self, BitVec.xor_zero]

theorem StreamOperands.ciphers_ciphers (counter : Nat) (chunks : List (List Byte)) :
    p.ciphers o counter (p.ciphers o counter chunks) = chunks.map (padBlock p.blockSize) := by
  induction chunks generalizing counter with
  | nil => rfl
  | cons chunk chunks ih =>
    simp only [StreamOperands.ciphers, List.map_cons, StreamOperands.cipher_cipher, ih]

theorem StreamOperands.length_ciphers (counter : Nat) (chunks : List (List Byte)) :
    (p.ciphers o counter chunks).length = chunks.length := by
  induction chunks generalizing counter with
  | nil => rfl
  | cons chunk chunks ih => simp only [StreamOperands.ciphers, List.length_cons, ih]

theorem StreamOperands.length_of_mem_ciphers {counter : Nat} {chunks : List (List Byte)} :
    ∀ b ∈ p.ciphers o counter chunks, b.length = p.blockSize := by
  induction chunks generalizing counter with
  | nil => simp [StreamOperands.ciphers]
  | cons chunk chunks ih =>
    rw [StreamOperands.ciphers, List.forall_mem_cons]
    exact ⟨p.length_cipher o counter chunk, ih⟩

/-- Blocks from `k` on are those under the counters from `k` on (41_counter_engine.md R165). -/
theorem StreamOperands.ciphers_drop (counter k : Nat) (chunks : List (List Byte)) :
    p.ciphers o (counter + k) (chunks.drop k) = (p.ciphers o counter chunks).drop k := by
  induction k generalizing counter chunks with
  | zero => rfl
  | succ k ih =>
    cases chunks with
    | nil => rfl
    | cons chunk chunks =>
      rw [List.drop_succ_cons, StreamOperands.ciphers, List.drop_succ_cons, ← ih, Nat.add_assoc, Nat.add_comm 1]

end

/-! ### The chunks of a message -/

theorem length_of_mem_chunksOf {bs : Nat} (hb : 1 ≤ bs) {msg : List Byte} :
    ∀ c ∈ chunksOf bs msg, 1 ≤ c.length ∧ c.length ≤ bs := by
  intro c hc
  obtain ⟨i, hi, rfl⟩ := List.mem_map.mp hc
  have below : (i + 1) * bs ≤ msg.length + (bs - 1) :=
    (Nat.mul_le_mul_right bs (List.mem_range.mp hi)).trans (Nat.div_mul_le_self ..)
  rw [Nat.succ_mul] at below
  rw [List.length_take, List.length_drop]
  omega

/-- Pieces of one length, joined again. -/
theorem flatten_map_take_drop (bs n : Nat) (l : List Byte) :
    ((List.range n).map fun i => (l.drop (i * bs)).take bs).flatten = l.take (n * bs) := by
  induction n with
  | zero => simp
  | succ n ih =>
    rw [List.range_succ, List.map_append, List.flatten_append, ih, Nat.succ_mul, List.take_add]
    simp

theorem getD_append_zeros (l : List Byte) (z x : Nat) : (l ++ List.replicate z 0).getD x 0 = l.getD x 0 := by
  by_cases h : x < l.length
  · exact List.getD_append _ _ _ _ h
  · rw [List.getD_append_right _ _ _ _ (by omega), List.getD_eq_default l _ (by omega)]
    simp [List.getD, List.getElem?_replicate]
    split <;> rfl

/-- A chunk padded with zeros is the piece of the message padded with zeros. -/
theorem padBlock_chunk {bs a z : Nat} {msg : List Byte} (whole : a + bs ≤ msg.length + z) :
    padBlock bs ((msg.drop a).take bs) = ((msg ++ List.replicate z 0).drop a).take bs := by
  apply List.ext_getElem
  · simp [padBlock]
    omega
  · intro j hj hj'
    have inBlock : j < bs := by simpa [padBlock] using hj
    have left : (padBlock bs ((msg.drop a).take bs))[j] = msg.getD (a + j) 0 := by
      simp [padBlock, List.getD, inBlock]
    rw [left, ← getD_append_zeros msg z, List.getD_eq_getElem _ _ (by simp; omega)]
    simp

/-- The padded chunks of a message are the message and the zeros to a whole number of blocks. -/
theorem flatten_padded_chunks {bs : Nat} (hb : 1 ≤ bs) (msg : List Byte) :
    ((chunksOf bs msg).map (padBlock bs)).flatten =
      msg ++ List.replicate ((bs - msg.length % bs) % bs) 0 := by
  obtain ⟨n, hn⟩ : ∃ n, (msg.length + (bs - 1)) / bs = n := ⟨_, rfl⟩
  obtain ⟨z, hz⟩ : ∃ z, (bs - msg.length % bs) % bs = z := ⟨_, rfl⟩
  have whole : msg.length + z = n * bs := by
    have split := Nat.div_add_mod msg.length bs
    have below := Nat.mod_lt msg.length hb
    obtain ⟨q, hq⟩ : ∃ q, msg.length / bs = q := ⟨_, rfl⟩
    rw [hq, Nat.mul_comm] at split
    by_cases exact : msg.length % bs = 0
    · have blocks : n = q := by
        rw [← hn, ← split, exact]
        exact Nat.div_eq_of_lt_le (by omega) (by rw [Nat.succ_mul]; omega)
      have none : z = 0 := by rw [← hz, exact, Nat.sub_zero, Nat.mod_self]
      rw [blocks, none]
      omega
    · have blocks : n = q + 1 := by
        rw [← hn]
        exact Nat.div_eq_of_lt_le (by rw [Nat.succ_mul]; omega) (by rw [Nat.succ_mul, Nat.succ_mul]; omega)
      have some : z = bs - msg.length % bs := by rw [← hz, Nat.mod_eq_of_lt (by omega)]
      rw [blocks, some, Nat.succ_mul]
      omega
  unfold chunksOf
  rw [hn, hz, List.map_map]
  calc ((List.range n).map (padBlock bs ∘ fun i => (msg.drop (i * bs)).take bs)).flatten
      = ((List.range n).map fun i => ((msg ++ List.replicate z 0).drop (i * bs)).take bs).flatten := by
        congr 1
        apply List.map_congr_left
        intro i hi
        have inMessage : (i + 1) * bs ≤ n * bs := Nat.mul_le_mul_right bs (List.mem_range.mp hi)
        rw [Nat.succ_mul] at inMessage
        exact padBlock_chunk (by omega)
    _ = (msg ++ List.replicate z 0).take (n * bs) := flatten_map_take_drop ..
    _ = msg ++ List.replicate z 0 := List.take_of_length_le (by simp; omega)

/-! ### What the device holds while a procedure runs -/

/-- The FKE is idle, out of reset, and of this configuration. -/
structure State.IdleOf (s : State) (cfg : Config) : Prop where
  idle : s.dev.seq = .idle
  low : s.rst = false
  cfg_eq : s.cfg = cfg

theorem State.IdleOf.not_busy {s : State} {cfg : Config} (h : s.IdleOf cfg) : s.dev.seq ≠ .busy := by
  rw [h.idle]
  decide

/-- The registers and windows hold these operands, and COUNTER this number. -/
structure Device.Holds (d : Device) (p : StreamOperands) (counter : Nat) : Prop where
  keyed : d.keyLen ≠ 0
  key : d.expandedKey = p.key
  nonce : d.window .nonce 120 = p.nonce
  rounds : d.rounds = p.rounds
  blockSize : d.blockSize.toNat = p.blockSize
  counter_eq : d.counter.toNat = counter

/-- The operands are kept where their registers and the bytes of KEY_RAW and NONCE are. -/
theorem Device.Holds.congr {d d' : Device} {p : StreamOperands} {c c' : Nat} (h : d.Holds p c)
    (keyLen : d'.keyLen = d.keyLen) (rounds : d'.rounds = d.rounds) (blockSize : d'.blockSize = d.blockSize)
    (counter : d'.counter.toNat = c') (bytes : ∀ x < 0x100, d'.mem.read x = d.mem.read x) : d'.Holds p c' where
  keyed := by rw [keyLen]; exact h.keyed
  key := by
    rw [← h.key]
    exact Device.expandedKey_congr h.keyed keyLen fun j hj => bytes _ (by simp only [Window.base]; omega)
  nonce := by
    rw [← h.nonce]
    exact Device.window_congr fun j hj => bytes _ (by simp only [Window.base]; omega)
  rounds := rounds.trans h.rounds
  blockSize := (congrArg BitVec.toNat blockSize).trans h.blockSize
  counter_eq := counter

theorem State.currentKeystream_of_holds {s : State} {p : StreamOperands} {c : Nat} (h : s.dev.Holds p c) :
    s.currentKeystream s.dev.expandedKey = p.stream s.cfg.outputOrder c := by
  have counter : BitVec.ofNat 64 c = s.dev.counter := by
    rw [← h.counter_eq]
    simp
  unfold State.currentKeystream StreamOperands.stream Device.roundCount
  rw [h.nonce, h.key, h.rounds, counter]

/-! ### One block -/

theorem BitVec.ne_zero_of_toNat_pos {n : Nat} {w : BitVec n} (h : 1 ≤ w.toNat) : w ≠ 0 := by
  rintro rfl
  simp at h

/-- `cmd; wait` of an ENGINE command in IDLE: the command is performed on the accepted state, and STATUS is read. -/
theorem State.wait_cmd {s : State} {i : Instr} (hi : i ≠ .softReset) (idle : s.dev.seq = .idle) (low : s.rst = false)
    (polls : Nat) : ∃ (rs : List Response) (t : State),
      exec i { s with dev := s.dev.setAccepted (encode i), responses := rs } = .next t ∧
      State.wait polls (s.cmd i) = { t with responses := .data t.dev.statusWord :: t.responses } := by
  rw [State.cmd_idle hi idle low]
  obtain ⟨rs, t, performed, waited⟩ := State.wait_busy hi polls
    { s.accept (encode i) with responses := .completed :: s.responses } rfl low rfl
  refine ⟨rs, t, performed, ?_⟩
  obtain ⟨t', performed', ⟨rst, -⟩, -⟩ :=
    exec_engineEffect (s := { s with dev := s.dev.setAccepted (encode i), responses := rs }) hi rfl
  obtain rfl : t' = t := Host.Outcome.next.inj (performed'.symm.trans performed)
  rw [waited, State.rd_status (rst.trans low)]

/-- `cmd CTR_XOR; wait`, where its checks pass: the device is the command's, and STATUS shows no fault. -/
theorem State.wait_cmd_ctrXor {s : State} (idle : s.dev.seq = .idle) (low : s.rst = false) (ready : s.CtrXorReady)
    (polls : Nat) : ∃ t, State.wait polls (s.cmd .ctrXor) = t ∧ t.lastRead.getLsbD 2 = false ∧
      t.dev = { s.afterCtrXor.dev with pending := encode .ctrXor } ∧ t.rst = false ∧ t.cfg = s.cfg := by
  obtain ⟨rs, t, performed, waited⟩ := State.wait_cmd (i := .ctrXor) (by decide) idle low polls
  have accepted : State.CtrXorReady { s with dev := s.dev.setAccepted (encode .ctrXor), responses := rs } :=
    ⟨ready.keyed, ready.blockSize_ne, ready.blockSize_le, ready.chunkLen_ne, ready.chunkLen_le, ready.counter_lt⟩
  obtain rfl := Host.Outcome.next.inj (performed.symm.trans accepted.exec)
  exact ⟨_, waited, Device.statusWord_fault _, rfl, low, rfl⟩

/-- A block processed: the output is R154's, and COUNTER has advanced. -/
theorem State.processBlock_eq {s : State} {cfg : Config} {p : StreamOperands} {c : Nat} {chunk : List Byte}
    (hs : s.IdleOf cfg) (h : s.dev.Holds p c) (le_max : p.blockSize ≤ cfg.blockSizeMax) (counter : c < 2 ^ 64 - 1)
    (nonempty : 1 ≤ chunk.length) (fits : chunk.length ≤ p.blockSize) (chunkLen : s.dev.chunkLen.toNat = chunk.length)
    (data : ∀ j < chunk.length, s.dev.windowByte .data j = chunk.getD j 0) (polls : Nat) :
    ∃ t, s.processBlock polls p.blockSize = .ok (p.cipher cfg.outputOrder c chunk) t ∧ t.IdleOf cfg ∧
      t.dev.Holds p (c + 1) ∧ t.dev.chunkLen = s.dev.chunkLen := by
  obtain ⟨idle, low, rfl⟩ := hs
  have size := h.blockSize
  have ready : s.CtrXorReady := ⟨h.keyed, BitVec.ne_zero_of_toNat_pos (by omega), by omega,
    BitVec.ne_zero_of_toNat_pos (by omega), by omega, by rw [h.counter_eq]; exact counter⟩
  obtain ⟨t, waited, noFault, dev, lowAfter, cfgAfter⟩ := State.wait_cmd_ctrXor idle low ready polls
  obtain ⟨rs, read⟩ := State.rdbytes_window (w := .data) (by decide) p.blockSize t (by rw [dev]; simp [State.afterCtrXor])
    lowAfter (by rw [cfgAfter]; exact le_max)
  have output : ((List.range p.blockSize).map fun j => t.dev.windowByte .data j) =
      p.cipher s.cfg.outputOrder c chunk := by
    apply List.map_congr_left
    intro j hj
    have inBlock : j < s.dev.blockSize.toNat := by
      rw [size]
      exact List.mem_range.mp hj
    have padded : (if j < s.dev.chunkLen.toNat then s.dev.windowByte .data j else 0) = chunk.getD j 0 := by
      rw [chunkLen]
      split
      · next inChunk => exact data j inChunk
      · next past => rw [List.getD_eq_default _ _ (by omega)]
    rw [dev, ← padded, ← State.currentKeystream_of_holds h]
    exact s.afterCtrXor_windowByte_data inBlock
  refine ⟨{ t with responses := rs }, ?_, ⟨by simp [dev, State.afterCtrXor], lowAfter, cfgAfter⟩, ?_, ?_⟩
  · unfold State.processBlock
    simp only [waited, noFault]
    rw [if_neg (by decide), show t.rdbytes 0x400 p.blockSize = _ from read, output]
  · refine h.congr (by rw [dev]; rfl) (by rw [dev]; rfl) (by rw [dev]; rfl) ?_ fun x hx => ?_
    · rw [dev, ← h.counter_eq]
      exact ready.counter
    · rw [dev]
      exact s.afterCtrXor_read_outside (by simp only [Window.base]; omega) (by simp only [Window.base]; omega)
  · rw [dev]
    rfl

/-! ### Runs of blocks -/

/-- `wr` of a writable register other than CMD, in IDLE or FAULT. -/
theorem State.wr_reg {s : State} {r : Reg} {v : Word} (hs : s.dev.seq ≠ .busy) (hr : s.rst = false)
    (ho : (Target.reg r).readOnly = false) (hc : r ≠ .cmd) :
    s.wr r.offset v = { s with
      dev := s.dev.writeOperand s.cfg v (.reg r)
      responses := .completed :: s.responses } := by
  have stands : target s.cfg r.offset = .reg r := (target_eq_reg ..).mpr (by omega)
  have placed : r.offset < 4096 ∧ r.offset % 4 = 0 := by cases r <;> decide
  rw [State.wr_admitted placed.1 placed.2 hs hr (by rw [stands]; simp) (by rwa [stands]) (by rw [stands]; simpa using hc),
    stands]

/-- `wrbytes` of a string that fits into a window, from its byte 0 on. -/
theorem State.wrbytes_window_start {s : State} {w : Window} {bs : List Byte} (hw : w ≠ .ks) (hs : s.dev.seq ≠ .busy)
    (hr : s.rst = false) (fits : bs.length ≤ w.size s.cfg) :
    ∃ (m : Mem) (rs : List Response),
      s.wrbytes w.base bs = { s with dev := { s.dev with mem := m }, responses := rs } ∧
      (∀ j < bs.length, m.read (w.base + j) = bs.getD j 0) ∧
      (∀ x, x < w.base ∨ w.base + w.size s.cfg ≤ x → m.read x = s.dev.mem.read x) :=
  State.wrbytes_window hw bs 0 s hs hr (by omega)

theorem chunk_length_toNat {n : Nat} {cfg : Config} (h : n ≤ cfg.blockSizeMax) : (BitVec.ofNat 32 n).toNat = n := by
  have := cfg.le_3072
  rw [BitVec.toNat_ofNat]
  exact Nat.mod_eq_of_lt (by omega)

/-- The loop of R167: from a state that holds the operands, it gives the output blocks of the chunks. -/
theorem encryptChunks_eq {cfg : Config} {p : StreamOperands} (le_max : p.blockSize ≤ cfg.blockSizeMax) (polls : Schedule)
    (chunks : List (List Byte)) (i c : Nat) (s : State) (hs : s.IdleOf cfg) (h : s.dev.Holds p c)
    (sizes : ∀ chunk ∈ chunks, 1 ≤ chunk.length ∧ chunk.length ≤ p.blockSize) (counters : c + chunks.length ≤ 2 ^ 64 - 1) :
    ∃ t, encryptChunks polls p.blockSize i chunks s = .ok (p.ciphers cfg.outputOrder c chunks) t := by
  induction chunks generalizing i c s with
  | nil => exact ⟨s, rfl⟩
  | cons chunk chunks ih =>
    obtain ⟨⟨nonempty, fits⟩, sizes⟩ := List.forall_mem_cons.mp sizes
    rw [List.length_cons] at counters
    obtain ⟨m, rs, stored, data, outside⟩ := State.wrbytes_window_start (w := .data) (bs := chunk) (by decide) hs.not_busy
      hs.low (by rw [hs.cfg_eq]; exact fits.trans le_max)
    have written : (s.wrbytes 0x400 chunk).wr 0x018 (BitVec.ofNat 32 chunk.length) = { s with
        dev := { s.dev with mem := m, chunkLen := BitVec.ofNat 32 chunk.length }
        responses := .completed :: rs } := by
      rw [show s.wrbytes 0x400 chunk = _ from stored]
      exact State.wr_reg (r := .chunkLen) hs.not_busy hs.low rfl (by decide)
    have holds : Device.Holds { s.dev with mem := m, chunkLen := BitVec.ofNat 32 chunk.length } p c :=
      h.congr rfl rfl rfl h.counter_eq fun x hx => outside x (.inl (by simp only [Window.base]; omega))
    obtain ⟨t, processed, idle, advanced, -⟩ := State.processBlock_eq (cfg := cfg) (s := { s with
        dev := { s.dev with mem := m, chunkLen := BitVec.ofNat 32 chunk.length }
        responses := .completed :: rs }) ⟨hs.idle, hs.low, hs.cfg_eq⟩ holds le_max (by omega) nonempty fits
      (chunk_length_toNat (fits.trans le_max)) data (polls i)
    obtain ⟨u, rest⟩ := ih (i + 1) (c + 1) t idle advanced sizes (by omega)
    refine ⟨u, ?_⟩
    unfold encryptChunks
    simp only [written, processed, rest]
    rfl

/-- The loop of R168, on whole blocks: it gives the output blocks joined. -/
theorem decryptBlocks_eq {cfg : Config} {p : StreamOperands} (one_le : 1 ≤ p.blockSize)
    (le_max : p.blockSize ≤ cfg.blockSizeMax) (polls : Schedule) (blocks : List (List Byte)) (i c : Nat) (s : State)
    (hs : s.IdleOf cfg) (h : s.dev.Holds p c) (chunkLen : s.dev.chunkLen.toNat = p.blockSize)
    (sizes : ∀ b ∈ blocks, b.length = p.blockSize) (counters : c + blocks.length ≤ 2 ^ 64 - 1) :
    ∃ t, decryptBlocks polls p.blockSize i blocks s = .ok (p.ciphers cfg.outputOrder c blocks).flatten t := by
  induction blocks generalizing i c s with
  | nil => exact ⟨s, rfl⟩
  | cons b blocks ih =>
    obtain ⟨size, sizes⟩ := List.forall_mem_cons.mp sizes
    rw [List.length_cons] at counters
    obtain ⟨m, rs, stored, data, outside⟩ := State.wrbytes_window_start (w := .data) (bs := b) (by decide) hs.not_busy
      hs.low (by rw [hs.cfg_eq, size]; exact le_max)
    have written : s.wrbytes 0x400 b = { s with dev := { s.dev with mem := m }, responses := rs } := stored
    have holds : Device.Holds { s.dev with mem := m } p c :=
      h.congr rfl rfl rfl h.counter_eq fun x hx => outside x (.inl (by simp only [Window.base]; omega))
    obtain ⟨t, processed, idle, advanced, kept⟩ := State.processBlock_eq (cfg := cfg)
      (s := { s with dev := { s.dev with mem := m }, responses := rs }) ⟨hs.idle, hs.low, hs.cfg_eq⟩ holds le_max
      (by omega) (by omega) size.le (by rw [size]; exact chunkLen) data (polls i)
    obtain ⟨u, rest⟩ := ih (i + 1) (c + 1) t idle advanced (by rw [kept]; exact chunkLen) sizes (by omega)
    refine ⟨u, ?_⟩
    unfold decryptBlocks
    simp only [written, processed, rest]
    rfl

/-! ### ENCRYPT and DECRYPT -/

/-- The key, ROUNDS and BLOCK_SIZE as R167 leaves them; everything else of the FKE is as before. -/
theorem State.loadParameters_eq {s : State} {cfg : Config} (hs : s.IdleOf cfg) {key : List Byte} (hk : key ≠ [])
    (polls bs : Nat) (r : Word) : ∃ (d : Device) (rs : List Response),
      s.loadParameters polls key bs r = { s with dev := d, responses := rs } ∧ d.seq = .idle ∧ d.keyLen ≠ 0 ∧
      d.expandedKey = expandKey key key.length ∧ d.rounds = r ∧ d.blockSize = BitVec.ofNat 32 bs := by
  have waited := (State.wait_not_busy polls hs.not_busy hs.low).trans (State.rd_status hs.low)
  have keySize : (key.take 64).length = min key.length 64 := by rw [List.length_take, Nat.min_comm]
  obtain ⟨m, rs, stored, bytes, -⟩ := State.wrbytes_window_start (w := .keyRaw) (bs := key.take 64)
    (s := { s with responses := .data s.dev.statusWord :: s.responses }) (by decide) hs.not_busy hs.low
    (by rw [keySize]; exact Nat.min_le_right _ _)
  have loaded : s.loadParameters polls key bs r = { s with
      dev := { s.dev with
        mem := m, keyLen := BitVec.ofNat 32 (min key.length 64), rounds := r, blockSize := BitVec.ofNat 32 bs }
      responses := .completed :: .completed :: .completed :: rs } := by
    unfold State.loadParameters
    rw [waited, show State.wrbytes _ 0x040 (key.take 64) = _ from stored]
    have first := State.wr_reg (s := { s with dev := { s.dev with mem := m }, responses := rs }) (r := .keyLen)
      (v := BitVec.ofNat 32 (min key.length 64)) hs.not_busy hs.low rfl (by decide)
    have second := State.wr_reg (r := .rounds) (v := r) (s := { s with
      dev := { s.dev with mem := m, keyLen := BitVec.ofNat 32 (min key.length 64) }
      responses := .completed :: rs }) hs.not_busy hs.low rfl (by decide)
    have third := State.wr_reg (r := .blockSize) (v := BitVec.ofNat 32 bs) (s := { s with
      dev := { s.dev with mem := m, keyLen := BitVec.ofNat 32 (min key.length 64), rounds := r }
      responses := .completed :: .completed :: rs }) hs.not_busy hs.low rfl (by decide)
    exact (congrArg (fun u => (State.wr u 0x010 r).wr 0x014 (BitVec.ofNat 32 bs)) first).trans
      ((congrArg (fun u => State.wr u 0x014 (BitVec.ofNat 32 bs)) second).trans third)
  have len : (BitVec.ofNat 32 (min key.length 64)).toNat = min key.length 64 := by
    rw [BitVec.toNat_ofNat]
    exact Nat.mod_eq_of_lt (by omega)
  have keyed : BitVec.ofNat 32 (min key.length 64) ≠ 0 := by
    apply BitVec.ne_zero_of_toNat_pos
    have := List.length_pos_iff.mpr hk
    omega
  refine ⟨_, _, loaded, hs.idle, keyed, ?_, rfl, rfl⟩
  refine Device.expandedKey_of_loaded keyed (fun j hj => ?_) (.inr len)
  rw [← keySize] at hj
  refine (bytes j hj).trans ?_
  rw [keySize] at hj
  simp [List.getD, List.getElem?_take_of_lt (show j < 64 by omega)]

/-- `cmd NONCE_GEN; wait`: some bytes are in NONCE, and COUNTER is 0. -/
theorem State.wait_cmd_nonceGen {s : State} (idle : s.dev.seq = .idle) (low : s.rst = false) (polls : Nat) :
    ∃ (t : State) (b : Bytes 120), State.wait polls (s.cmd .nonceGen) = t ∧
      t.dev = { s.dev.storeWindow .nonce b with
        seq := .idle, pending := encode .nonceGen, done := true, counter := 0 } ∧
      t.rst = false ∧ t.cfg = s.cfg := by
  obtain ⟨rs, t, performed, waited⟩ := State.wait_cmd (i := .nonceGen) (by decide) idle low polls
  obtain rfl := Host.Outcome.next.inj (performed.symm.trans (exec_nonceGen _))
  exact ⟨_, _, waited, rfl, (State.drawTaken_rst _).trans low, State.drawTaken_cfg _⟩

/-- R167, once its requirements hold: the container has some nonce and, under it, the output blocks of the message's chunks
from counter 0 on. -/
theorem hostEncrypt_eq {s : State} {cfg : Config} (hs : s.IdleOf cfg) {msg key : List Byte} (hk : key ≠ []) {bs : Nat}
    (one_le : 1 ≤ bs) (le_max : bs ≤ cfg.blockSizeMax) (counters : (chunksOf bs msg).length ≤ 2 ^ 64 - 1)
    (polls : Schedule) (r : Word) : ∃ (nonce : Bytes 120) (t : State), hostEncrypt polls s msg key bs r = .ok
      { blockSize := bs
        rounds := r
        nonce := nonce.toList
        blocks := StreamOperands.ciphers ⟨expandKey key key.length, nonce, r, bs⟩ cfg.outputOrder 0 (chunksOf bs msg) }
      t := by
  obtain ⟨d, rs, loaded, idle, keyed, expanded, rounds, size⟩ := State.loadParameters_eq hs hk (polls 0) bs r
  obtain ⟨t, b, drawn, dev, low, cfgAfter⟩ :=
    State.wait_cmd_nonceGen (s := { s with dev := d, responses := rs }) idle hs.low (polls 1)
  have idleAfter : t.dev.seq = .idle := by rw [dev]
  obtain ⟨rs', read⟩ := State.rdbytes_window (w := .nonce) (by decide) 120 t (by simp [idleAfter]) low le_rfl
  have holds : t.dev.Holds ⟨expandKey key key.length, t.dev.window .nonce 120, r, bs⟩ 0 := by
    refine ⟨by rw [dev]; exact keyed, ?_, rfl, by rw [dev]; exact rounds, ?_, by rw [dev]; rfl⟩
    · refine (Device.expandedKey_congr keyed (by rw [dev]; rfl) fun j hj => ?_).trans expanded
      rw [dev]
      exact Device.read_storeWindow_outside _ _ _ (by simp only [Window.base]; omega)
    · rw [dev]
      exact (congrArg BitVec.toNat size).trans (chunk_length_toNat le_max)
  obtain ⟨u, encrypted⟩ := encryptChunks_eq le_max polls (chunksOf bs msg) 2 0 { t with responses := rs' }
    ⟨idleAfter, low, cfgAfter.trans hs.cfg_eq⟩ holds (length_of_mem_chunksOf one_le) (by omega)
  refine ⟨t.dev.window .nonce 120, u, ?_⟩
  unfold hostEncrypt
  rw [if_neg hk, if_neg (by rw [hs.cfg_eq]; omega)]
  simp only [loaded, drawn]
  rw [show t.rdbytes 0x080 120 = _ from read]
  simp only [encrypted]
  rfl

/-- `setctr` of a counter below 2^64 (30_encoding.md R96). -/
theorem State.setctr_eq {s : State} (hs : s.dev.seq ≠ .busy) (hr : s.rst = false) {c : Nat} (hc : c < 2 ^ 64) :
    ∃ (w : Word64) (rs : List Response), w.toNat = c ∧
      s.setctr c = { s with dev := { s.dev with counter := w }, responses := rs } := by
  have low := State.wr_reg (r := .counterLo) (v := BitVec.ofNat 32 c) hs hr rfl (by decide)
  have high := State.wr_reg (r := .counterHi) (v := BitVec.ofNat 32 (c / 2 ^ 32)) (s := { s with
    dev := { s.dev with counter := counterOf s.dev.counterHi (BitVec.ofNat 32 c) }
    responses := .completed :: s.responses }) hs hr rfl (by decide)
  refine ⟨counterOf (BitVec.ofNat 32 (c / 2 ^ 32)) (BitVec.ofNat 32 c), .completed :: .completed :: s.responses, ?_, ?_⟩
  · rw [toNat_counterOf, BitVec.toNat_ofNat, BitVec.toNat_ofNat]
    omega
  · have lowHalf : Device.counterLo { s.dev with counter := counterOf s.dev.counterHi (BitVec.ofNat 32 c) } =
        BitVec.ofNat 32 c := extractLsb'_low_counterOf _ _
    rw [← lowHalf]
    exact (congrArg (fun u => State.wr u 0x024 (BitVec.ofNat 32 (c / 2 ^ 32))) low).trans high

/-- A nonce of 120 bytes, as the window holds it. -/
def Container.nonceBytes (c : Container) : Bytes 120 := Bytes.build 120 fun j => c.nonce.getD j 0

theorem Container.byte_nonceBytes (c : Container) {j : Nat} (hj : j < 120) : c.nonceBytes.byte j = c.nonce.getD j 0 := by
  unfold Container.nonceBytes
  exact Bytes.byte_build_of_lt hj

/-- The operands under which the blocks of a container are processed with a key (41_counter_engine.md R168). -/
def Container.operands (c : Container) (key : List Byte) : StreamOperands :=
  { key := expandKey key key.length, nonce := c.nonceBytes, rounds := c.rounds, blockSize := c.blockSize }

/-- R168, once its requirements hold: the output blocks of the container's blocks from the start counter on, joined. -/
theorem hostDecrypt_eq {s : State} {cfg : Config} (hs : s.IdleOf cfg) {c : Container} (hc : c.WellFormed cfg)
    {key : List Byte} (hk : key ≠ []) {start : Nat} (counters : start + c.blocks.length ≤ 2 ^ 64 - 1) (polls : Schedule) :
    ∃ t, hostDecrypt polls s c key start = .ok ((c.operands key).ciphers cfg.outputOrder start c.blocks).flatten t := by
  have one_le := hc.one_le
  have le_max := hc.le_max
  obtain ⟨d, rs, loaded, idle, keyed, expanded, rounds, size⟩ :=
    State.loadParameters_eq hs hk (polls 0) c.blockSize c.rounds
  have notBusy : d.seq ≠ .busy := by simp [idle]
  obtain ⟨m, rs', stored, bytes, outside⟩ := State.wrbytes_window_start (w := .nonce) (bs := c.nonce)
    (s := { s with dev := d, responses := rs }) (by decide) notBusy hs.low hc.nonce.le
  have chunk := State.wr_reg (r := .chunkLen) (v := BitVec.ofNat 32 c.blockSize)
    (s := { s with dev := { d with mem := m }, responses := rs' }) notBusy hs.low rfl (by decide)
  obtain ⟨w, rs'', value, counter⟩ := State.setctr_eq (c := start) (s := { s with
    dev := { d with mem := m, chunkLen := BitVec.ofNat 32 c.blockSize }
    responses := .completed :: rs' }) notBusy hs.low (by omega)
  have prepared : ((((s.loadParameters (polls 0) key c.blockSize c.rounds).wrbytes 0x080 c.nonce).wr 0x018
      (BitVec.ofNat 32 c.blockSize)).setctr start) = { s with
        dev := { d with mem := m, chunkLen := BitVec.ofNat 32 c.blockSize, counter := w }
        responses := rs'' } := by
    rw [loaded, show State.wrbytes _ 0x080 c.nonce = _ from stored]
    exact (congrArg (fun u => State.setctr u start) chunk).trans counter
  have holds : Device.Holds { d with mem := m, chunkLen := BitVec.ofNat 32 c.blockSize, counter := w }
      (c.operands key) start := by
    refine ⟨keyed, ?_, ?_, rounds, (congrArg BitVec.toNat size).trans (chunk_length_toNat le_max), value⟩
    · refine Eq.trans ?_ expanded
      exact Device.expandedKey_congr keyed rfl fun j hj => outside _ (.inl (by simp only [Window.base]; omega))
    · apply Bytes.ext
      intro j hj
      rw [Device.byte_window, if_pos hj]
      exact (bytes j (by rw [hc.nonce]; exact hj)).trans (c.byte_nonceBytes hj).symm
  obtain ⟨t, decrypted⟩ := decryptBlocks_eq (p := c.operands key) one_le le_max polls c.blocks 1 start { s with
      dev := { d with mem := m, chunkLen := BitVec.ofNat 32 c.blockSize, counter := w }
      responses := rs'' } ⟨idle, hs.low, hs.cfg_eq⟩ holds (chunk_length_toNat le_max) hc.blocks counters
  refine ⟨t, ?_⟩
  unfold hostDecrypt
  rw [if_neg hk, if_neg (by omega), if_neg (by simp [hc.nonce]), if_neg (by rw [hs.cfg_eq]; omega), if_neg (by omega),
    Int.toNat_natCast, prepared]
  exact decrypted

theorem Bytes.build_toList_getD {n : Nat} (b : Bytes n) : (Bytes.build n fun j => b.toList.getD j 0) = b :=
  Bytes.ext fun _ hj => Bytes.byte_build_of_lt hj

/-- Settles O50: DECRYPT runs the same operands over the output blocks, so each block is its padded chunk again. -/
theorem decryptOfEncryptIsThePaddedMessage : Obligations.DecryptOfEncryptIsThePaddedMessage := by
  intro polls polls' s s' msg key bs r idle low idle' low' cfg hk one_le le_max blocks
  have chunks : (chunksOf bs msg).length ≤ 2 ^ 64 - 1 := by simpa [chunksOf] using blocks
  obtain ⟨nonce, t, encrypted⟩ := hostEncrypt_eq ⟨idle, low, rfl⟩ hk one_le le_max chunks polls r
  obtain ⟨c, hc⟩ : ∃ c : Container, c = ⟨bs, r, nonce.toList, StreamOperands.ciphers
    ⟨expandKey key key.length, nonce, r, bs⟩ s.cfg.outputOrder 0 (chunksOf bs msg)⟩ := ⟨_, rfl⟩
  have wellFormed : c.WellFormed s.cfg := by
    rw [hc]
    exact ⟨nonce.length_toList, one_le, le_max, StreamOperands.length_of_mem_ciphers _ _⟩
  have counters : 0 + c.blocks.length ≤ 2 ^ 64 - 1 := by
    rw [hc, Nat.zero_add, StreamOperands.length_ciphers]
    exact chunks
  obtain ⟨t', decrypted⟩ := hostDecrypt_eq ⟨idle', low', cfg⟩ wellFormed hk counters polls'
  refine ⟨c, t, t', by rw [encrypted, hc], decrypted.trans ?_⟩
  have operands : c.operands key = ⟨expandKey key key.length, nonce, r, bs⟩ := by
    rw [hc]
    unfold Container.operands Container.nonceBytes
    rw [Bytes.build_toList_getD nonce]
  rw [operands, hc, StreamOperands.ciphers_ciphers, flatten_padded_chunks one_le]

/-- Settles O51: the last blocks are decrypted under the counters they have in the whole. -/
theorem tailWindowDecryptsToTheTail : Obligations.TailWindowDecryptsToTheTail := by
  intro polls polls' s s' c key n idle low idle' low' cfg hk nonce one_le le_max blocks counters _ hn
  have whole : c.WellFormed s.cfg := ⟨nonce, one_le, le_max, blocks⟩
  have tail : Container.WellFormed s.cfg { c with blocks := c.blocks.drop (c.blocks.length - n) } :=
    ⟨nonce, one_le, le_max, fun b hb => blocks b (List.mem_of_mem_drop hb)⟩
  obtain ⟨t, decrypted⟩ := hostDecrypt_eq (start := 0) ⟨idle, low, rfl⟩ whole hk (by omega) polls
  obtain ⟨t', decrypted'⟩ := hostDecrypt_eq (start := c.blocks.length - n) ⟨idle', low', cfg⟩ tail hk
    (by rw [List.length_drop]; omega) polls'
  refine ⟨_, t, t', decrypted, ?_, decrypted'.trans ?_⟩
  · rw [length_flatten_of_length_eq (StreamOperands.length_of_mem_ciphers (c.operands key) _),
      StreamOperands.length_ciphers]
    rfl
  · have split : ((c.operands key).ciphers s.cfg.outputOrder 0 c.blocks).flatten.drop
        ((c.blocks.length - n) * c.blockSize) =
        ((c.operands key).ciphers s.cfg.outputOrder (c.blocks.length - n) (c.blocks.drop (c.blocks.length - n))).flatten := by
      rw [drop_flatten_of_length_eq (bs := c.blockSize) (StreamOperands.length_of_mem_ciphers (c.operands key) _),
        ← StreamOperands.ciphers_drop, Nat.zero_add]
    rw [split]
    rfl

end Sys2Proof.Machine

/-! PROOFS. The host's duties (20_memory.md R73, log entry 16): which moves are not given, and what follows for every run of a
duty-keeping host about COUNTER, NONCE and NONCE_GEN. -/

namespace Sys2Proof.Machine

/-! ### Which moves are not given -/

theorem accepts_eq_false {α : Type} {r : Except HostRefusal α} : accepts r = false ↔ ∃ why, r = .error why := by
  cases r <;> simp [accepts]

theorem ContainerSource.validated_eq_false {cfg : Config} {source : ContainerSource} :
    source.validated cfg = false ↔
      (∃ c, source = .held c ∧ (c.nonce.length ≠ 120 ∨ c.blockSize < 1 ∨ cfg.blockSizeMax < c.blockSize)) ∨
      (∃ file why, source = .whole file ∧ parseContainer cfg file = .error why) ∨
      (∃ file n why, source = .head file n ∧ headWindow cfg file n = .error why) ∨
      (∃ file n why, source = .tail file n ∧ tailWindow cfg file n = .error why) := by
  cases source with
  | held c =>
    simp only [ContainerSource.validated, decide_eq_false_iff_not, not_and_or, Nat.not_le, ContainerSource.held.injEq]
    simp
  | whole file => simp [ContainerSource.validated, accepts_eq_false]
  | head file n => simp [ContainerSource.validated, accepts_eq_false]
  | tail file n => simp [ContainerSource.validated, accepts_eq_false]

theorem Purpose.validated_eq_false {cfg : Config} {p : Purpose} :
    p.validated cfg = false ↔
      ∃ source startBlock, p = .decrypt source startBlock ∧ (startBlock < 0 ∨ source.validated cfg = false) := by
  cases p with
  | other => simp [Purpose.validated]
  | encrypt n => simp [Purpose.validated]
  | decrypt source startBlock =>
    simp only [Purpose.validated, Bool.and_eq_false_iff, decide_eq_false_iff_not, Int.not_le, Purpose.decrypt.injEq]
    simp

/-- An issued command is its own word written to CMD. -/
theorem State.issues_iff {s : State} {e : Event} {i : Instr} :
    s.issues e = some i ↔
      i ≠ .softReset ∧ s.dev.seq = .idle ∧ s.rst = false ∧ e = .host (.wr 0x008 (encode i)) := by
  rw [State.issues_eq_some]
  simp only [decode_eq_ok_iff, exists_eq_left]

theorem CounterOrigin.serves_eq_false {o : CounterOrigin} {p : Purpose} :
    o.serves p = false ↔ o = .unset ∨ (o = .nonceGen ∧ ∃ source startBlock, p = .decrypt source startBlock) ∨
      (∃ q, o = .advanced q ∧ p ≠ .other ∧ p ≠ q) := by
  cases o with
  | unset => simp [CounterOrigin.serves]
  | nonceGen => cases p <;> simp [CounterOrigin.serves]
  | host => simp [CounterOrigin.serves]
  | advanced q => simp [CounterOrigin.serves]

theorem Duties.counterReady_eq_false {d : Duties} {p : Purpose} :
    d.counterReady p = false ↔ d.loWritten ≠ d.hiWritten ∨
      (d.loWritten = false ∧ d.hiWritten = false ∧ d.counter.serves p = false) := by
  unfold Duties.counterReady
  cases d.loWritten <;> cases d.hiWritten <;> simp

theorem Duties.mayDraw_eq_false {d : Duties} {p : Purpose} :
    d.mayDraw p = false ↔ ∃ n k, p = .encrypt n ∧ (n, k) ∈ d.encryptions := by
  rw [← Bool.not_eq_true, Duties.mayDraw_iff]
  push Not
  rfl

theorem Duties.nonceServes_eq_false {d : Duties} {p : Purpose} :
    d.nonceServes p = false ↔ ∃ n, p = .encrypt n ∧ ∀ k, d.nonce = some k → (n, k) ∉ d.encryptions := by
  rw [← Bool.not_eq_true, Duties.nonceServes_iff]
  push Not
  rfl

/-- What the duties forbid: a NONCE_GEN too many, and a KS_GEN or CTR_XOR whose COUNTER, NONCE or purpose is amiss. -/
theorem Duties.allows_eq_false {d : Duties} {p : Purpose} {i : Instr} :
    d.allows p i = false ↔
      ((i = .ksGen ∨ i = .ctrXor) ∧
        (d.counterReady p = false ∨ d.nonceServes p = false ∨ (i = .ctrXor ∧ p = .other))) ∨
      (i = .nonceGen ∧ d.mayDraw p = false) := by
  cases i with
  | ksGen => simp [Duties.allows, imp_iff_not_or]
  | ctrXor => simp [Duties.allows, imp_iff_not_or, or_assoc]
  | _ => simp [Duties.allows]

theorem HostRun.keepsDuties_eq_false {r : HostRun} {m : Move} :
    r.keepsDuties m = false ↔ m.purpose.validated r.state.cfg = false ∨
      ∃ i, r.state.issues m.event = some i ∧ r.duties.allows m.purpose i = false := by
  unfold HostRun.keepsDuties
  rw [Bool.and_eq_false_iff]
  cases r.state.issues m.event <;> simp

theorem HostRun.keepsDuties_eq_true {r : HostRun} {m : Move} :
    r.keepsDuties m = true ↔ m.purpose.validated r.state.cfg = true ∧
      ∀ i, r.state.issues m.event = some i → r.duties.allows m.purpose i = true := by
  unfold HostRun.keepsDuties
  rw [Bool.and_eq_true]
  cases r.state.issues m.event <;> simp

/-- Settles O52: a move is not given where its purpose is not validated or the duties forbid the command it issues. -/
theorem movesThatBreakADutyAreNotGiven : Obligations.MovesThatBreakADutyAreNotGiven := by
  refine fun r m => ⟨?_, fun r' h => by rw [(HostRun.move_eq_some.mp h).2]⟩
  rw [HostRun.move_eq_none, HostRun.keepsDuties_eq_false, Purpose.validated_eq_false]
  simp only [ContainerSource.validated_eq_false]
  refine or_congr Iff.rfl ⟨?_, ?_⟩
  · rintro ⟨i, issued, forbidden⟩
    obtain ⟨-, idle, low, event⟩ := State.issues_iff.mp issued
    rcases Duties.allows_eq_false.mp forbidden with ⟨uses, amiss⟩ | ⟨rfl, drawn⟩
    · rw [Duties.counterReady_eq_false, CounterOrigin.serves_eq_false, Duties.nonceServes_eq_false, or_assoc] at amiss
      exact .inl ⟨i, uses, event, idle, low, amiss⟩
    · obtain ⟨n, k, purpose, begun⟩ := Duties.mayDraw_eq_false.mp drawn
      exact .inr ⟨event, idle, low, n, k, purpose, begun⟩
  · rintro (⟨i, uses, event, idle, low, amiss⟩ | ⟨event, idle, low, n, k, purpose, begun⟩)
    · refine ⟨i, State.issues_iff.mpr ⟨by rcases uses with rfl | rfl <;> decide, idle, low, event⟩, ?_⟩
      refine Duties.allows_eq_false.mpr (.inl ⟨uses, ?_⟩)
      rw [Duties.counterReady_eq_false, CounterOrigin.serves_eq_false, Duties.nonceServes_eq_false, or_assoc]
      exact amiss
    · exact ⟨.nonceGen, State.issues_iff.mpr ⟨by decide, idle, low, event⟩,
        Duties.allows_eq_false.mpr (.inr ⟨rfl, Duties.mayDraw_eq_false.mpr ⟨n, k, purpose, begun⟩⟩)⟩

/-! ### A half of COUNTER written, and a command issued -/

/-- The register is a half of COUNTER. -/
def Reg.IsCounterHalf (x : Reg) : Prop := x = .counterLo ∨ x = .counterHi

theorem Reg.IsCounterHalf.ne_cmd {x : Reg} (h : x.IsCounterHalf) : x ≠ .cmd := by
  rcases h with rfl | rfl <;> decide

/-- The run after a half of COUNTER has been written. -/
def HostRun.halfWritten (r : HostRun) (x : Reg) (v : Word) : HostRun :=
  { duties := r.duties.noteWrite (.reg x)
    state := { r.state with
      dev := r.state.dev.writeOperand r.state.cfg v (.reg x)
      responses := .completed :: r.state.responses } }

theorem encode_ne_softReset {i : Instr} (hi : i ≠ .softReset) : encode i ≠ encode .softReset := by
  revert hi
  cases i <;> decide

/-- An event that issues a command is no reset. -/
theorem State.not_resetsAt_of_issues {s : State} {e : Event} {i : Instr} (h : s.issues e = some i) :
    s.resetsAt e ≠ true := by
  obtain ⟨hi, -, -, rfl⟩ := State.issues_iff.mp h
  intro resets
  have word := (State.admittedWrite_cmd.mp (State.resetsAt_host.mp resets)).1
  exact encode_ne_softReset hi (by simpa [Access.wr] using word)

/-- A given move that issues a command: the host notes it. -/
theorem HostRun.move_duties_of_issues {r r' : HostRun} {m : Move} {i : Instr} (given : r.move m = some r')
    (issued : r.state.issues m.event = some i) : r'.duties = r.duties.noteCommand m.purpose i := by
  obtain ⟨-, rfl⟩ := HostRun.move_eq_some.mp given
  exact Duties.after_command (State.not_resetsAt_of_issues issued) issued

section
variable {r : HostRun} (idle : r.state.dev.seq = .idle) (low : r.state.rst = false)
include idle low

/-- A write of a half of COUNTER in IDLE is admitted. -/
theorem HostRun.admittedWrite_counterHalf {x : Reg} (hx : x.IsCounterHalf) (v : Word) :
    r.state.admittedWrite (.host (.wr (BitVec.ofNat 12 x.offset) v)) = some (.reg x, v) := by
  have stands := target_reg_offset r.state.cfg x
  refine State.admittedWrite_eq_some.mpr ⟨_, rfl, rfl, ?_, stands⟩
  refine Machine.wr_admitted ?_ (by simp [idle]) low (by rw [stands]; simp) (by rw [stands]; rcases hx with rfl | rfl <;> rfl)
  rcases hx with rfl | rfl <;> decide

/-- A move that writes a half of COUNTER in IDLE is given, and the host notes the half. -/
theorem HostRun.move_counterHalf {x : Reg} (hx : x.IsCounterHalf) (v : Word) {p : Purpose}
    (validated : p.validated r.state.cfg = true) :
    r.move ⟨p, .host (.wr (BitVec.ofNat 12 x.offset) v)⟩ = some (r.halfWritten x v) := by
  have admitted := HostRun.admittedWrite_counterHalf idle low hx v
  have noCommand : r.state.issues (.host (.wr (BitVec.ofNat 12 x.offset) v)) = none := by
    unfold State.issues
    rw [admitted]
    rcases hx with rfl | rfl <;> rfl
  have noReset : r.state.resetsAt (.host (.wr (BitVec.ofNat 12 x.offset) v)) ≠ true := by
    intro resets
    have cmd := admitted.symm.trans (State.resetsAt_host.mp resets)
    exact hx.ne_cmd (by simpa using congrArg (Option.map Prod.fst) cmd)
  refine HostRun.move_eq_some.mpr ⟨HostRun.keepsDuties_eq_true.mpr ⟨validated, by simp [noCommand]⟩, ?_⟩
  rw [Duties.after_write noReset noCommand admitted, State.perform_operand_write admitted (by simpa using hx.ne_cmd)]
  rfl

/-- A move that issues a command is not given where the duties forbid it. -/
theorem HostRun.move_command_forbidden {p : Purpose} {i : Instr} (hi : i ≠ .softReset)
    (forbidden : r.duties.allows p i = false) : r.move ⟨p, .host (.wr 0x008 (encode i))⟩ = none :=
  HostRun.move_eq_none.mpr (HostRun.keepsDuties_eq_false.mpr
    (.inr ⟨i, State.issues_iff.mpr ⟨hi, idle, low, rfl⟩, forbidden⟩))

/-- A move that issues a command is given where the duties allow it, and the command is accepted. -/
theorem HostRun.move_command {p : Purpose} {i : Instr} (hi : i ≠ .softReset) (validated : p.validated r.state.cfg = true)
    (allowed : r.duties.allows p i = true) : r.move ⟨p, .host (.wr 0x008 (encode i))⟩ = some
      { duties := r.duties.noteCommand p i
        state := { r.state.accept (encode i) with responses := .completed :: r.state.responses } } := by
  have issued : r.state.issues (.host (.wr 0x008 (encode i))) = some i := State.issues_iff.mpr ⟨hi, idle, low, rfl⟩
  refine HostRun.move_eq_some.mpr ⟨HostRun.keepsDuties_eq_true.mpr ⟨validated, fun j hj => ?_⟩, ?_⟩
  · rw [← Option.some.inj (issued.symm.trans hj)]
    exact allowed
  · rw [Duties.after_command (State.not_resetsAt_of_issues issued) issued]
    exact congrArg (HostRun.mk _) (State.cmd_idle hi idle low).symm

end


/-- Neither a KS_GEN nor a CTR_XOR is given where COUNTER is not ready. -/
theorem HostRun.move_uses_counter_none {r : HostRun} (idle : r.state.dev.seq = .idle) (low : r.state.rst = false)
    {p : Purpose} {i : Instr} (hi : i = .ksGen ∨ i = .ctrXor) (notReady : r.duties.counterReady p = false) :
    r.move ⟨p, .host (.wr 0x008 (encode i))⟩ = none :=
  HostRun.move_command_forbidden idle low (by rcases hi with rfl | rfl <;> decide)
    (Duties.allows_eq_false.mpr (.inl ⟨hi, .inl notReady⟩))

theorem HostRun.moves_cons_of_some {r r' : HostRun} {m : Move} (h : r.move m = some r') (ms : List Move) :
    r.moves (m :: ms) = r'.moves ms := by
  simp only [HostRun.moves, h]

theorem HostRun.moves_cons_of_none {r : HostRun} {m : Move} (h : r.move m = none) (ms : List Move) :
    r.moves (m :: ms) = none := by
  simp only [HostRun.moves, h]

/-- After one half alone, neither a KS_GEN nor a CTR_XOR is given. -/
theorem HostRun.moves_half_then_command {r : HostRun} (idle : r.state.dev.seq = .idle) (low : r.state.rst = false)
    (lo : r.duties.loWritten = false) (hi : r.duties.hiWritten = false) {x : Reg} (hx : x.IsCounterHalf) (v : Word)
    (p q : Purpose) {i : Instr} (uses : i = .ksGen ∨ i = .ctrXor) :
    r.moves [⟨p, .host (.wr (BitVec.ofNat 12 x.offset) v)⟩, ⟨q, .host (.wr 0x008 (encode i))⟩] = none := by
  cases validated : p.validated r.state.cfg with
  | false =>
    exact HostRun.moves_cons_of_none
      (HostRun.move_eq_none.mpr (HostRun.keepsDuties_eq_false.mpr (.inl validated))) _
  | true =>
    rw [HostRun.moves_cons_of_some (HostRun.move_counterHalf idle low hx v validated)]
    refine HostRun.moves_cons_of_none (HostRun.move_uses_counter_none (r := r.halfWritten x v) ?_ low uses ?_) _
    · exact (Device.writeOperand_seq ..).trans idle
    · refine Duties.counterReady_eq_false.mpr (.inl ?_)
      rcases hx with rfl | rfl <;> simp [HostRun.halfWritten, Duties.noteWrite, lo, hi]

/-- After both halves a command that the duties then allow is accepted, with the counter of both. -/
theorem HostRun.moves_halves_then_command {r : HostRun} (idle : r.state.dev.seq = .idle) (low : r.state.rst = false)
    (lo hi : Word) {p : Purpose} {i : Instr} (ne : i ≠ .softReset) (validated : p.validated r.state.cfg = true)
    (allowed : Duties.allows { r.duties with loWritten := true, hiWritten := true } p i = true) :
    ∃ r', r.moves [⟨.other, .host (.wr 0x020 lo)⟩, ⟨.other, .host (.wr 0x024 hi)⟩,
        ⟨p, .host (.wr 0x008 (encode i))⟩] = some r' ∧
      r'.state.dev.seq = .busy ∧ r'.state.dev.counter.toNat = hi.toNat * 2 ^ 32 + lo.toNat := by
  have first := HostRun.move_counterHalf idle low (x := .counterLo) (.inl rfl) lo (p := .other) rfl
  have second := HostRun.move_counterHalf (r := r.halfWritten .counterLo lo) idle low (x := .counterHi) (.inr rfl) hi
    (p := .other) rfl
  have third := HostRun.move_command (r := (r.halfWritten .counterLo lo).halfWritten .counterHi hi) idle low ne validated
    allowed
  refine ⟨_, (HostRun.moves_cons_of_some first _).trans ((HostRun.moves_cons_of_some second _).trans
    ((HostRun.moves_cons_of_some third _).trans rfl)), rfl, ?_⟩
  exact (toNat_counterOf _ _).trans (congrArg (fun w : Word => hi.toNat * 2 ^ 32 + w.toNat)
    (extractLsb'_low_counterOf r.state.dev.counterHi lo))

/-- Settles O53: one half alone leaves COUNTER unready; both make it ready for every purpose. -/
theorem halfWrittenCounterGetsNoCommand : Obligations.HalfWrittenCounterGetsNoCommand := by
  intro r lo hi idle low loFree hiFree
  refine ⟨fun p q i uses => ⟨?low, ?high, fun unset => ?unset⟩, ?ksGen, fun source startBlock nonneg validated => ?ctrXor⟩
  case low => exact HostRun.moves_half_then_command idle low loFree hiFree (x := .counterLo) (.inl rfl) lo p q uses
  case high => exact HostRun.moves_half_then_command idle low loFree hiFree (x := .counterHi) (.inr rfl) hi p q uses
  case unset =>
    refine HostRun.moves_cons_of_none (HostRun.move_uses_counter_none idle low uses ?_) _
    exact Duties.counterReady_eq_false.mpr (.inr ⟨loFree, hiFree, CounterOrigin.serves_eq_false.mpr (.inl unset)⟩)
  case ksGen => exact HostRun.moves_halves_then_command idle low lo hi (by decide) rfl rfl
  case ctrXor =>
    refine HostRun.moves_halves_then_command idle low lo hi (by decide) ?_ rfl
    simp [Purpose.validated, nonneg, validated]

/-! ### Decryptions: both halves since any reset or NONCE_GEN -/

/-- One of the moves writes the word at this offset. -/
def WroteAt (off : BitVec 12) (ms : List Move) : Prop := ∃ x ∈ ms, ∃ v, x.event = .host (.wr off v)

theorem WroteAt.append {off : BitVec 12} {ms : List Move} (h : WroteAt off ms) (ms' : List Move) :
    WroteAt off (ms ++ ms') := by
  obtain ⟨x, hx, written⟩ := h
  exact ⟨x, List.mem_append_left _ hx, written⟩

/-- What the host's record of COUNTER says of the moves made: each half noted was written, and where COUNTER serves a
decryption both were. -/
structure Duties.CounterHistory (d : Duties) (ms : List Move) : Prop where
  lo : d.loWritten = true → WroteAt 0x020 ms
  hi : d.hiWritten = true → WroteAt 0x024 ms
  serves : ∀ source startBlock, d.counter.serves (.decrypt source startBlock) = true → WroteAt 0x020 ms ∧ WroteAt 0x024 ms

theorem Duties.CounterHistory.append {d : Duties} {ms : List Move} (h : d.CounterHistory ms) (ms' : List Move) :
    d.CounterHistory (ms ++ ms') :=
  ⟨fun lo => (h.lo lo).append _, fun hi => (h.hi hi).append _,
    fun _ _ serves => ⟨(h.serves _ _ serves).1.append _, (h.serves _ _ serves).2.append _⟩⟩

/-- COUNTER is ready for a decryption only after both halves were written. -/
theorem Duties.CounterHistory.of_ready {d : Duties} {ms : List Move} (h : d.CounterHistory ms) {source : ContainerSource}
    {startBlock : Int} (ready : d.counterReady (.decrypt source startBlock) = true) :
    WroteAt 0x020 ms ∧ WroteAt 0x024 ms := by
  rcases (d.counterReady_iff _).mp ready with ⟨lo, hi⟩ | ⟨-, -, serves⟩
  · exact ⟨h.lo lo, h.hi hi⟩
  · exact h.serves _ _ serves

theorem Duties.CounterHistory.noteReset {d : Duties} (ms : List Move) : d.noteReset.CounterHistory ms :=
  ⟨by simp [Duties.noteReset], by simp [Duties.noteReset], by simp [Duties.noteReset, CounterOrigin.serves]⟩

/-- A command issued as the duties allow. -/
theorem Duties.CounterHistory.noteCommand {d : Duties} {ms : List Move} (h : d.CounterHistory ms) {p : Purpose} {i : Instr}
    (allowed : d.allows p i = true) : (d.noteCommand p i).CounterHistory ms := by
  obtain ⟨-, uses, -⟩ := Duties.allows_uses allowed
  cases i with
  | nop => exact h
  | feistel => exact h
  | softReset => exact h
  | nonceGen =>
    exact ⟨by simp [Duties.noteCommand], by simp [Duties.noteCommand], by simp [Duties.noteCommand, CounterOrigin.serves]⟩
  | ksGen =>
    refine ⟨by simp [Duties.noteCommand], by simp [Duties.noteCommand], fun source startBlock serves => ?_⟩
    simp only [Duties.noteCommand] at serves
    split at serves
    · next both =>
      obtain ⟨lo, hi⟩ := Bool.and_eq_true_iff.mp both
      exact ⟨h.lo lo, h.hi hi⟩
    · exact h.serves _ _ serves
  | ctrXor =>
    refine ⟨by simp [Duties.noteCommand], by simp [Duties.noteCommand], fun source startBlock serves => ?_⟩
    obtain ⟨ready, -⟩ := uses (.inr rfl)
    obtain rfl : Purpose.decrypt source startBlock = p := by simpa [Duties.noteCommand, CounterOrigin.serves] using serves
    exact h.of_ready ready

/-- An admitted write. -/
theorem Duties.CounterHistory.noteWrite {d : Duties} {ms : List Move} (h : d.CounterHistory ms) {s : State} {m : Move}
    {t : Target} {v : Word} (admitted : s.admittedWrite m.event = some (t, v)) :
    (d.noteWrite t).CounterHistory (ms ++ [m]) := by
  have kept := h.append [m]
  obtain ⟨a, event, kind, notRefused, stands⟩ := State.admittedWrite_eq_some.mp admitted
  have written : ∀ r : Reg, t = .reg r → WroteAt (BitVec.ofNat 12 r.offset) (ms ++ [m]) := fun r ht =>
    ⟨m, by simp, v, by rw [event, admitted_write_reg notRefused kind (stands.trans ht)]⟩
  cases t with
  | reg r =>
    cases r with
    | counterLo => exact ⟨fun _ => written .counterLo rfl, kept.hi, kept.serves⟩
    | counterHi => exact ⟨kept.lo, fun _ => written .counterHi rfl, kept.serves⟩
    | _ => exact kept
  | windowWord w k =>
    cases w with
    | nonce => exact ⟨kept.lo, kept.hi, kept.serves⟩
    | _ => exact kept
  | reserved => exact kept

theorem Duties.CounterHistory.move {r r' : HostRun} {m : Move} {ms : List Move} (h : r.duties.CounterHistory ms)
    (given : r.move m = some r') : r'.duties.CounterHistory (ms ++ [m]) := by
  obtain ⟨-, rfl⟩ := HostRun.move_eq_some.mp given
  rcases r.duties.after_cases r.state m with ⟨-, e⟩ | ⟨i, issued, e⟩ | ⟨t, v, admitted, e⟩ | e
  all_goals
    show (r.duties.after r.state m).CounterHistory _
    rw [e]
  · exact Duties.CounterHistory.noteReset _
  · exact (h.noteCommand (HostRun.move_allows given issued)).append _
  · exact h.noteWrite admitted
  · exact h.append _

/-- A reset, of any of the three kinds, leaves the device at its reset values. -/
theorem State.perform_resets {s : State} {e : Event} (h : s.resetsAt e = true) : (s.perform e).dev = Device.reset := by
  cases e with
  | engineTurn => cases h
  | rst l =>
    have driven : l = true ∨ s.rst = true := by simpa [State.resetsAt] using h
    rw [State.perform_of_step (step_rst_resets (s := { s with events := .rst l :: s.events }) rfl driven)]
  | host a =>
    obtain ⟨event, notBusy, low⟩ := State.admittedWrite_cmd.mp (State.resetsAt_host.mp h)
    obtain rfl : a = .wr 0x008 (encode .softReset) := by simpa using event
    have stepped := (step_wr_cmd (s := { s with events := .host (.wr 0x008 (encode .softReset)) :: s.events })
      (es := s.events) rfl notBusy low).trans (commandWrite_softReset (s := State.popEvent _) notBusy)
    rw [State.perform_of_step stepped]
    rfl

/-- Settles O54: `CounterHistory` holds where the host begins and after every move; a reset and a NONCE_GEN lead there. -/
theorem decryptionNeedsBothCounterHalves : Obligations.DecryptionNeedsBothCounterHalves := by
  refine ⟨?decrypts, fun s => ⟨rfl, rfl, rfl⟩, fun r r' m given => ⟨fun resets => ?reset, fun event idle low => ?nonceGen⟩⟩
  case decrypts =>
    intro r r' r'' ms m i source startBlock origin lo hi moved uses purpose event idle low given
    have start : r.duties.CounterHistory [] := by
      refine ⟨by simp [lo], by simp [hi], fun source startBlock serves => ?_⟩
      rcases origin with h | h <;> simp [h, CounterOrigin.serves] at serves
    have history := HostRun.moves_history_induction (P := fun ms r => r.duties.CounterHistory ms)
      (fun _ _ _ _ h given => h.move given) ms [] r r' start moved
    have issued : r'.state.issues m.event = some i :=
      State.issues_iff.mpr ⟨by rcases uses with rfl | rfl <;> decide, idle, low, event⟩
    obtain ⟨-, ready, -⟩ := Duties.allows_uses (HostRun.move_allows given issued)
    rw [purpose] at ready
    exact history.of_ready (ready uses).1
  case reset =>
    have resetsAt : r.state.resetsAt m.event = true := by
      rcases resets with event | ⟨event, high⟩ | ⟨event, notBusy, low⟩
      · rw [event]
        rfl
      · rw [event]
        exact high
      · rw [event]
        exact State.resetsAt_host.mpr (State.admittedWrite_cmd.mpr ⟨rfl, notBusy, low⟩)
    obtain ⟨-, rfl⟩ := HostRun.move_eq_some.mp given
    rw [Duties.after_reset resetsAt]
    exact ⟨State.perform_resets resetsAt, rfl, rfl, rfl, rfl⟩
  case nonceGen =>
    have issued : r.state.issues m.event = some .nonceGen := State.issues_iff.mpr ⟨by decide, idle, low, event⟩
    rw [HostRun.move_duties_of_issues given issued]
    exact ⟨rfl, rfl, rfl⟩

end Sys2Proof.Machine

/-! PROOFS. One NONCE_GEN per encryption (41_counter_engine.md R173, log entry 16): the host's record of its draws, and that NONCE
holds a draw of the run wherever the record says so. -/

namespace Sys2Proof.Machine

/-! ### The host's record of its draws -/

/-- Every draw in the record has been made, and encryptions and their draws belong to each other one to one. -/
structure Duties.Recorded (d : Duties) : Prop where
  nonce_lt : ∀ k, d.nonce = some k → k < d.generated
  drawn_lt : ∀ p ∈ d.encryptions, p.2 < d.generated
  unique : ∀ p ∈ d.encryptions, ∀ q ∈ d.encryptions, p.1 = q.1 ↔ p.2 = q.2

theorem Duties.recorded_start : Duties.start.Recorded := ⟨by simp [Duties.start], by simp [Duties.start], by simp [Duties.start]⟩

/-- The encryptions once a NONCE_GEN is issued: those before, and the one it is made for, if it is made for one. -/
theorem Duties.mem_begun {d : Duties} {p : Purpose} {e : Nat × Nat} :
    e ∈ d.begun p ↔ e ∈ d.encryptions ∨ (p = .encrypt e.1 ∧ e.2 = d.generated) := by
  cases p with
  | other => simp [Duties.begun]
  | decrypt source startBlock => simp [Duties.begun]
  | encrypt n =>
    obtain ⟨a, b⟩ := e
    simp only [Duties.begun, List.mem_cons, Prod.mk.injEq, Purpose.encrypt.injEq, or_comm, eq_comm]

/-- A NONCE_GEN that the duties allow begins no encryption a second time, and its draw is a new one. -/
theorem Duties.Recorded.noteCommand_nonceGen {d : Duties} (h : d.Recorded) {p : Purpose} (allowed : d.mayDraw p = true) :
    (d.noteCommand p .nonceGen).Recorded := by
  have fresh := (d.mayDraw_iff p).mp allowed
  refine ⟨fun k hk => ?_, fun e he => ?_, fun e he e' he' => ?_⟩
  · obtain rfl : d.generated = k := Option.some.inj hk
    exact Nat.lt_succ_self _
  · rcases Duties.mem_begun.mp he with old | ⟨-, new⟩
    · exact (h.drawn_lt e old).trans (Nat.lt_succ_self _)
    · exact new ▸ Nat.lt_succ_self _
  · rcases Duties.mem_begun.mp he with old | ⟨purpose, new⟩ <;>
      rcases Duties.mem_begun.mp he' with old' | ⟨purpose', new'⟩
    · exact h.unique e old e' old'
    · have notSame : e.1 ≠ e'.1 := fun same => fresh e'.1 e.2 purpose' (same ▸ old)
      have earlier := h.drawn_lt e old
      exact iff_of_false notSame (by omega)
    · have notSame : e.1 ≠ e'.1 := fun same => fresh e.1 e'.2 purpose (same.symm ▸ old')
      have earlier := h.drawn_lt e' old'
      exact iff_of_false notSame (by omega)
    · exact iff_of_true (Purpose.encrypt.inj (purpose.symm.trans purpose')) (new.trans new'.symm)

theorem Duties.Recorded.move {r r' : HostRun} {m : Move} (h : r.duties.Recorded) (given : r.move m = some r') :
    r'.duties.Recorded := by
  rcases HostRun.move_draws given with ⟨issued, -, noted⟩ | ⟨generated, nonce, encryptions⟩
  · rw [noted]
    exact h.noteCommand_nonceGen ((Duties.allows_uses (HostRun.move_allows given issued)).1 rfl)
  · refine ⟨fun k hk => ?_, by rw [encryptions, generated]; exact h.drawn_lt, by rw [encryptions]; exact h.unique⟩
    rw [generated]
    rcases nonce with none | same
    · rw [none] at hk
      cases hk
    · exact h.nonce_lt k (same ▸ hk)

theorem Duties.Recorded.moves {r r' : HostRun} {ms : List Move} (h : r.duties.Recorded) (moved : r.moves ms = some r') :
    r'.duties.Recorded :=
  HostRun.moves_induction (P := fun r => r.duties.Recorded) (fun _ _ _ h given => h.move given) ms r r' h moved

/-- An encryption once begun stays in the record. -/
theorem HostRun.encryptions_subset_of_move {r r' : HostRun} {m : Move} (given : r.move m = some r') :
    r.duties.encryptions ⊆ r'.duties.encryptions := by
  intro e he
  rcases HostRun.move_draws given with ⟨-, -, noted⟩ | ⟨-, -, same⟩
  · rw [noted]
    exact Duties.mem_begun.mpr (.inl he)
  · rwa [same]

theorem HostRun.encryptions_subset_of_moves {r r' : HostRun} {ms : List Move} (moved : r.moves ms = some r') :
    r.duties.encryptions ⊆ r'.duties.encryptions :=
  HostRun.moves_induction (P := fun u => r.duties.encryptions ⊆ u.duties.encryptions)
    (fun _ _ _ h given => List.Subset.trans h (encryptions_subset_of_move given)) ms r r' (List.Subset.refl _) moved

/-- The draw in NONCE is none, or one from the `g`-th on; and at least `g` draws have been made. -/
def Duties.DrawnFrom (d : Duties) (g : Nat) : Prop := g ≤ d.generated ∧ ∀ k, d.nonce = some k → g ≤ k

theorem Duties.DrawnFrom.move {r r' : HostRun} {m : Move} {g : Nat} (h : r.duties.DrawnFrom g)
    (given : r.move m = some r') : r'.duties.DrawnFrom g := by
  obtain ⟨made, nonce⟩ := h
  rcases HostRun.move_draws given with ⟨-, -, noted⟩ | ⟨generated, none | same, -⟩
  · rw [noted]
    refine ⟨made.trans (Nat.le_succ _), fun k hk => ?_⟩
    exact made.trans (Option.some.inj hk).le
  · exact ⟨generated ▸ made, by simp [none]⟩
  · exact ⟨generated ▸ made, by rw [same]; exact nonce⟩

theorem Duties.DrawnFrom.moves {r r' : HostRun} {ms : List Move} {g : Nat} (h : r.duties.DrawnFrom g)
    (moved : r.moves ms = some r') : r'.duties.DrawnFrom g :=
  HostRun.moves_induction (P := fun r => r.duties.DrawnFrom g) (fun _ _ _ h given => h.move given) ms r r' h moved

/-- How many NONCE_GEN commands have been issued never falls. -/
theorem HostRun.generated_le_of_moves {r r' : HostRun} {ms : List Move} (moved : r.moves ms = some r') :
    r.duties.generated ≤ r'.duties.generated := by
  refine HostRun.moves_induction (P := fun u => r.duties.generated ≤ u.duties.generated) ?_ ms r r' le_rfl moved
  intro u m u' h given
  rcases HostRun.move_draws given with ⟨-, -, noted⟩ | ⟨generated, -, -⟩
  · rw [noted]
    exact h.trans (Nat.le_succ _)
  · rwa [generated]

/-! ### Moves that issue NONCE_GEN, and moves that do not -/

/-- After moves among which a NONCE_GEN is issued, NONCE holds no draw from before them. -/
theorem HostRun.drawnFrom_of_drawsDuring {r r' : HostRun} {ms : List Move} (moved : r.moves ms = some r')
    (draws : r.drawsDuring ms) : r'.duties.DrawnFrom r.duties.generated := by
  obtain ⟨before, after, x, u, rfl, reached, event, idle, low⟩ := draws
  rw [HostRun.moves_append, reached, Option.bind_some] at moved
  cases given : u.move x with
  | none => simp [HostRun.moves_cons_of_none given] at moved
  | some u' =>
    rw [HostRun.moves_cons_of_some given] at moved
    have issued : u.state.issues x.event = some .nonceGen := State.issues_iff.mpr ⟨by decide, idle, low, event⟩
    have noted := HostRun.move_duties_of_issues given issued
    have made := HostRun.generated_le_of_moves reached
    refine Duties.DrawnFrom.moves (r := u') ⟨?_, fun k hk => ?_⟩ moved
    · rw [noted]
      exact made.trans (Nat.le_succ _)
    · rw [noted] at hk
      exact made.trans (Option.some.inj hk).le

theorem HostRun.drawsDuring_of_issues {r : HostRun} {m : Move} (issued : r.state.issues m.event = some .nonceGen)
    (ms : List Move) : r.drawsDuring (m :: ms) := by
  obtain ⟨-, idle, low, event⟩ := State.issues_iff.mp issued
  exact ⟨[], ms, m, r, rfl, rfl, event, idle, low⟩

theorem HostRun.drawsDuring_cons {r u : HostRun} {m : Move} (given : r.move m = some u) {ms : List Move}
    (draws : u.drawsDuring ms) : r.drawsDuring (m :: ms) := by
  obtain ⟨before, after, x, v, rfl, reached, event, idle, low⟩ := draws
  exact ⟨m :: before, after, x, v, rfl, (HostRun.moves_cons_of_some given _).trans reached, event, idle, low⟩

/-- Where no NONCE_GEN is issued, NONCE holds no draw or the one from before. -/
theorem HostRun.nonce_of_not_drawsDuring {ms : List Move} {r r' : HostRun} (moved : r.moves ms = some r')
    (noDraw : ¬ r.drawsDuring ms) : r'.duties.nonce = none ∨ r'.duties.nonce = r.duties.nonce := by
  induction ms generalizing r with
  | nil =>
    obtain rfl := Option.some.inj moved
    exact .inr rfl
  | cons m ms ih =>
    cases given : r.move m with
    | none => simp [HostRun.moves_cons_of_none given] at moved
    | some u =>
      rw [HostRun.moves_cons_of_some given] at moved
      rcases HostRun.move_draws given with ⟨issued, -, -⟩ | ⟨-, nonce, -⟩
      · exact absurd (HostRun.drawsDuring_of_issues issued ms) noDraw
      · rcases ih moved fun draws => noDraw (HostRun.drawsDuring_cons given draws) with none | same
        · exact .inl none
        · rcases nonce with none | same'
          · exact .inl (same.trans none)
          · exact .inr (same.trans same')

/-! ### Commands issued for an encryption -/

/-- A KS_GEN or CTR_XOR is given for an encryption only under the draw of its own NONCE_GEN. -/
theorem HostRun.nonce_of_use {r r' : HostRun} {m : Move} {i : Instr} {n : Nat} (given : r.move m = some r')
    (issued : r.state.issues m.event = some i) (uses : i = .ksGen ∨ i = .ctrXor) (purpose : m.purpose = .encrypt n) :
    ∃ k, r.duties.nonce = some k ∧ (n, k) ∈ r.duties.encryptions :=
  (r.duties.nonceServes_iff _).mp ((Duties.allows_uses (HostRun.move_allows given issued)).2.1 uses).2 n purpose

/-- After a command issued for an encryption, NONCE holds the draw of its NONCE_GEN. -/
theorem HostRun.nonce_after_command {r r' : HostRun} {m : Move} {i : Instr} {n : Nat} (given : r.move m = some r')
    (issued : r.state.issues m.event = some i) (hi : i = .nonceGen ∨ i = .ksGen ∨ i = .ctrXor)
    (purpose : m.purpose = .encrypt n) : ∃ k, r'.duties.nonce = some k ∧ (n, k) ∈ r'.duties.encryptions := by
  rw [HostRun.move_duties_of_issues given issued]
  rcases hi with rfl | uses
  · exact ⟨r.duties.generated, rfl, Duties.mem_begun.mpr (.inr ⟨purpose, rfl⟩)⟩
  · obtain ⟨k, nonce, begun⟩ := HostRun.nonce_of_use given issued uses purpose
    obtain ⟨-, sameNonce, sameEncryptions⟩ :=
      r.duties.noteCommand_draws m.purpose i (by rcases uses with rfl | rfl <;> decide)
    exact ⟨k, sameNonce.trans nonce, sameEncryptions ▸ begun⟩

/-- Settles O56: the record joins each encryption to one draw, and NONCE holds the latest; a draw between makes it another. -/
theorem eachEncryptionHasItsOwnNonceGen : Obligations.EachEncryptionHasItsOwnNonceGen := by
  intro s ms between m m' n n' i i' r t u v start given moved given' hi hm idle low hi' hm' idle' low'
  have recorded : t.duties.Recorded := (Duties.recorded_start.moves start).move given
  have recorded' : u.duties.Recorded := recorded.moves moved
  have issued : r.state.issues m.event = some i :=
    State.issues_iff.mpr ⟨by rcases hi with rfl | rfl | rfl <;> decide, idle, low, by rw [hm]⟩
  have issued' : u.state.issues m'.event = some i' :=
    State.issues_iff.mpr ⟨by rcases hi' with rfl | rfl | rfl <;> decide, idle', low', by rw [hm']⟩
  obtain ⟨k, nonce, begun⟩ := HostRun.nonce_after_command given issued hi (by rw [hm])
  have stillBegun : (n, k) ∈ u.duties.encryptions := HostRun.encryptions_subset_of_moves moved begun
  refine ⟨fun notDraw => ?uses, fun draw => ?draws⟩
  case uses =>
    have uses : i' = .ksGen ∨ i' = .ctrXor := hi'.resolve_left notDraw
    obtain ⟨k', nonce', begun'⟩ := HostRun.nonce_of_use given' issued' uses (by rw [hm'])
    have oneToOne : n = n' ↔ k = k' := recorded'.unique _ stillBegun _ begun'
    refine ⟨fun different => ?_, fun draws => ?_⟩
    · by_contra noDraw
      apply different
      rcases HostRun.nonce_of_not_drawsDuring moved noDraw with none | same
      · rw [none] at nonce'
        cases nonce'
      · exact oneToOne.mpr (Option.some.inj (nonce.symm.trans (same.symm.trans nonce')))
    · have earlier : k < t.duties.generated := recorded.nonce_lt k nonce
      have later : t.duties.generated ≤ k' := (HostRun.drawnFrom_of_drawsDuring moved draws).2 k' nonce'
      exact fun same => absurd (oneToOne.mp same) (by omega)
  case draws =>
    rintro rfl
    have fresh := (u.duties.mayDraw_iff _).mp ((Duties.allows_uses (HostRun.move_allows given' issued')).1 draw)
    exact fresh n k (by rw [hm']) stillBegun

/-! ### NONCE holds a draw of the run -/

theorem State.perform_effect (s : State) (e : Event) :
    StepEffect { s with events := e :: s.events } (s.perform e) := by
  obtain ⟨t, stepped, -, effect⟩ := step_effect { s with events := e :: s.events }
  rwa [State.perform_of_step stepped]

/-- An operand write that is no word of NONCE leaves NONCE. -/
theorem Device.windowByte_nonce_writeOperand {d : Device} {cfg : Config} {v : Word} {p : Target}
    (other : ∀ k, p ≠ .windowWord .nonce k) {j : Nat} (hj : j < 120) :
    (d.writeOperand cfg v p).windowByte .nonce j = d.windowByte .nonce j := by
  cases p with
  | reg r => cases r <;> rfl
  | reserved => rfl
  | windowWord w k =>
    cases w with
    | nonce => exact absurd rfl (other k)
    | ks => rfl
    | _ =>
      refine (Device.read_writeWindowWord ..).trans (if_neg ?_)
      simp only [Window.base, Window.size]
      omega

/-- NONCE_GEN is what the ENGINE performs at this event. -/
def State.DrawsAt (s : State) (e : Event) : Prop :=
  e = .engineTurn ∧ s.dev.seq = .busy ∧ s.rst = false ∧ s.dev.pending = encode .nonceGen

/-- An accepted NONCE_GEN that the ENGINE has not performed. -/
def State.DrawPending (s : State) : Prop := s.dev.seq = .busy ∧ s.dev.pending = encode .nonceGen

/-- NONCE is as before, and a NONCE_GEN that was pending still is. -/
def State.NonceKept (s t : State) : Prop :=
  (∀ j < 120, t.dev.windowByte .nonce j = s.dev.windowByte .nonce j) ∧ (s.DrawPending → t.DrawPending)

/-- Everything that can happen to NONCE at an event but NONCE_GEN: a reset, a write of a word of it, or nothing. -/
theorem State.perform_nonce_cases {s : State} {e : Event} (noDraw : ¬ s.DrawsAt e) :
    s.sameDraws (s.perform e) ∧
      (s.resetsAt e = true ∨ (∃ k v, s.admittedWrite e = some (.windowWord .nonce k, v)) ∨ s.NonceKept (s.perform e)) := by
  cases s.perform_effect e with
  | same dev rst draws =>
    refine ⟨draws, .inr (.inr ⟨fun j _ => by rw [dev], fun pending => ?_⟩)⟩
    unfold State.DrawPending
    rw [dev]
    exact pending
  | engine turn busy low rst effect draws =>
    have event : e = .engineTurn := by
      rcases turn with none | ⟨es, h⟩
      · cases none
      · cases h
        rfl
    have other : s.dev.pending ≠ encode .nonceGen := fun pending => noDraw ⟨event, busy, low, pending⟩
    refine ⟨draws other, .inr (.inr ⟨fun j hj => ?_, fun pending => absurd pending.2 other⟩)⟩
    cases effect with
    | fault c raised dev => rw [dev]; rfl
    | completed i d pending stores dev =>
      rw [dev]
      refine stores.read_below_ks (by simp only [Window.base]; omega) fun nonceGen => ?_
      exact absurd (nonceGen ▸ pending) other
  | stored a v es events kind admitted operand rst dev draws =>
    obtain ⟨rfl, -⟩ := List.cons.inj events
    refine ⟨draws, .inr ?_⟩
    by_cases nonceWord : ∃ k, accessTarget s.cfg a = .windowWord .nonce k
    · obtain ⟨k, word⟩ := nonceWord
      exact .inl ⟨k, v, State.admittedWrite_eq_some.mpr ⟨a, rfl, kind, admitted, word⟩⟩
    · refine .inr ⟨fun j hj => ?_, fun pending => absurd pending.1 (admitted_write_not_busy admitted kind)⟩
      rw [dev]
      exact Device.windowByte_nonce_writeOperand (fun k word => nonceWord ⟨k, word⟩) hj
  | accepted v es events idle other low rst dev draws =>
    refine ⟨draws, .inr (.inr ⟨fun j _ => by rw [dev]; rfl, fun pending => ?_⟩)⟩
    cases pending.1.symm.trans idle
  | softReset es events notBusy low rst dev draws =>
    obtain ⟨rfl, -⟩ := List.cons.inj events
    exact ⟨draws, .inl (State.resetsAt_host.mpr (State.admittedWrite_cmd.mpr ⟨rfl, notBusy, low⟩))⟩
  | rst l es events driven dev draws =>
    obtain ⟨rfl, -⟩ := List.cons.inj events
    exact ⟨draws, .inl (by simpa [State.resetsAt] using driven)⟩

/-- The bytes are those of a draw made between two states, a test bench's or a free one. -/
def State.IsDrawBetween (s t : State) (b : Bytes 120) : Prop :=
  b ∈ s.bench ∨ ∃ k, s.draws ≤ k ∧ k < t.draws ∧ b = Config.entropy k

/-- What is so of NONCE and of the draws all along a run from `s`. -/
structure HostRun.NonceHistory (s : State) (r : HostRun) : Prop where
  bench : r.state.bench ⊆ s.bench
  draws : s.draws ≤ r.state.draws
  nonce : r.duties.nonce ≠ none → r.state.DrawPending ∨
    ∃ b, s.IsDrawBetween r.state b ∧ ∀ j < 120, r.state.dev.windowByte .nonce j = b.byte j

/-- NONCE_GEN performed: the next draw is in NONCE. -/
theorem State.perform_draw {s : State} {e : Event} (h : s.DrawsAt e) :
    (∀ j < 120, (s.perform e).dev.windowByte .nonce j = s.drawBytes.byte j) ∧
      (s.perform e).bench = s.drawTaken.bench ∧ (s.perform e).draws = s.drawTaken.draws := by
  obtain ⟨rfl, busy, low, pending⟩ := h
  rw [State.perform_engineTurn_busy (i := .nonceGen) (by decide) busy low pending (exec_nonceGen s)]
  exact ⟨fun j hj => Device.windowByte_storeWindow s.dev .nonce _ hj, rfl, rfl⟩

/-- The next draw, taken, is a draw of the run. -/
theorem HostRun.NonceHistory.draw {s t : State} {r : HostRun} (h : r.NonceHistory s)
    (bench : t.bench = r.state.drawTaken.bench) (draws : t.draws = r.state.drawTaken.draws) :
    t.bench ⊆ s.bench ∧ s.draws ≤ t.draws ∧ s.IsDrawBetween t r.state.drawBytes := by
  have since := h.draws
  cases hb : r.state.bench with
  | nil =>
    rw [State.drawTaken_of_no_bench hb] at bench draws
    rw [State.drawBytes_of_no_bench hb, bench, draws]
    exact ⟨h.bench, since.trans (Nat.le_succ _), .inr ⟨_, since, by rw [draws]; exact Nat.lt_succ_self _, rfl⟩⟩
  | cons d ds =>
    have inBench : d :: ds ⊆ s.bench := hb ▸ h.bench
    rw [State.drawTaken_of_bench hb] at bench draws
    rw [State.drawBytes_of_bench hb, bench, draws]
    exact ⟨fun x hx => inBench (List.mem_cons_of_mem d hx), since, .inl (inBench List.mem_cons_self)⟩

/-- After a reset and after a write of a word of NONCE, the record has no draw in NONCE. -/
theorem Duties.after_nonce_lost {d : Duties} {s : State} {m : Move}
    (lost : s.resetsAt m.event = true ∨ ∃ k v, s.admittedWrite m.event = some (.windowWord .nonce k, v)) :
    (d.after s m).nonce = none := by
  by_cases resets : s.resetsAt m.event = true
  · rw [Duties.after_reset resets]
    rfl
  · obtain ⟨k, v, admitted⟩ := lost.resolve_left resets
    have noCommand : s.issues m.event = none := by
      unfold State.issues
      rw [admitted]
    rw [Duties.after_write resets noCommand admitted]
    rfl

theorem HostRun.NonceHistory.move {s : State} {r r' : HostRun} {m : Move} (h : r.NonceHistory s)
    (given : r.move m = some r') : r'.NonceHistory s := by
  obtain ⟨kept, rfl⟩ := HostRun.move_eq_some.mp given
  by_cases draw : r.state.DrawsAt m.event
  · obtain ⟨bytes, bench, draws⟩ := State.perform_draw draw
    obtain ⟨bench', draws', isDraw⟩ := h.draw bench draws
    exact ⟨bench', draws', fun _ => .inr ⟨_, isDraw, bytes⟩⟩
  · obtain ⟨⟨draws, bench⟩, cases⟩ := State.perform_nonce_cases draw
    refine ⟨bench ▸ h.bench, draws ▸ h.draws, fun known => ?_⟩
    rcases HostRun.move_draws given with ⟨issued, -, -⟩ | ⟨-, none | same, -⟩
    · obtain ⟨-, idle, low, event⟩ := State.issues_iff.mp issued
      left
      show (r.state.perform m.event).DrawPending
      rw [event, show r.state.perform (.host (.wr 0x008 (encode .nonceGen))) = _ from
        State.cmd_idle (i := .nonceGen) (by decide) idle low]
      exact ⟨rfl, rfl⟩
    · exact absurd none known
    · rcases cases with resets | written | ⟨bytes, stillPending⟩
      · exact absurd (Duties.after_nonce_lost (.inl resets)) known
      · exact absurd (Duties.after_nonce_lost (.inr written)) known
      · rcases h.nonce (same ▸ known) with pending | ⟨b, isDraw, drawn⟩
        · exact .inl (stillPending pending)
        · refine .inr ⟨b, ?_, fun j hj => (bytes j hj).trans (drawn j hj)⟩
          unfold State.IsDrawBetween
          rw [show (r.state.perform m.event).draws = r.state.draws from draws]
          exact isDraw

/-- Each encryption in the record had a NONCE_GEN made for it among the moves. -/
def Duties.DrawnAmong (d : Duties) (ms : List Move) : Prop :=
  ∀ e ∈ d.encryptions, (⟨.encrypt e.1, .host (.wr 0x008 (encode .nonceGen))⟩ : Move) ∈ ms

theorem Duties.DrawnAmong.move {r r' : HostRun} {m : Move} {ms : List Move} (h : r.duties.DrawnAmong ms)
    (given : r.move m = some r') : r'.duties.DrawnAmong (ms ++ [m]) := by
  intro e he
  rcases HostRun.move_draws given with ⟨issued, -, noted⟩ | ⟨-, -, same⟩
  · rw [noted] at he
    rcases Duties.mem_begun.mp he with old | ⟨purpose, -⟩
    · exact List.mem_append_left _ (h e old)
    · obtain ⟨-, -, -, event⟩ := State.issues_iff.mp issued
      rw [← purpose, ← event]
      exact List.mem_append_right _ (List.mem_singleton_self m)
  · exact List.mem_append_left _ (h e (same ▸ he))

/-- Settles O55: the record names a draw, `NonceHistory` says that NONCE holds it, and in IDLE no NONCE_GEN is pending. -/
theorem encryptionsRunUnderDrawnNonces : Obligations.EncryptionsRunUnderDrawnNonces := by
  intro s ms m n r r' i start uses purpose event idle low given
  have issued : r.state.issues m.event = some i :=
    State.issues_iff.mpr ⟨by rcases uses with rfl | rfl <;> decide, idle, low, event⟩
  obtain ⟨k, nonce, begun⟩ := HostRun.nonce_of_use given issued uses purpose
  have history : r.NonceHistory s := HostRun.moves_induction (P := fun u => u.NonceHistory s)
    (fun _ _ _ h given => h.move given) ms _ r ⟨List.Subset.refl _, le_rfl, fun known => absurd rfl known⟩ start
  have among : r.duties.DrawnAmong ms := HostRun.moves_history_induction (P := fun ms u => u.duties.DrawnAmong ms)
    (fun _ _ _ _ h given => h.move given) ms [] _ r (fun e he => absurd he List.not_mem_nil) start
  have recorded : r'.duties.Recorded := (Duties.recorded_start.moves start).move given
  refine ⟨?_, recorded.unique, ⟨k, nonce, begun⟩, among (n, k) begun⟩
  rcases history.nonce (by simp [nonce]) with ⟨busy, -⟩ | drawn
  · cases busy.symm.trans idle
  · exact drawn

end Sys2Proof.Machine
